-- ==== Sys2Proof/Word.lean ====
section
/-! DEFINITION. The word types of the ADSP-219x program sequencer (`00_scope.md` R6, R10). -/

namespace Sys2Proof

/-- A program address: 24 bits, the address of one 24-bit instruction word (R6, R20, R70). Addition is modulo 2^24 (R10). -/
abbrev Addr := BitVec 24

/-- One 24-bit word of program memory (R6, R70). -/
abbrev PWord := BitVec 24

/-- A 16-bit register value (R6, R28, R29, D19). -/
abbrev Reg16 := BitVec 16

/-- A number of instruction words, one or two: the length of an instruction (R90) or what is left of the two delay slots (R47). -/
inductive WordCount
  | one
  | two
  deriving DecidableEq, Repr

end Sys2Proof
end

