-- ==== Sys2Proof/Syntax.lean ====
section
/-! DEFINITION. The abstract syntax of the instruction set (`30_encoding.md` R93 to R103): one constructor of `Instr` for each
row of `spec/opcode_table.json`. -/

namespace Sys2Proof

/-- The conditions of an `IF COND` instruction (R99, R121). The chapter names `EQ`, `NE`, `LT`, `AV`, `MV`, `NOT CE`, `SWCOND`,
`NOT SWCOND` and `TRUE`. PRESUMED: the other seven names are those of `93_implementation_defined.md` G1 (log entry 8). -/
inductive Cond
  | eq | ne | gt | le | lt | ge | av | notAv | ac | notAc
  /-- The software condition `SWCOND` (R123). -/
  | swcond
  /-- `NOT SWCOND` (R123). -/
  | notSwcond
  | mv | notMv
  /-- `NOT CE`, the counter condition (R124). -/
  | notCe
  /-- `TRUE`, what an instruction written without `IF` has (R99). -/
  | always
  deriving DecidableEq, Repr

/-- The loop terminator of `DO UNTIL` (R100). -/
inductive Term
  | ce
  | forever
  deriving DecidableEq, Repr

/-- What stands beside `PUSH PC` or `POP PC` in the same instruction (R103, R207). -/
inductive PcPartner
  /-- The one-stack form. -/
  | alone
  /-- `PUSH PC, PUSH STS` or `POP PC, POP STS` (R214). -/
  | sts
  /-- `PUSH PC, PUSH LOOP` or `POP PC, POP LOOP`: the forbidden pair of R215, an ill-formed term (R110). -/
  | loop
  deriving DecidableEq, Repr

/-- The set of modes one `ENA` or `DIS` names (R103, R240). `int` is not a bit of `MSTAT` (R241). -/
structure ModeSet where
  secReg  : Bool
  bitRev  : Bool
  avLatch : Bool
  arSat   : Bool
  mMode   : Bool
  timer   : Bool
  secDag  : Bool
  int     : Bool
  deriving DecidableEq, Repr

/-- The instructions (R93), one constructor for each row of `spec/opcode_table.json`. -/
inductive Instr
  /-- `DO <Imm12> [UNTIL <Term>]` (R150). -/
  | doUntil (imm12 : BitVec 12) (term : Term)
  /-- `[IF COND] JUMP <Imm13> [(DB)]` (R170). -/
  | jumpRel13 (cond : Cond) (imm13 : BitVec 13) (db : Bool)
  /-- `CALL <Imm16> [(DB)]` (R171). -/
  | callRel16 (imm16 : BitVec 16) (db : Bool)
  /-- `JUMP <Imm16> [(DB)]` (R172). -/
  | jumpRel16 (imm16 : BitVec 16) (db : Bool)
  /-- `[IF COND] LCALL <Imm24>` (R174), two words. -/
  | lcall (cond : Cond) (addr : Addr)
  /-- `[IF COND] LJUMP <Imm24>` (R175), two words. -/
  | ljump (cond : Cond) (addr : Addr)
  /-- `[IF COND] CALL (<Ireg>) [(DB)]` (R176). -/
  | callInd (cond : Cond) (ireg : BitVec 3) (db : Bool)
  /-- `[IF COND] JUMP (<Ireg>) [(DB)]` (R177). -/
  | jumpInd (cond : Cond) (ireg : BitVec 3) (db : Bool)
  /-- `[IF COND] RTI [(DB)] [(SS)]` (R191, R193). -/
  | rti (cond : Cond) (db : Bool) (ss : Bool)
  /-- `[IF COND] RTS [(DB)]` (R190). -/
  | rts (cond : Cond) (db : Bool)
  /-- `PUSH PC` with its partner (R208, R214, R215). -/
  | pushPc (partner : PcPartner)
  /-- `POP PC` with its partner (R209, R214, R215). -/
  | popPc (partner : PcPartner)
  /-- `PUSH LOOP`, with `PUSH STS` beside it if `sts` (R211, R214). -/
  | pushLoop (sts : Bool)
  /-- `POP LOOP`, with `POP STS` beside it if `sts` (R210, R214). -/
  | popLoop (sts : Bool)
  /-- `PUSH STS` (R212). -/
  | pushSts
  /-- `POP STS` (R213). -/
  | popSts
  /-- `FLUSH CACHE` (R220). -/
  | flushCache
  /-- `SETINT n` (R221). -/
  | setint (n : BitVec 4)
  /-- `CLRINT n` (R222). -/
  | clrint (n : BitVec 4)
  /-- `NOP` (R223). -/
  | nop
  /-- `IDLE` (R230). -/
  | idle
  /-- `IDLE (<imm4>)` (R231). -/
  | idleDiv (imm4 : BitVec 4)
  /-- `ENA <mode>, ...` (R240, R241). -/
  | ena (modes : ModeSet)
  /-- `DIS <mode>, ...` (R240, R241). -/
  | dis (modes : ModeSet)
  deriving DecidableEq, Repr

/-- What a fetch yields: an instruction of the set, or an instruction of another chapter, of which the spec keeps only the
length (`Other (len : 1..2)` of R93, decision D2). -/
inductive Fetched
  | core (i : Instr)
  | other (len : WordCount)
  deriving DecidableEq, Repr

/-- The length of an instruction (R90): two words for `LCALL` and `LJUMP`, one for every other. -/
def Instr.len : Instr → WordCount
  | .lcall _ _ => .two
  | .ljump _ _ => .two
  | .doUntil _ _ => .one
  | .jumpRel13 _ _ _ => .one
  | .callRel16 _ _ => .one
  | .jumpRel16 _ _ => .one
  | .callInd _ _ _ => .one
  | .jumpInd _ _ _ => .one
  | .rti _ _ _ => .one
  | .rts _ _ => .one
  | .pushPc _ => .one
  | .popPc _ => .one
  | .pushLoop _ => .one
  | .popLoop _ => .one
  | .pushSts => .one
  | .popSts => .one
  | .flushCache => .one
  | .setint _ => .one
  | .clrint _ => .one
  | .nop => .one
  | .idle => .one
  | .idleDiv _ => .one
  | .ena _ => .one
  | .dis _ => .one

/-- The length of what a fetch yields (R90, D2). -/
def Fetched.len : Fetched → WordCount
  | .core i => i.len
  | .other n => n

end Sys2Proof
end

