-- ==== Sys2Proof/Config.lean ====
section
/-! DEFINITION. What the spec leaves to the particular DSP (`00_scope.md` R7, `92_eei_decisions.md`), and the free values.
Every `opaque` constant here has no body: nothing can be proved of its value. -/

namespace Sys2Proof

/-- When `PCSTKLVL` clears, the parameter `PCSTKLVL_CLEAR` of decision D8. -/
inductive LvlClear
  /-- `level`: the bit is 1 exactly while the depth is at a mark after the last push or pop. -/
  | level
  /-- `sticky`: it stays 1 until `SSTAT` is read or the DSP is reset. -/
  | sticky
  /-- `unknown`: a draw, the default of D8. -/
  | unknown
  deriving DecidableEq, Repr

/-- Which `DECODE` the words of program memory follow (R92, D1). The spec leaves it an open parameter. -/
inductive Coding
  /-- The decoder of the chip: open, see `Config.chipTwoWords` and `Config.chipDecode`. -/
  | chip
  /-- The model's own numbering of the terms (`Decode.lean`; log entry 1), in which `State.withFetchWord` places an instruction. -/
  | numbering
  deriving DecidableEq, Repr

/-- The parameters of one DSP of the family (R7). A state carries them (`Machine.State.cfg`), no step changes them, and a
statement about every state is a statement about every DSP. -/
structure DspConfig where
  /-- `DECODE` (R92, D1). -/
  coding : Coding
  /-- `HAS_SLOW_IDLE` (R9). -/
  hasSlowIdle : Bool
  /-- `HAS_SLEEP` (R7, R232). -/
  hasSleep : Bool
  /-- The DSP runs under an emulator (R193). -/
  emulation : Bool
  /-- `STACK_IRQ`, the `IRPTL` bit of the stack interrupt (R251). -/
  stackIrq : BitVec 4
  /-- The `IRPTL` bit `IRQ_MAP` gives the timer (R252, R275). -/
  timerIrq : BitVec 4
  /-- `VECTOR` (R258); entry 14 is not read, the chapter gives that vector. -/
  vectors : Vector Addr 16
  /-- `PC_HIGH_WATER` (R34). -/
  pcHighWater : Nat
  /-- `PC_LOW_WATER` (R34). -/
  pcLowWater : Nat
  /-- `PCSTKLVL_CLEAR` (D8). -/
  lvlClear : LvlClear
  /-- `MSTAT_POP_LATENCY` (R303), read as at least 1. -/
  mstatPopLatency : Nat
  deriving DecidableEq, Repr

/-- The one constraint the spec puts on the water marks (N21): `0 < PC_LOW_WATER < PC_HIGH_WATER < 33`. -/
def DspConfig.wf (c : DspConfig) : Bool :=
  decide (0 < c.pcLowWater) && decide (c.pcLowWater < c.pcHighWater) && decide (c.pcHighWater < 33)

/-- Where a value the spec leaves open is drawn. Two draws of one step have different sites. -/
inductive Site
  /-- The word a fetch of a changed program word returns (R78, U28). -/
  | fetchFirst | fetchSecond
  /-- The interrupt registers an acceptance check sees right after a load of one (R305, U15). -/
  | seenIcntl | seenImask | seenIrptl
  /-- The counter `DO UNTIL` or `PUSH LOOP` pushes (R301, U10), and the one `IF NOT CE` tests (R301, U29). -/
  | cntrPush | cntrTest
  /-- `IF NOT CE` with `CNTR = 0` (R124, U2): the truth of the condition, and the counter left. -/
  | cntrZeroTruth | cntrZeroValue
  /-- The mode bits seen inside the window of R303. -/
  | mstatMode
  /-- The index register and the page an indirect call sees right after a load (R304, U16). -/
  | callIreg | callIjpg
  /-- Whether a loop armed with a counter of 0 or 1 makes another pass (R153, U2). -/
  | loopPass
  /-- `PCSTKLVL` where D8 draws it. -/
  | pcLevel
  /-- Whether a push on a lost PC stack or status stack raises the stack interrupt once more (R206). -/
  | lostLevel | lostStatus
  /-- Bits of `SSTAT` inside the window of R302 (U11), and those of a lost stack (R206). -/
  | sstatLag | sstatLost
  deriving DecidableEq, Repr

/-- The status a value of `CCODE` selects (R123): two names are fixed, the rest is the parameter `CCODE_SOURCE` (U25). -/
inductive StatusSource
  /-- `CCODE = 0x08`, "ALU Saturated (AR_SAT)". -/
  | aluSaturated
  /-- `CCODE = 0x09`, "Shifter Overflowed (SV)". -/
  | shifterOverflowed
  /-- Any other value: specific to the DSP. -/
  | dspSpecific (value : Reg16)
  deriving DecidableEq, Repr

namespace Config

/-- The free values: what is drawn at a site, at a value of the counter `Machine.State.tick`. -/
opaque free : Site → Nat → BitVec 24

/-- `ARITH_COND` (R125): an arithmetic condition as a function of `ASTAT`, its definition not in the source. -/
opaque arithCond : Cond → Reg16 → Bool

/-- Whether a status source is true when it is tested (R123): where a selected status lives is not in the source, so each test
reads a fresh value. -/
opaque statusTrue : StatusSource → Nat → Bool

/-- The chip's `DECODE`, the part that looks at the first word alone (R74, R90): whether an instruction has two words. -/
opaque chipTwoWords : PWord → Bool

/-- The chip's `DECODE` (R92, D1): what one word spells, or two words. A length that differs from the term's (R90) counts as no
instruction (`decodeChip`); the widths of R94 to R103 are those of the type `Instr`. -/
opaque chipDecode : PWord → Option PWord → Option Fetched

opaque hasSlowIdle : Bool
opaque hasSleep : Bool
opaque emulation : Bool
opaque stackIrq : BitVec 4
opaque timerIrq : BitVec 4
opaque vectorOf : Fin 16 → Addr
opaque lowWaterSeed : Nat
opaque highWaterSeed : Nat
opaque mstatPopLatencySeed : Nat

/-- `PC_LOW_WATER`, some number of 1 .. 31 (N21). -/
def pcLowWater : Nat := 1 + lowWaterSeed % 31

/-- `PC_HIGH_WATER`, some number above `PC_LOW_WATER` and below 33 (N21). -/
def pcHighWater : Nat := pcLowWater + 1 + highWaterSeed % (32 - pcLowWater)

/-- The parameters of the DSP that `State.reset` belongs to: all of them open. -/
def dsp : DspConfig where
  coding := .chip
  hasSlowIdle := hasSlowIdle
  hasSleep := hasSleep
  emulation := emulation
  stackIrq := stackIrq
  timerIrq := timerIrq
  vectors := Vector.ofFn vectorOf
  pcHighWater := pcHighWater
  pcLowWater := pcLowWater
  lvlClear := .unknown
  mstatPopLatency := 1 + mstatPopLatencySeed

end Config

end Sys2Proof
end

