-- ==== Sys2Proof/Decode.lean ====
section
/-! DEFINITION. The words that stand for the terms of the abstract syntax, and their decoders.

The spec gives no bit pattern at all (R92, N1): its normative level is the abstract syntax, "terms of that syntax placed at program
addresses", and `DECODE` is an open parameter (D1). It is one here too, `DspConfig.coding`: the chip's decoder, `decodeChip`, is
opaque but for R90, and is the one of the reset state. So that an instruction can be placed and run, there is one more value of the
parameter. DESIGN CHOICE (log entry 1): the terms are numbered. A word holds the row number of the instruction in
`spec/opcode_table.json` (1 to 24) in bits 23:18 and its operands, at the widths of R94 to R103, in bits 17:0; every other bit is
0. These words are NOT the words of the chip, and only the statements about `encode`, `decode` and `withFetchWord` speak of them.

| row | instruction | bits 17:0 |
|---|---|---|
| 1 | `DO UNTIL` | 12 `FOREVER`, 11:0 `Imm12` |
| 2 | `JUMP <Imm13>` | 17 `(DB)`, 16:13 condition, 12:0 `Imm13` |
| 3, 4 | `CALL <Imm16>`, `JUMP <Imm16>` | 16 `(DB)`, 15:0 `Imm16` |
| 5, 6 | `LCALL`, `LJUMP` | 3:0 condition; the second word is `Imm24` |
| 7, 8 | `CALL (Ireg)`, `JUMP (Ireg)` | 7 `(DB)`, 6:3 condition, 2:0 `Ireg` |
| 9 | `RTI` | 5 `(SS)`, 4 `(DB)`, 3:0 condition |
| 10 | `RTS` | 4 `(DB)`, 3:0 condition |
| 11, 12 | `PUSH PC`, `POP PC` | 1:0 partner: 0 alone, 1 `STS`, 2 `LOOP` |
| 13, 14 | `PUSH LOOP`, `POP LOOP` | 0 with `STS` |
| 15, 16, 17, 20, 21 | `PUSH STS`, `POP STS`, `FLUSH CACHE`, `NOP`, `IDLE` | none |
| 18, 19, 22 | `SETINT`, `CLRINT`, `IDLE (imm4)` | 3:0 the number |
| 23, 24 | `ENA`, `DIS` | 7 `INT`, 6:0 the modes at their `MSTAT` bits |
| 62, 63 | an instruction of another chapter, of one or two words (D2) | any |
-/

namespace Sys2Proof

/-- Why the words spell no instruction. -/
inductive DecodeError
  /-- There is no word to decode. -/
  | noWord
  /-- The first word is that of a two-word instruction and no second word follows. -/
  | secondWordMissing
  /-- Bits 23:18 number no instruction. -/
  | reservedOpcode
  /-- A bit that belongs to no operand is 1. -/
  | reservedBits
  /-- The partner field of `PUSH PC` or `POP PC` is 3. -/
  | reservedPartner
  /-- The chip's `DECODE` finds no instruction of that length in the words. -/
  | chipFindsNone
  deriving DecidableEq, Repr

/-- The code of a condition. PRESUMED: the order of `93_implementation_defined.md` G1 (log entry 8). -/
def condCode : Cond → BitVec 4
  | .eq => 0 | .ne => 1 | .gt => 2 | .le => 3 | .lt => 4 | .ge => 5 | .av => 6 | .notAv => 7
  | .ac => 8 | .notAc => 9 | .swcond => 10 | .notSwcond => 11 | .mv => 12 | .notMv => 13 | .notCe => 14 | .always => 15

/-- The condition of a code: every code is one. -/
def condOf (c : BitVec 4) : Cond :=
  match c.toNat with
  | 0 => .eq | 1 => .ne | 2 => .gt | 3 => .le | 4 => .lt | 5 => .ge | 6 => .av | 7 => .notAv
  | 8 => .ac | 9 => .notAc | 10 => .swcond | 11 => .notSwcond | 12 => .mv | 13 => .notMv | 14 => .notCe | _ => .always

def termBit : Term → Bool
  | .ce => false
  | .forever => true

def termOf (b : Bool) : Term := if b then .forever else .ce

def partnerCode : PcPartner → BitVec 2
  | .alone => 0
  | .sts => 1
  | .loop => 2

def partnerOf (c : BitVec 2) : Option PcPartner :=
  match c.toNat with
  | 0 => some .alone
  | 1 => some .sts
  | 2 => some .loop
  | _ => none

/-- The modes as bits: bit 7 is `INT`, the others stand at their `MSTAT` positions (R31, R240). -/
def modeBits (m : ModeSet) : BitVec 8 :=
  BitVec.ofBool m.int ++ BitVec.ofBool m.secDag ++ BitVec.ofBool m.timer ++ BitVec.ofBool m.mMode ++
    BitVec.ofBool m.arSat ++ BitVec.ofBool m.avLatch ++ BitVec.ofBool m.bitRev ++ BitVec.ofBool m.secReg

def modesOf (b : BitVec 8) : ModeSet where
  secReg := b.getLsbD 0
  bitRev := b.getLsbD 1
  avLatch := b.getLsbD 2
  arSat := b.getLsbD 3
  mMode := b.getLsbD 4
  timer := b.getLsbD 5
  secDag := b.getLsbD 6
  int := b.getLsbD 7

/-- Bits 23:18 of a first word. -/
def opcodeOf (w : PWord) : BitVec 6 := w.extractLsb' 18 6

/-- Bits 17:0 of a first word. -/
def operandsOf (w : PWord) : BitVec 18 := w.extractLsb' 0 18

/-- A first word from its row number and its operands. -/
def firstWord (row : BitVec 6) (operands : BitVec 18) : PWord := row ++ operands

/-- What the first word alone tells (R74, R90): a whole one-word instruction, or the first half of a two-word one. -/
inductive FirstWord
  | whole (i : Instr)
  | longCall (cond : Cond)
  | longJump (cond : Cond)
  | other (len : WordCount)
  deriving DecidableEq, Repr

/-- The instruction, if the bits from `width` up are 0. -/
def ifZeroAbove (width : Nat) (p : BitVec 18) (f : FirstWord) : Except DecodeError FirstWord :=
  if p >>> width = 0 then .ok f else .error .reservedBits

/-- The first word of an instruction, read by its row number and operands. -/
def decodeFirst (w : PWord) : Except DecodeError FirstWord :=
  let p := operandsOf w
  match (opcodeOf w).toNat with
  | 1 => ifZeroAbove 13 p (.whole (.doUntil (p.extractLsb' 0 12) (termOf (p.getLsbD 12))))
  | 2 => .ok (.whole (.jumpRel13 (condOf (p.extractLsb' 13 4)) (p.extractLsb' 0 13) (p.getLsbD 17)))
  | 3 => ifZeroAbove 17 p (.whole (.callRel16 (p.extractLsb' 0 16) (p.getLsbD 16)))
  | 4 => ifZeroAbove 17 p (.whole (.jumpRel16 (p.extractLsb' 0 16) (p.getLsbD 16)))
  | 5 => ifZeroAbove 4 p (.longCall (condOf (p.extractLsb' 0 4)))
  | 6 => ifZeroAbove 4 p (.longJump (condOf (p.extractLsb' 0 4)))
  | 7 => ifZeroAbove 8 p (.whole (.callInd (condOf (p.extractLsb' 3 4)) (p.extractLsb' 0 3) (p.getLsbD 7)))
  | 8 => ifZeroAbove 8 p (.whole (.jumpInd (condOf (p.extractLsb' 3 4)) (p.extractLsb' 0 3) (p.getLsbD 7)))
  | 9 => ifZeroAbove 6 p (.whole (.rti (condOf (p.extractLsb' 0 4)) (p.getLsbD 4) (p.getLsbD 5)))
  | 10 => ifZeroAbove 5 p (.whole (.rts (condOf (p.extractLsb' 0 4)) (p.getLsbD 4)))
  | 11 =>
    match partnerOf (p.extractLsb' 0 2) with
    | some q => ifZeroAbove 2 p (.whole (.pushPc q))
    | none => .error .reservedPartner
  | 12 =>
    match partnerOf (p.extractLsb' 0 2) with
    | some q => ifZeroAbove 2 p (.whole (.popPc q))
    | none => .error .reservedPartner
  | 13 => ifZeroAbove 1 p (.whole (.pushLoop (p.getLsbD 0)))
  | 14 => ifZeroAbove 1 p (.whole (.popLoop (p.getLsbD 0)))
  | 15 => ifZeroAbove 0 p (.whole .pushSts)
  | 16 => ifZeroAbove 0 p (.whole .popSts)
  | 17 => ifZeroAbove 0 p (.whole .flushCache)
  | 18 => ifZeroAbove 4 p (.whole (.setint (p.extractLsb' 0 4)))
  | 19 => ifZeroAbove 4 p (.whole (.clrint (p.extractLsb' 0 4)))
  | 20 => ifZeroAbove 0 p (.whole .nop)
  | 21 => ifZeroAbove 0 p (.whole .idle)
  | 22 => ifZeroAbove 4 p (.whole (.idleDiv (p.extractLsb' 0 4)))
  | 23 => ifZeroAbove 8 p (.whole (.ena (modesOf (p.extractLsb' 0 8))))
  | 24 => ifZeroAbove 8 p (.whole (.dis (modesOf (p.extractLsb' 0 8))))
  | 62 => .ok (.other .one)
  | 63 => .ok (.other .two)
  | _ => .error .reservedOpcode

/-- The length a first word gives (R74: the decoder knows it from the word at the lower address). A word that spells no
instruction counts as one word. -/
def lengthOf (w : PWord) : WordCount :=
  match decodeFirst w with
  | .ok (.longCall _) => .two
  | .ok (.longJump _) => .two
  | .ok (.other n) => n
  | _ => .one

/-- The instruction at the head of a list of words in the model's own numbering, and the words after it. -/
def decode : List PWord → Except DecodeError (Fetched × List PWord)
  | [] => .error .noWord
  | w :: rest =>
    match decodeFirst w with
    | .error e => .error e
    | .ok (.whole i) => .ok (.core i, rest)
    | .ok (.other .one) => .ok (.other .one, rest)
    | .ok (.longCall c) =>
      match rest with
      | [] => .error .secondWordMissing
      | w2 :: rest2 => .ok (.core (.lcall c w2), rest2)
    | .ok (.longJump c) =>
      match rest with
      | [] => .error .secondWordMissing
      | w2 :: rest2 => .ok (.core (.ljump c w2), rest2)
    | .ok (.other .two) =>
      match rest with
      | [] => .error .secondWordMissing
      | _ :: rest2 => .ok (.other .two, rest2)

/-- What the chip's `DECODE` answers, if its length is the `n` words it was read from (R90). -/
def ofLength (n : WordCount) (f : Option Fetched) (rest : List PWord) : Except DecodeError (Fetched × List PWord) :=
  match f with
  | none => .error .chipFindsNone
  | some i => if i.len = n then .ok (i, rest) else .error .chipFindsNone

/-- The chip's `DECODE` at the head of a list of words: open, but for R74 and R90 (R92). -/
def decodeChip : List PWord → Except DecodeError (Fetched × List PWord)
  | [] => .error .noWord
  | w :: rest =>
    if Config.chipTwoWords w then
      match rest with
      | [] => .error .secondWordMissing
      | w2 :: rest2 => ofLength .two (Config.chipDecode w (some w2)) rest2
    else ofLength .one (Config.chipDecode w none) rest

/-- `DECODE` (R92, D1), by the parameter. -/
def decodeBy (c : Coding) (ws : List PWord) : Except DecodeError (Fetched × List PWord) :=
  match c with
  | .chip => decodeChip ws
  | .numbering => decode ws

/-- The length a first word gives (R74), by the parameter. -/
def lengthBy (c : Coding) (w : PWord) : WordCount :=
  match c with
  | .chip => if Config.chipTwoWords w then .two else .one
  | .numbering => lengthOf w

/-- The operands of a one-bit field at bit `at_`. -/
def bitAt (at_ : Nat) (b : Bool) : BitVec 18 := (BitVec.ofBool b).setWidth 18 <<< at_

/-- The operands of a field of any width at bit `at_`. -/
def fieldAt {n : Nat} (at_ : Nat) (v : BitVec n) : BitVec 18 := v.setWidth 18 <<< at_

/-- The words of an instruction, the one at the lower address first. -/
def encode : Instr → List PWord
  | .doUntil imm t => [firstWord 1 (bitAt 12 (termBit t) ||| fieldAt 0 imm)]
  | .jumpRel13 c imm db => [firstWord 2 (bitAt 17 db ||| fieldAt 13 (condCode c) ||| fieldAt 0 imm)]
  | .callRel16 imm db => [firstWord 3 (bitAt 16 db ||| fieldAt 0 imm)]
  | .jumpRel16 imm db => [firstWord 4 (bitAt 16 db ||| fieldAt 0 imm)]
  | .lcall c a => [firstWord 5 (fieldAt 0 (condCode c)), a]
  | .ljump c a => [firstWord 6 (fieldAt 0 (condCode c)), a]
  | .callInd c r db => [firstWord 7 (bitAt 7 db ||| fieldAt 3 (condCode c) ||| fieldAt 0 r)]
  | .jumpInd c r db => [firstWord 8 (bitAt 7 db ||| fieldAt 3 (condCode c) ||| fieldAt 0 r)]
  | .rti c db ss => [firstWord 9 (bitAt 5 ss ||| bitAt 4 db ||| fieldAt 0 (condCode c))]
  | .rts c db => [firstWord 10 (bitAt 4 db ||| fieldAt 0 (condCode c))]
  | .pushPc p => [firstWord 11 (fieldAt 0 (partnerCode p))]
  | .popPc p => [firstWord 12 (fieldAt 0 (partnerCode p))]
  | .pushLoop sts => [firstWord 13 (bitAt 0 sts)]
  | .popLoop sts => [firstWord 14 (bitAt 0 sts)]
  | .pushSts => [firstWord 15 0]
  | .popSts => [firstWord 16 0]
  | .flushCache => [firstWord 17 0]
  | .setint n => [firstWord 18 (fieldAt 0 n)]
  | .clrint n => [firstWord 19 (fieldAt 0 n)]
  | .nop => [firstWord 20 0]
  | .idle => [firstWord 21 0]
  | .idleDiv d => [firstWord 22 (fieldAt 0 d)]
  | .ena m => [firstWord 23 (fieldAt 0 (modeBits m))]
  | .dis m => [firstWord 24 (fieldAt 0 (modeBits m))]

/-- The first and the second word of an instruction numbered as `spec/opcode_table.json` numbers bits: bits 23:0, then bits 47:24.
Bits from `nbits` up are 0. -/
def tableWords (nbits w : Nat) : PWord × PWord :=
  let v := w % 2 ^ nbits
  (BitVec.ofNat 24 v, BitVec.ofNat 24 (v / 2 ^ 24))

/-- The instruction the decoder reads from an instruction whose bits are `w`. -/
def decodeTableWord (nbits w : Nat) : Option Instr :=
  let ws := tableWords nbits w
  match decode [ws.1, ws.2] with
  | .ok (.core i, _) => some i
  | _ => none

end Sys2Proof
end

