-- ==== Sys2Proof/WellFormed.lean ====
section
/-! DEFINITION. The well-formedness of one instruction term (`30_encoding.md` R94, R103, R110). The restrictions that depend on
where an instruction stands (R111) are in `Machine/Admission.lean`, those that depend on the DSP (`HAS_SLOW_IDLE`, R9) in the
meaning itself. -/

namespace Sys2Proof

/-- Some mode is named (R103: a non-empty subset of the eight names). -/
def ModeSet.nonEmpty (m : ModeSet) : Bool :=
  m.secReg || m.bitRev || m.avLatch || m.arSat || m.mMode || m.timer || m.secDag || m.int

/-- Why a term is not an instruction the chapter admits (R110). -/
inductive IllFormed
  /-- `DO UNTIL` with `Imm12 = 0`: "Valid values range from 1 to 4095" (R94, U1). -/
  | loopOffsetZero
  /-- `PUSH PC, PUSH LOOP` or `POP PC, POP LOOP` (R110, R215, D15, U18). -/
  | pcWithLoop
  /-- `ENA` or `DIS` that names no mode (R103). -/
  | noMode
  deriving DecidableEq, Repr

/-- What is wrong with a term, or nothing (R110). -/
def Instr.problem : Instr → Option IllFormed
  | .doUntil imm12 _ => if imm12 = 0 then some .loopOffsetZero else none
  | .pushPc p => if p = .loop then some .pcWithLoop else none
  | .popPc p => if p = .loop then some .pcWithLoop else none
  | .ena m => if m.nonEmpty then none else some .noMode
  | .dis m => if m.nonEmpty then none else some .noMode
  | .jumpRel13 _ _ _ => none
  | .callRel16 _ _ => none
  | .jumpRel16 _ _ => none
  | .lcall _ _ => none
  | .ljump _ _ => none
  | .callInd _ _ _ => none
  | .jumpInd _ _ _ => none
  | .rti _ _ _ => none
  | .rts _ _ => none
  | .pushLoop _ => none
  | .popLoop _ => none
  | .pushSts => none
  | .popSts => none
  | .flushCache => none
  | .setint _ => none
  | .clrint _ => none
  | .nop => none
  | .idle => none
  | .idleDiv _ => none

/-- The term is an instruction the chapter admits (R93, R110). -/
abbrev Instr.WellFormed (i : Instr) : Prop := i.problem = none

end Sys2Proof
end

