-- ==== Sys2Proof/Machine/State.lean ====
section
/-! DEFINITION. The state of the program sequencer (`10_state.md`), the reasons a step can stop, and the state after reset. -/

namespace Sys2Proof.Machine

/-- Program memory (R70): the stored bytes by key, in one canonical form, `Memory.wf`. The word at address `a` is the three bytes
at keys `3 * a`, `3 * a + 1` and `3 * a + 2`, the low byte first; no instruction reaches a byte (R74, D13; log entry 2). -/
abbrev Memory := List Host.Cell

/-- A key below every key of the list, or an empty list. -/
def Memory.below (k : Nat) : Memory → Bool
  | [] => true
  | c :: _ => decide (k < c.1)

/-- The canonical form: keys strictly rising and inside the address space. An unlisted key reads as no value, so no entry can
equal what an unlisted key reads as. -/
def Memory.wf : Memory → Bool
  | [] => true
  | c :: m => decide (c.1 < 3 * 2 ^ 24) && Memory.below c.1 m && Memory.wf m

/-- One bank of the DAG address registers (R23, R25). -/
structure DagRegs where
  /-- `I0` to `I7`. -/
  i : Vector Reg16 8
  /-- `M0` to `M7`, the modify registers. -/
  m : Vector Reg16 8
  /-- `L0` to `L7`, the length registers. -/
  l : Vector Reg16 8
  deriving DecidableEq, Repr

/-- One bank of the data registers the chapter names (R25). PRESUMED: the widths, and that `MR0`, `MR1` and `SR0` are 16-bit parts
of `MR` and `SR` (log entry 9). -/
structure DataRegs where
  ax0 : Reg16
  ax1 : Reg16
  ay0 : Reg16
  ay1 : Reg16
  ar  : Reg16
  af  : Reg16
  mx0 : Reg16
  my0 : Reg16
  si  : Reg16
  se  : Reg16
  mr  : BitVec 40
  sr  : BitVec 40
  deriving DecidableEq, Repr

/-- One record of the three loop stacks, which move together (R43). -/
structure LoopRec where
  /-- The address of the first instruction of the loop. -/
  start : Addr
  /-- The address of the last instruction of the loop. -/
  last : Addr
  /-- The terminator: true for `FOREVER`, false for `CE` (R44). -/
  forever : Bool
  /-- The loop counter. -/
  count : Reg16
  /-- The model's own mark: `DO UNTIL CE` armed the loop with a counter of 0 or 1, and the number of its passes is not stated
  (R153, U2; log entry 15). -/
  openCount : Bool
  deriving DecidableEq, Repr

/-- One entry of the status stack (R46). -/
structure StatusEntry where
  astat : Reg16
  mstat : Reg16
  deriving DecidableEq, Repr

/-- A taken delayed branch whose slots have not all executed (R47). -/
structure DelayedBranch where
  /-- The slot words still to execute. -/
  remaining : WordCount
  target : Addr
  deriving DecidableEq, Repr

/-- Whether the core executes instructions (R49, R230 to R232, R279). -/
inductive Power
  | running
  /-- After `IDLE`. -/
  | idle
  /-- After `IDLE (imm4)`, with the clock divisor, which no rule reads. -/
  | slowIdle (divisor : BitVec 4)
  /-- Sleep mode: only a hardware reset leaves it. -/
  | sleep
  deriving DecidableEq, Repr

/-- A loop of the program text: where its `DO UNTIL` stands, and where it ends (R150, R157). -/
structure LoopSite where
  /-- The address of the `DO UNTIL`; the loop begins behind it. -/
  site : Addr
  last : Addr
  deriving DecidableEq, Repr

/-- A word that the instruction cache may still hold although program memory has changed (R50, R78). -/
structure CacheLine where
  addr : Addr
  word : PWord
  /-- After a `FLUSH CACHE`: how many further instructions may still be fetched from the old contents (R220, R305). -/
  left : Option Nat
  deriving DecidableEq, Repr

/-- A register with an effect latency (R51), by the reader that sees the lag. -/
inductive LagReg
  /-- `CNTR` as `DO UNTIL` and `PUSH LOOP` push it (R301). -/
  | cntrPush
  /-- `CNTR` as `IF NOT CE` tests it (R301, U29). -/
  | cntrTest
  /-- `CCODE` as a software condition sees it (R300). -/
  | ccode
  /-- `MSTAT` as the choice of a register bank sees it (R303). -/
  | mstat
  /-- `ICNTL`, `IMASK`, `IRPTL` as an acceptance check sees them (R305, U15). -/
  | icntl | imask | irptl
  /-- `IJPG` as an indirect call sees it (R304, U16). -/
  | ijpg
  /-- An index register, by bank and number, as an indirect call sees it (R304, U16). -/
  | ireg (secondary : Bool) (n : BitVec 3)
  deriving DecidableEq, Repr

/-- One open effect-latency window (R51): the older value, and how many further instructions may see it. -/
structure Lag where
  reg : LagReg
  old : Reg16
  left : Nat
  deriving DecidableEq, Repr

/-- The window of R302: what a read of `SSTAT` returns, the bits of `unsure` being either the old or the new ones. -/
structure SstatLag where
  base : Reg16
  unsure : Reg16
  left : Nat
  deriving DecidableEq, Repr

/-- One move of the environment between two steps of the core (R252, R275). -/
inductive EnvEvent
  /-- A source that `IRQ_MAP` gives bit `n` of `IRPTL` fires. -/
  | source (n : BitVec 4)
  /-- The timer fires. -/
  | timer
  deriving DecidableEq, Repr

/-- The registers the moves and loads of other chapters name in the chapter's examples (R23 to R39). -/
inductive MoveReg
  | i (n : BitVec 3) | m (n : BitVec 3) | l (n : BitVec 3)
  | ijpg | iopg | cntr | ccode | stacka | stackp | lpstacka | lpstackp
  | astat | mstat
  /-- Read only (R32): a write to it has no rule and changes nothing. -/
  | sstat
  | icntl | imask | irptl
  | ax0 | ax1 | ay0 | ay1 | ar | af | mx0 | my0 | si | se | mr0 | mr1 | sr0
  deriving DecidableEq, Repr

/-- One effect of an instruction of another chapter (decision D2). -/
inductive OtherEffect
  /-- A register receives a value: a load, or the result of a computation. -/
  | load (r : MoveReg) (v : Reg16)
  /-- A register receives another register's value. -/
  | move (dst src : MoveReg)
  /-- The multiplier result register receives a value. -/
  | loadMr (v : BitVec 40)
  /-- The shifter result register receives a value. -/
  | loadSr (v : BitVec 40)
  /-- A word of program memory changes (R78). -/
  | storeWord (a : Addr) (w : PWord)
  /-- The sleep bits of the PLL control and I/O clock control registers are programmed, or cleared (R232). -/
  | sleepBits (armed : Bool)
  deriving DecidableEq, Repr

/-- The state of the machine. INVENTORY.md lists every field with the rule that names it. -/
structure State where
  /-- The parameters of the DSP; no step changes them (R7; log entry 3). -/
  cfg : DspConfig
  /-- The address of the next instruction (R20). -/
  pc : Addr
  /-- Program memory (R70). -/
  mem : Memory
  /-- The primary and the secondary DAG address registers (R23). -/
  dagPri : DagRegs
  dagSec : DagRegs
  /-- The primary and the secondary data registers (R25). -/
  dataPri : DataRegs
  dataSec : DataRegs
  /-- `IJPG` (R24). -/
  ijpg : BitVec 8
  /-- `IOPG` (R25). -/
  iopg : Reg16
  /-- `CNTR` (R26). -/
  cntr : Reg16
  /-- `CCODE` (R27). -/
  ccode : Reg16
  /-- `STACKA`, `STACKP` (R28). -/
  stacka : Reg16
  stackp : BitVec 8
  /-- `LPSTACKA`, `LPSTACKP` (R29). -/
  lpstacka : Reg16
  lpstackp : Reg16
  /-- `ASTAT` (R30). -/
  astat : Reg16
  /-- `MSTAT` (R31). -/
  mstat : Reg16
  /-- `ICNTL` (R37), `IMASK` (R38), `IRPTL` (R39). -/
  icntl : Reg16
  imask : Reg16
  irptl : Reg16
  /-- The PC stack, top first (R42). -/
  pcstk : List Addr
  /-- The loop stacks, top first (R43). -/
  lpstk : List LoopRec
  /-- The status stack, top first (R46). -/
  stsstk : List StatusEntry
  /-- The contents and the depth of a stack are unspecified since it overflowed (R206). -/
  pcLost : Bool
  lpLost : Bool
  stsLost : Bool
  /-- `PCSTKLVL` (R34) and `STKOVERFLOW` (R35), the two flags of `SSTAT` that are state. -/
  pcstklvl : Bool
  stkoverflow : Bool
  /-- The pending delayed branch (R47). -/
  db : Option DelayedBranch
  /-- The program text (R14, R92: terms placed at program addresses): the addresses of program memory at which the program holds an
  instruction. It comes with the program, from outside (log entry 6), and no step changes it. -/
  text : List Addr
  /-- Where the program text holds a delayed branch, as far as it has executed, taken or not: the two positions behind each are bound
  by R133 (R132; the model's own). -/
  slotSites : List Addr
  /-- Where the program text holds a loop, as far as its `DO UNTIL` has executed: its lines are bound by R157, whether or not its
  record is on the loop stacks (R160; the model's own). -/
  loopSites : List LoopSite
  /-- Where the program text holds a `POP LOOP`, as far as it has executed: the stack maintenance that a return inside a loop needs (R157;
  the model's own). -/
  popSites : List Addr
  /-- The interrupts in service, the executing one first (R48). -/
  insvc : List (BitVec 4)
  /-- Idle state (R49). -/
  power : Power
  /-- The sleep bits of the clock control registers (R232). -/
  sleepArmed : Bool
  /-- The stale part of the instruction cache (R50). -/
  icache : List CacheLine
  /-- The open effect-latency windows (R51). -/
  lags : List Lag
  /-- The open window of `SSTAT` (R36, R302). -/
  sstatLag : Option SstatLag
  /-- The counter the free values are drawn with; every step advances it (the model's own). -/
  tick : Nat
  /-- The environment's schedule (R14, R252): what fires before each step (the model's own). -/
  events : List (List EnvEvent)
  /-- What the next instructions of other chapters do (R14, D2), supplied from outside (the model's own). -/
  others : List (List OtherEffect)
  deriving DecidableEq, Repr

/-- Why the machine stops with a fault. The spec names each of them a fault, or, for `asleep`, a stuck machine. -/
inductive Fault
  /-- A fetch reaches an address where no word is stored (U13). Raised by the step. Safe: the source does not say what such a
  fetch returns. -/
  | noProgramWord
  /-- The words at the program counter spell no instruction (U14), with the decoder's reason. Raised by the step. Safe. -/
  | noInstruction (why : DecodeError)
  /-- A pop of the empty PC stack by the instruction `i` at `a`, "a fault naming the instruction" (R206, U5). Raised by `RTS`, `RTI`,
  `POP PC`. Safe. -/
  | pcStackUnderflow (i : Instr) (a : Addr)
  /-- A pop of the empty loop stacks by the instruction `i` at `a` (R206, U5). Raised by `POP LOOP`. Safe. -/
  | loopStackUnderflow (i : Instr) (a : Addr)
  /-- A pop of the empty status stack by the instruction `i` at `a` (R206, U5). Raised by `RTI`, `POP STS`. Safe. -/
  | statusStackUnderflow (i : Instr) (a : Addr)
  /-- A pop, by the instruction `i` at `a`, of a PC stack whose contents are unspecified since it overflowed (R206, U17). Raised as
  `pcStackUnderflow`. Safe. -/
  | pcStackUnspecified (i : Instr) (a : Addr)
  /-- A pop, by the instruction `i` at `a`, of loop stacks whose contents are unspecified since they overflowed (R206, U17). Raised by
  `POP LOOP`. Safe. -/
  | loopStackUnspecified (i : Instr) (a : Addr)
  /-- A pop, by the instruction `i` at `a`, of a status stack whose contents are unspecified since it overflowed (R206, U17). Raised as
  `statusStackUnderflow`. Safe. -/
  | statusStackUnspecified (i : Instr) (a : Addr)
  /-- The loop hardware compares the instruction at `a` with the top record (R45, R151) of loop stacks that overflowed (R206, U17).
  Raised by whatever is sequenced outside a delay slot. Safe. -/
  | loopEndUnspecified (a : Addr)
  /-- The core is in sleep mode, which only a hardware reset leaves (R232, U23). Raised by the step. Safe: the machine is stuck. -/
  | asleep
  deriving DecidableEq, Repr

/-- Why the model gives a step no meaning. Each but the first is a prohibition of the chapter which the spec treats as `refuse`. -/
inductive Refusal
  /-- The instruction has no meaning in the model yet. Raised by `exec`. Safe. -/
  | notModelled (mnemonic : String)
  /-- The term is no instruction of the set (R110). Raised by the step, and by `DO UNTIL` with `Imm12 = 0` (U1). Safe. -/
  | illFormed (why : IllFormed)
  /-- An instruction that may not stand in a delay slot stands in one (R133, U3, D3). Raised by the step. Safe. -/
  | barredInDelaySlot
  /-- A branch is taken while a delayed branch is pending (R133, U3). Raised by every branch. Safe. -/
  | branchInDelaySlot
  /-- A two-word instruction stands in the second delay slot (R131, R132, R133). Safe. -/
  | twoWordInSecondSlot
  /-- The first word of a two-word instruction stands at the active loop end or just before it (R156). Safe. -/
  | twoWordAtLoopEnd
  /-- A taken branch at the active loop end, other than a jump in an infinite loop (R156, D17), or a taken call in the last line of any
  loop (R157). Safe. -/
  | branchAtLoopEnd
  /-- A taken delayed branch whose own word or a slot is the active loop end (R134, R156). Safe. -/
  | delayedBranchAtLoopEnd
  /-- A taken `RTS` or `RTI` inside a loop, one on the loop stacks or one of the program text without stack maintenance (R157, U4).
  Safe. -/
  | returnInsideLoop
  /-- A second active loop, or a second loop of the program text, with the end of another one (R157, U4). Raised by the step for
  `DO UNTIL` and `PUSH LOOP`. Safe. -/
  | sharedLoopEnd
  /-- `PUSH` or `POP` among the last seven instructions of a loop (R157, R160, R217). Raised by the step. Safe. -/
  | stackOpNearLoopEnd
  /-- `PUSH LOOP` with `LPSTACKP[14:8]` not zero (R211, U7). Safe. -/
  | lpstackpReservedBits
  /-- `IDLE (imm4)` on a DSP without Slow Idle (R9, R231, U20). Safe. -/
  | noSlowIdle
  /-- `RTI (SS)` under an emulator: which interrupt it makes is not in the source (R193, N14). Safe. -/
  | emulatorSingleStep
  /-- An instruction of another chapter whose effect was not supplied in `State.others` (R5, D2). Raised by the step. Safe. -/
  | otherNotSupplied
  deriving DecidableEq, Repr

namespace State

/-- A bank of DAG registers that holds zeros. -/
def zeroDag : DagRegs where
  i := Vector.replicate 8 0
  m := Vector.replicate 8 0
  l := Vector.replicate 8 0

/-- A bank of data registers that holds zeros. -/
def zeroData : DataRegs where
  ax0 := 0
  ax1 := 0
  ay0 := 0
  ay1 := 0
  ar := 0
  af := 0
  mx0 := 0
  my0 := 0
  si := 0
  se := 0
  mr := 0
  sr := 0

/-- The machine right after reset (R52, R53). The source gives one value, `ICNTL[10] = 0`; `pc` is PRESUMED (G5), every other value
is a DESIGN CHOICE that follows the premises of R53 where there are any and is zero elsewhere (log entries 4, 5). -/
def reset : State where
  cfg := Config.dsp
  pc := 0
  mem := []
  dagPri := zeroDag
  dagSec := zeroDag
  dataPri := zeroData
  dataSec := zeroData
  ijpg := 0
  iopg := 0
  cntr := 0
  ccode := 0
  stacka := 0
  stackp := 0
  lpstacka := 0
  lpstackp := 0
  astat := 0
  mstat := 0
  icntl := 0
  imask := 0
  irptl := 0
  pcstk := []
  lpstk := []
  stsstk := []
  pcLost := false
  lpLost := false
  stsLost := false
  pcstklvl := false
  stkoverflow := false
  db := none
  text := []
  slotSites := []
  loopSites := []
  popSites := []
  insvc := []
  power := .running
  sleepArmed := false
  icache := []
  lags := []
  sstatLag := none
  tick := 0
  events := []
  others := []

end State

end Sys2Proof.Machine
end

