-- ==== Sys2Proof/Machine/Flags.lean ====
section
/-! DEFINITION. The stack status flags and the word `SSTAT` (`10_state.md` R32 to R36, `70_reset_and_hazards.md` R302). No
instruction of the set writes an arithmetic flag (R30, R144). -/

namespace Sys2Proof.Machine

/-- The depths of the stacks (R6, R41). -/
def pcDepth : Nat := 33
def lpDepth : Nat := 8
def stsDepth : Nat := 16

/-- `PCSTKEMPTY` (R33). -/
def pcstkEmpty (s : State) : Bool := s.pcstk.isEmpty

/-- `PCSTKFULL` (R33). -/
def pcstkFull (s : State) : Bool := s.pcstk.length == pcDepth

/-- `LPSTKEMPTY` (R33). -/
def lpstkEmpty (s : State) : Bool := s.lpstk.isEmpty

/-- `LPSTKFULL` (R33). -/
def lpstkFull (s : State) : Bool := s.lpstk.length == lpDepth

/-- `STSSTKEMPTY` (R33). -/
def stsstkEmpty (s : State) : Bool := s.stsstk.isEmpty

/-- The seven flags of `SSTAT` as a word, bit 3 being 0. PRESUMED: the positions are those of G3 (R32; log entry 10). -/
def sstatOfFlags (s : State) : Reg16 :=
  (BitVec.ofBool s.stkoverflow ++ BitVec.ofBool (stsstkEmpty s) ++ BitVec.ofBool (lpstkFull s) ++
    BitVec.ofBool (lpstkEmpty s) ++ 0#1 ++ BitVec.ofBool s.pcstklvl ++ BitVec.ofBool (pcstkFull s) ++
    BitVec.ofBool (pcstkEmpty s)).setWidth 16

/-- The bits of `SSTAT` that report a stack whose depth is unspecified since it overflowed (R206). -/
def lostBits (s : State) : Reg16 :=
  (if s.pcLost then 0x0003 else 0) ||| (if s.lpLost then 0x0030 else 0) ||| (if s.stsLost then 0x0040 else 0)

/-- `SSTAT` as the hardware holds it: the flags, those of a lost stack being free. -/
def sstat (s : State) : Reg16 :=
  if lostBits s = 0 then sstatOfFlags s
  else (sstatOfFlags s &&& ~~~lostBits s) ||| ((Config.free .sstatLost s.tick).setWidth 16 &&& lostBits s)

/-- The bit of `STKOVERFLOW` in `SSTAT` (R32). -/
def overflowBit : Reg16 := 0x0080

/-- What a read of `SSTAT` returns now: inside the window of R302 the held word, its unsure bits being either the old or the new
ones. -/
def sstatSeen (s : State) : Reg16 :=
  match s.sstatLag with
  | none => sstat s
  | some g => if g.unsure = 0 then g.base else g.base ^^^ (g.unsure &&& (Config.free .sstatLag s.tick).setWidth 16)

/-- The bits of `SSTAT` that a push or pop of the status stack changes, and those of one of the loop stacks (R33). -/
def statusBits : Reg16 := 0x0040
def loopBits : Reg16 := 0x0030

/-- Opens the window of `PUSH PC` and `POP PC` (R302): the next instruction reads every bit as before, the word `old`. In a pair the
bits of `both`, those of the other stack, are old by the one rule of R302 and new by the other: each is either (DESIGN CHOICE,
log entry 39). -/
def lagAllBits (both old : Reg16) (s : State) : State :=
  { s with sstatLag := some { base := old, unsure := (old ^^^ sstat s) &&& both, left := 1 } }

/-- Opens the window of `PUSH`/`POP LOOP` and `PUSH`/`POP STS` (R302): the next instruction reads the old `STKOVERFLOW` and the new
other bits. -/
def lagOverflowBit (old : Reg16) (s : State) : State :=
  let base := (sstat s &&& ~~~overflowBit) ||| (old &&& overflowBit)
  { s with sstatLag := some { base := base, unsure := 0, left := 1 } }

/-- Opens the window of a push or pop that no `PUSH` or `POP` asked for (R302, U11): the next instruction reads each bit that
changed as either the old or the new one. A window that no instruction has run in yet is kept inside the new one
(log entry 39). -/
def lagImplicit (old : Reg16) (s : State) : State :=
  let before : Reg16 :=
    match s.sstatLag with
    | some g => if g.left = 1 then g.unsure ||| (g.base ^^^ sstat s) else 0
    | none => 0
  { s with sstatLag := some { base := sstat s, unsure := (old ^^^ sstat s) ||| before, left := 1 } }

end Sys2Proof.Machine
end

