-- ==== Sys2Proof/Machine/Ops.lean ====
section
/-! DEFINITION. The named operations of the machine: program memory, effect-latency windows, the stacks
(`44_stack_ops.md` R200 to R206), the interrupt mechanism (`60_exceptions.md` R251 to R262), and the sequencing function
(`40_conditions_and_branch_options.md` R131 to R134, `41_loops.md` R151, R152, R156). -/

namespace Sys2Proof.Machine

/-! ### Program memory -/

/-- The byte at a key, or none where nothing is stored. This is the one definition of what an unlisted key reads as (log entry 2). -/
def Memory.readByte : Memory → Nat → Option (BitVec 8)
  | [], _ => none
  | c :: m, k => if c.1 = k then some c.2 else Memory.readByte m k

/-- The memory with one byte changed, in canonical form. -/
def Memory.writeByte : Memory → Nat → BitVec 8 → Memory
  | [], k, b => [(k, b)]
  | c :: m, k, b =>
    if k < c.1 then (k, b) :: c :: m
    else if k = c.1 then (k, b) :: m
    else c :: Memory.writeByte m k b

/-- The key of byte `j` (0 lowest) of the word at address `a`. -/
def byteKey (a : Addr) (j : Nat) : Nat := 3 * a.toNat + j

/-- `MemRead(a, 1)` (R11, R72): the word at address `a`, or none where none is stored. -/
def Memory.readWord (m : Memory) (a : Addr) : Option PWord :=
  match m.readByte (byteKey a 0), m.readByte (byteKey a 1), m.readByte (byteKey a 2) with
  | some b0, some b1, some b2 => some (b2 ++ b1 ++ b0)
  | _, _, _ => none

/-- The memory with the word at address `a` changed, in canonical form. -/
def Memory.writeWord (m : Memory) (a : Addr) (w : PWord) : Memory :=
  ((m.writeByte (byteKey a 0) (w.extractLsb' 0 8)).writeByte (byteKey a 1) (w.extractLsb' 8 8)).writeByte
    (byteKey a 2) (w.extractLsb' 16 8)

/-! ### The instruction in memory -/

/-- What `DECODE` finds in these words (R92). -/
def decoded (c : Coding) (ws : List PWord) : Except Fault Fetched :=
  match decodeBy c ws with
  | .error e => .error (.noInstruction e)
  | .ok (i, _) => .ok i

/-- The instruction that begins with the word `first` and, if that says so, goes on with `second` (R72, R74; log entry 38). -/
def instrOf (c : Coding) (first second : Option PWord) : Except Fault Fetched :=
  match first with
  | none => .error .noProgramWord
  | some w =>
    match lengthBy c w with
    | .one => decoded c [w]
    | .two =>
      match second with
      | none => .error .noProgramWord
      | some w2 => decoded c [w, w2]

/-- The instruction program memory holds at an address, if any (R92). -/
def instrAt (c : Coding) (m : Memory) (a : Addr) : Option Fetched := (instrOf c (m.readWord a) (m.readWord (a + 1))).toOption

/-! ### The program text (R111) -/

/-- A delayed branch (R101). -/
def isDelayedBranch : Instr → Bool
  | .jumpRel13 _ _ db => db
  | .callRel16 _ db => db
  | .jumpRel16 _ db => db
  | .callInd _ _ db => db
  | .jumpInd _ _ db => db
  | .rti _ db _ => db
  | .rts _ db => db
  | .doUntil _ _ => false
  | .lcall _ _ => false
  | .ljump _ _ => false
  | .pushPc _ => false
  | .popPc _ => false
  | .pushLoop _ => false
  | .popLoop _ => false
  | .pushSts => false
  | .popSts => false
  | .flushCache => false
  | .setint _ => false
  | .clrint _ => false
  | .nop => false
  | .idle => false
  | .idleDiv _ => false
  | .ena _ => false
  | .dis _ => false

/-- The loop end of `DO UNTIL` (R94, R140). -/
def loopLast (pc : Addr) (imm : BitVec 12) : Addr := pc + imm.setWidth 24

/-- The loop of the program text whose `DO UNTIL` the instruction at `a` is (R150). -/
def loopSiteOf (i : Instr) (a : Addr) : List LoopSite :=
  match i with
  | .doUntil imm _ => [{ site := a, last := loopLast a imm }]
  | .jumpRel13 _ _ _ => []
  | .callRel16 _ _ => []
  | .jumpRel16 _ _ => []
  | .lcall _ _ => []
  | .ljump _ _ => []
  | .callInd _ _ _ => []
  | .jumpInd _ _ _ => []
  | .rti _ _ _ => []
  | .rts _ _ => []
  | .pushPc _ => []
  | .popPc _ => []
  | .pushLoop _ => []
  | .popLoop _ => []
  | .pushSts => []
  | .popSts => []
  | .flushCache => []
  | .setint _ => []
  | .clrint _ => []
  | .nop => []
  | .idle => []
  | .idleDiv _ => []
  | .ena _ => []
  | .dis _ => []

/-- `POP LOOP` (R210), the stack maintenance of R157. -/
def isPopLoop : Instr → Bool
  | .doUntil _ _ => false
  | .jumpRel13 _ _ _ => false
  | .callRel16 _ _ => false
  | .jumpRel16 _ _ => false
  | .lcall _ _ => false
  | .ljump _ _ => false
  | .callInd _ _ _ => false
  | .jumpInd _ _ _ => false
  | .rti _ _ _ => false
  | .rts _ _ => false
  | .pushPc _ => false
  | .popPc _ => false
  | .pushLoop _ => false
  | .popLoop _ => true
  | .pushSts => false
  | .popSts => false
  | .flushCache => false
  | .setint _ => false
  | .clrint _ => false
  | .nop => false
  | .idle => false
  | .idleDiv _ => false
  | .ena _ => false
  | .dis _ => false

/-- Memory holds an instruction of a kind there. -/
def holdsKind (kind : Instr → Bool) (c : Coding) (m : Memory) (a : Addr) : Bool :=
  match instrAt c m a with
  | some (.core i) => kind i
  | some (.other _) => false
  | none => false

/-- The loop whose `DO UNTIL` the text holds there. -/
def loopPlace (c : Coding) (m : Memory) (a : Addr) : List LoopSite :=
  match instrAt c m a with
  | some (.core i) => loopSiteOf i a
  | some (.other _) => []
  | none => []

/-- Where the program text holds a delayed branch (R132): the places that have executed and those the program declares, which need not
have (log entry 23). -/
def branchPlaces (s : State) : List Addr := s.slotSites ++ s.text.filter (holdsKind isDelayedBranch s.cfg.coding s.mem)

/-- The loops of the program text (R157): those whose `DO UNTIL` has executed and those the program declares. -/
def textLoops (s : State) : List LoopSite := s.loopSites ++ s.text.flatMap (loopPlace s.cfg.coding s.mem)

/-- Where the program text holds a `POP LOOP`: the places that have executed and those the program declares. -/
def popPlaces (s : State) : List Addr := s.popSites ++ s.text.filter (holdsKind isPopLoop s.cfg.coding s.mem)

/-- What the model has seen of the program text without the address `a`, whose word changes. -/
def forgetText (a : Addr) (s : State) : State :=
  { s with
    slotSites := s.slotSites.filter (· ≠ a)
    loopSites := s.loopSites.filter (fun l => l.site ≠ a)
    popSites := s.popSites.filter (· ≠ a) }

/-- The word at `a` of program memory changes (R70, R78). -/
def storeText (a : Addr) (w : PWord) (s : State) : State := { forgetText a s with mem := s.mem.writeWord a w }

/-- The address stands in the loop from `start` to `last` (R157). -/
def within (start last a : Addr) : Bool := decide (a - start ≤ last - start)

/-- The address stands inside a loop of the program text, armed or not, without stack maintenance (R157). DESIGN CHOICE (log entry 23):
the maintenance the spec asks for is a `POP LOOP` among the lines of the loop. -/
def insideTextLoop (a : Addr) (s : State) : Bool :=
  (textLoops s).any fun l =>
    l.site ≠ a && within (l.site + 1) l.last a && !(popPlaces s).any (within (l.site + 1) l.last)

/-- A return may not stand at the address (R157, U4): it is inside a loop that is on the loop stacks, the active one or one around it, or
inside one of the program text without stack maintenance. -/
def insideLoop (a : Addr) (s : State) : Bool := s.lpstk.any (fun r => within r.start r.last a) || insideTextLoop a s

/-- The address is the last line of a loop of the program text (R157). -/
def endsTextLoop (a : Addr) (s : State) : Bool := (textLoops s).any (fun l => l.site ≠ a && l.last = a)

/-- The address is the last line of a loop, one on the loop stacks or one of the program text (R157). -/
def endsLoop (a : Addr) (s : State) : Bool :=
  s.lpstk.any (fun r => r.last = a) || (textLoops s).any (fun l => l.last = a)

/-! ### Bits, draws and windows -/

/-- The word with bit `n` alone (R38, R39). -/
def bit (n : BitVec 4) : Reg16 := 1#16 <<< n.toNat

/-- A word with the bits of `mask` set to `v` (R240). -/
def setBits (mask : Reg16) (v : Bool) (w : Reg16) : Reg16 := if v then w ||| mask else w &&& ~~~mask

/-- The number of words as an address offset (R21). -/
def wordsOf : WordCount → Addr
  | .one => 1
  | .two => 2

/-- `draw` of a truth value (R11; log entry 17). -/
def drawBit (x : Site) (s : State) : Bool := (Config.free x s.tick).getLsbD 0

/-- `draw` of a 16-bit value (R11). -/
def draw16 (x : Site) (s : State) : Reg16 := (Config.free x s.tick).setWidth 16

/-- `draw({new} ∪ olds)` (R11): the new value if there is no older one that may still be seen. -/
def drawFrom {α : Type} (x : Site) (s : State) (new : α) (olds : List α) : α :=
  match olds with
  | [] => new
  | _ :: _ => (new :: olds).getD ((Config.free x s.tick).toNat % (olds.length + 1)) new

/-- The older values of a register that its reader may still see, the latest write's first (R51). -/
def oldsOf (r : LagReg) (s : State) : List Reg16 := (s.lags.filter (fun g => g.reg = r)).map Lag.old

/-- Opens a window: the next `left` instructions may see `old` (R51; log entry 18). -/
def openLag (r : LagReg) (old : Reg16) (left : Nat) (s : State) : State :=
  { s with lags := { reg := r, old := old, left := left } :: s.lags }

/-- The windows one instruction later (R300 to R305). -/
def agedLags : List Lag → List Lag
  | [] => []
  | g :: gs => if g.left = 0 then agedLags gs else { g with left := g.left - 1 } :: agedLags gs

/-- The window of `SSTAT` one instruction later (R302). -/
def agedSstat : Option SstatLag → Option SstatLag
  | none => none
  | some g => if g.left = 0 then none else some { g with left := g.left - 1 }

/-- The stale cache words one instruction later (R78, R220, R305; log entry 19). -/
def agedCache : List CacheLine → List CacheLine
  | [] => []
  | c :: cs =>
    match c.left with
    | none => c :: agedCache cs
    | some n => if n ≤ 1 then agedCache cs else { c with left := some (n - 1) } :: agedCache cs

/-- What every instruction does first: the windows age by one executed instruction (R300 to R305), and the draws of this
instruction are fresh. -/
def beginInstr (s : State) : State :=
  { s with lags := agedLags s.lags, sstatLag := agedSstat s.sstatLag, icache := agedCache s.icache, tick := s.tick + 1 }

/-- A register that only an acceptance check reads late: its window is for one check (R305, U15; log entry
18). -/
def checkOnly : LagReg → Bool
  | .icntl => true
  | .imask => true
  | .irptl => true
  | .cntrPush => false
  | .cntrTest => false
  | .ccode => false
  | .mstat => false
  | .ijpg => false
  | .ireg _ _ => false

/-- A step in which no instruction executes: the draws are fresh, and the acceptance check that came first has used the windows
open for it. -/
def beginStep (s : State) : State := { s with lags := s.lags.filter (fun g => !checkOnly g.reg), tick := s.tick + 1 }

/-! ### Latching (R251, R252) -/

/-- `latch(n)`: `IRPTL[n] <- 1`, no other bit (R252, R221). -/
def latch (n : BitVec 4) (s : State) : State := { s with irptl := s.irptl ||| bit n }

/-- `IRPTL[n] <- 0`, no other bit (R222, R261). -/
def clearLatch (n : BitVec 4) (s : State) : State := { s with irptl := s.irptl &&& ~~~bit n }

/-- `raise StackInterrupt` (R251) if `b`. -/
def raiseIf (b : Bool) (s : State) : State := { s with irptl := if b then s.irptl ||| bit s.cfg.stackIrq else s.irptl }

/-- `raise StackInterrupt` (R251). -/
def raiseStackInterrupt (s : State) : State := latch s.cfg.stackIrq s

/-- `ICNTL[10]`, the PC stack interrupt enable (R37). DESIGN CHOICE (log entry 43): a push or pop directly behind a load of `ICNTL` uses
the new bit, the spec states no latency there (R305, N13). -/
def spillFill (s : State) : Bool := s.icntl.getLsbD 10

/-- One event of the environment (R252, R275): lost while interrupts are globally disabled, interrupt 0 excepted; the timer fires
only while `MSTAT[5]` is set. DESIGN CHOICE of the spec (D16; log entry 12); DESIGN CHOICE (log entries 35, 43): the bits are those the
registers hold, fresh or not. -/
def takeEvent (e : EnvEvent) (s : State) : State :=
  match e with
  | .source n => if s.icntl.getLsbD 5 || n = 0 then latch n s else s
  | .timer => if s.mstat.getLsbD 5 && (s.icntl.getLsbD 5 || s.cfg.timerIrq = 0) then latch s.cfg.timerIrq s else s

/-- The events of one step, in order. -/
def takeEventList : List EnvEvent → State → State
  | [], s => s
  | e :: es, s => takeEventList es (takeEvent e s)

/-- The environment's move before a step (R252): the events scheduled for it. -/
def takeEvents (s : State) : State :=
  match s.events with
  | [] => s
  | es :: rest => takeEventList es { s with events := rest }

/-! ### The stacks (R200 to R206) -/

/-- `lvl_clear(PCSTKLVL)` (R200, D8; log entry 24). -/
def lvlClear (s : State) : Bool :=
  match s.cfg.lvlClear with
  | .level => false
  | .sticky => s.pcstklvl
  | .unknown => drawBit .pcLevel s

/-- `PCSTKLVL` after a push or pop that leaves the PC stack at its present depth, and the stack interrupt of spill-fill mode
(R200, R201, R251): `mark` is the water mark of the operation. -/
def levelCheck (mark : Nat) (s : State) : State :=
  let atMark := s.pcstk.length == mark
  raiseIf (atMark && spillFill s) { s with pcstklvl := atMark || lvlClear s }

/-- `PCpush(v)` (R200). On a full stack it overflows (R206): the flag and the stack interrupt are set and the machine goes on with
the stack lost, the continuation R206 allows (DESIGN CHOICE, log entry 13). On a lost stack the level bit and the stack interrupt are free. -/
def pcPush (v : Addr) (s : State) : State :=
  if s.pcLost then raiseIf (drawBit .lostLevel s) { s with pcstklvl := drawBit .pcLevel s }
  else if pcDepth ≤ s.pcstk.length then
    raiseStackInterrupt { s with pcstk := [], pcLost := true, stkoverflow := true, pcstklvl := drawBit .pcLevel s }
  else levelCheck s.cfg.pcHighWater { s with pcstk := v :: s.pcstk }

/-- `PCpop()` by the instruction `i` (R201, R206; log entry 37). -/
def pcPop (i : Instr) (s : State) : Except Fault (Addr × State) :=
  if s.pcLost then .error (.pcStackUnspecified i s.pc)
  else
    match s.pcstk with
    | [] => .error (.pcStackUnderflow i s.pc)
    | v :: rest => .ok (v, levelCheck s.cfg.pcLowWater { s with pcstk := rest })

/-- `LPpush` (R202, R206). Its callers stop on a lost loop stack, as every instruction does that the loop hardware follows (R45). -/
def lpPush (r : LoopRec) (s : State) : State :=
  if s.lpLost then s
  else if lpDepth ≤ s.lpstk.length then raiseStackInterrupt { s with lpstk := [], lpLost := true, stkoverflow := true }
  else { s with lpstk := r :: s.lpstk }

/-- `LPpop()` by the instruction `i` (R203, R206). -/
def lpPop (i : Instr) (s : State) : Except Fault (LoopRec × State) :=
  if s.lpLost then .error (.loopStackUnspecified i s.pc)
  else
    match s.lpstk with
    | [] => .error (.loopStackUnderflow i s.pc)
    | r :: rest => .ok (r, { s with lpstk := rest })

/-- `STSpush` (R204, R206). Whether a push on a lost stack overflows once more is free. -/
def stsPush (e : StatusEntry) (s : State) : State :=
  if s.stsLost then raiseIf (drawBit .lostStatus s) s
  else if stsDepth ≤ s.stsstk.length then raiseStackInterrupt { s with stsstk := [], stsLost := true, stkoverflow := true }
  else { s with stsstk := e :: s.stsstk }

/-- `STSpop()` by the instruction `i` (R205, R206). -/
def stsPop (i : Instr) (s : State) : Except Fault (StatusEntry × State) :=
  if s.stsLost then .error (.statusStackUnspecified i s.pc)
  else
    match s.stsstk with
    | [] => .error (.statusStackUnderflow i s.pc)
    | e :: rest => .ok (e, { s with stsstk := rest })

/-! ### `MSTAT` and its window (R303) -/

/-- A write of `MSTAT` other than by `ENA` or `DIS`: the new value takes effect `MSTAT_POP_LATENCY` instructions later (R303). -/
def writeMstatLate (m : Reg16) (s : State) : State :=
  openLag .mstat s.mstat (max 1 s.cfg.mstatPopLatency) { s with mstat := m }

/-- `MSTAT` as the choice of a register bank sees it (R303, U8): inside a window each bit that changed is either the old or the new
one (log entry 35). -/
def mstatSeen (s : State) : Reg16 :=
  let unsure := (oldsOf .mstat s).foldl (fun u old => u ||| (old ^^^ s.mstat)) 0
  if unsure = 0 then s.mstat else s.mstat ^^^ (unsure &&& draw16 .mstatMode s)

/-- The mode bits of `mask` set to `v` at once, with no latency (R240, R303): no open window keeps an older value of them. -/
def writeModes (mask : Reg16) (v : Bool) (s : State) : State :=
  { s with
    mstat := setBits mask v s.mstat
    lags := s.lags.map (fun g => if g.reg = .mstat then { g with old := setBits mask v g.old } else g) }

/-! ### Interrupt acceptance, entry and return (R254 to R262) -/

/-- `ICNTL` and `IMASK` as an acceptance check sees them (R305, U15). -/
def icntlSeen (s : State) : Reg16 := drawFrom .seenIcntl s s.icntl (oldsOf .icntl s)
def imaskSeen (s : State) : Reg16 := drawFrom .seenImask s s.imask (oldsOf .imask s)

/-- `IRPTL` as an acceptance check sees it (R305, U15). DESIGN CHOICE (log entry 18): the old value is the one from before the load,
without an event latched between the load and the check, on which R305 is silent; such an event is in the new value only. -/
def irptlSeen (s : State) : Reg16 := drawFrom .seenIrptl s s.irptl (oldsOf .irptl s)

/-- `serviceable(n)` (R254): latched, enabled (R253) and not held back by the nesting rule (R257, D18). -/
def serviceable (s : State) (n : BitVec 4) : Bool :=
  (irptlSeen s).getLsbD n.toNat &&
  (n = 0 || ((icntlSeen s).getLsbD 5 && (imaskSeen s).getLsbD n.toNat)) &&
  (match s.insvc with
   | [] => true
   | h :: _ => (icntlSeen s).getLsbD 4 && decide (n < h))

/-- The interrupts, the highest priority first (R256). -/
def irqNumbers : List (BitVec 4) := [0, 1, 2, 3, 4, 5, 6, 7, 8, 9, 10, 11, 12, 13, 14, 15]

/-- The acceptance check (R254 to R256): the interrupt entered at this boundary, if any; none while a delayed branch is pending
(DESIGN CHOICE of the spec, D3; log entry 11). -/
def accepted (s : State) : Option (BitVec 4) :=
  match s.db with
  | some _ => none
  | none => irqNumbers.find? (serviceable s)

/-- `VECTOR(n)` (R258): the chapter gives `VECTOR(14)` (log entry 29). -/
def vector (c : DspConfig) (n : BitVec 4) : Addr := if n = 14 then 0x0001C0 else c.vectors[n.toNat]

/-- TAKING AN INTERRUPT (R260, R261): the address of the next instruction and the status are pushed, the latch bit is cleared, the
interrupt is in service, and the program counter is at the vector. Nothing else changes (DESIGN CHOICE of the spec,
D20; log entry 31). -/
def enterInterrupt (n : BitVec 4) (s : State) : State :=
  let s0 := beginStep s
  let s1 := pcPush s.pc { s0 with power := .running }
  let s2 := clearLatch n (stsPush { astat := s.astat, mstat := s.mstat } s1)
  lagImplicit (sstat s0) { s2 with insvc := n :: s.insvc, pc := vector s.cfg n }

/-- THE RETURN FROM AN INTERRUPT (R191, R262), by the instruction `i`: both stacks are popped, `ASTAT` and `MSTAT` restored, and the service ended of the
interrupt whose routine executes, if any. The address is the return address. -/
def leaveInterrupt (i : Instr) (s : State) : Except Fault (Addr × State) :=
  match pcPop i s with
  | .error f => .error f
  | .ok (t, s1) =>
    match stsPop i s1 with
    | .error f => .error f
    | .ok (e, s2) => .ok (t, writeMstatLate e.mstat { s2 with astat := e.astat, insvc := s2.insvc.tail })

/-! ### The sequencing function (R131 to R134, R151, R152, R156) -/

/-- What a meaning answers: the outcome of a step of this machine. -/
abbrev Result := Host.Outcome State Fault Refusal

/-- The next address in sequence (R21). -/
def advance (n : WordCount) (s : State) : State := { s with pc := s.pc + wordsOf n }

/-- Whether a loop that ends here makes another pass (R152): its decremented count is above 0. For a loop armed with a counter of 0
or 1 the source does not say, and the truth is free (R153, U2; log entry 15). -/
def anotherPass (top : LoopRec) (s : State) : Bool :=
  if top.openCount then drawBit .loopPass s else decide (top.count - 1 ≠ 0)

/-- The loop-end action (R152). -/
def loopEnd (n : WordCount) (top : LoopRec) (rest : List LoopRec) (s : State) : State :=
  if top.forever || anotherPass top s then
    { s with lpstk := { top with count := top.count - 1 } :: rest, pc := top.start }
  else lagImplicit (sstat s) (advance n { s with lpstk := rest })

/-- A two-word instruction at `a` that the active loop end splits off or follows (R156). -/
def twoWordsAtEnd (n : WordCount) (a last : Addr) : Bool := n = .two && (last = a || last = a + 1)

/-- `Seq` (R134): the next instruction after one of `n` words that did not transfer control. In a delay slot by R131, at the active
loop end by R152, elsewhere the next in sequence. -/
def seqNext (n : WordCount) (s : State) : Result :=
  match s.db with
  | some d =>
    match d.remaining, n with
    | .two, .one => .next { s with pc := s.pc + 1, db := some { d with remaining := .one } }
    | .two, .two => .next { s with pc := d.target, db := none }
    | .one, .one => .next { s with pc := d.target, db := none }
    | .one, .two => .refused .twoWordInSecondSlot
  | none =>
    if s.lpLost then .fault (.loopEndUnspecified s.pc)
    else
      match s.lpstk with
      | [] => .next (advance n s)
      | top :: rest =>
        if twoWordsAtEnd n s.pc top.last then .refused .twoWordAtLoopEnd
        else if top.last = s.pc then .next (loopEnd n top rest s)
        else .next (advance n s)

/-- The kinds of branch R156 tells apart. -/
inductive BranchKind
  | jump
  | call
  | ret
  deriving DecidableEq, Repr

/-- The transfer itself: at once (R130), or after the two slots (R131). -/
def transfer (delayed : Bool) (t : Addr) (s : State) : State :=
  if delayed then { s with db := some { remaining := .two, target := t }, pc := s.pc + 1 } else { s with pc := t }

/-- `Br(t, immediate)` or `Br(t, delayed)` (R134) by an instruction of `n` words, with the loop-end cases of R156
(D17) and the rule of R157 that no call stands in the last line of a loop, the active one or another (log entry 23). -/
def branchTo (k : BranchKind) (n : WordCount) (delayed : Bool) (t : Addr) (s : State) : Result :=
  match s.db with
  | some _ => .refused .branchInDelaySlot
  | none =>
    if s.lpLost then .fault (.loopEndUnspecified s.pc)
    else if k = .call && endsLoop s.pc s then .refused .branchAtLoopEnd
    else
      match s.lpstk with
      | [] => .next (transfer delayed t s)
      | top :: _ =>
        if delayed && (top.last = s.pc || top.last = s.pc + 1 || top.last = s.pc + 2) then .refused .delayedBranchAtLoopEnd
        else if twoWordsAtEnd n s.pc top.last then .refused .twoWordAtLoopEnd
        else if top.last = s.pc then
          if k = .jump && top.forever then .next (transfer delayed t s) else .refused .branchAtLoopEnd
        else .next (transfer delayed t s)

end Sys2Proof.Machine
end

