-- ==== Sys2Proof/Machine/Operands.lean ====
section
/-! DEFINITION. Conditions (`40_conditions_and_branch_options.md` R120 to R125), branch targets (R140 to R144), and the registers
that other chapters' instructions read and write (`10_state.md` R23 to R39, `70_reset_and_hazards.md` R300 to R305). -/

namespace Sys2Proof.Machine

/-! ### Conditions -/

/-- The status source a value of `CCODE` selects (R123). -/
def statusSource (v : Reg16) : StatusSource :=
  if v = 0x08 then .aluSaturated else if v = 0x09 then .shifterOverflowed else .dspSpecific v

/-- `CCODE_seen` (R122, R300): the instruction right after a write sees the value before it. -/
def ccodeSeen (s : State) : Reg16 :=
  match oldsOf .ccode s with
  | [] => s.ccode
  | old :: _ => old

/-- `sw_status(CCODE_seen)` (R123): free at every test (log entry 26). -/
def swStatus (s : State) : Bool := Config.statusTrue (statusSource (ccodeSeen s)) s.tick

/-- The counter `IF NOT CE` tests and decrements (R124, R301, U29). -/
def cntrTested (s : State) : Reg16 := drawFrom .cntrTest s s.cntr (oldsOf .cntrTest s)

/-- The counter `DO UNTIL` and `PUSH LOOP` push (R150, R211, R301). -/
def cntrPushed (s : State) : Reg16 := drawFrom .cntrPush s s.cntr (oldsOf .cntrPush s)

/-- `cond(NOT_CE)` (R122, R124; the order is D5, log entry 33): true iff the counter is above 1, and the counter is decremented either way; `DO UNTIL` and
`PUSH LOOP` may see the older counter for two instructions (R301). With a counter of 0 both values are free (U2; log entry 16). -/
def testCounter (s : State) : Bool × State :=
  let v := cntrTested s
  if v = 0 then
    (drawBit .cntrZeroTruth s, openLag .cntrPush s.cntr 2 { s with cntr := draw16 .cntrZeroValue s })
  else (decide (1 < v), openLag .cntrPush s.cntr 2 { s with cntr := v - 1 })

/-- `cond(c)` (R122): the truth of the condition, and the state its evaluation leaves. The arithmetic conditions are open (R125; log
entry 27). DESIGN CHOICE (log entry 42): they see a fresh write of `ASTAT` at once, the spec states no latency there (R30, N13). -/
def evalCond (c : Cond) (s : State) : Bool × State :=
  match c with
  | .always => (true, s)
  | .notCe => testCounter s
  | .swcond => (swStatus s, s)
  | .notSwcond => (!swStatus s, s)
  | .eq => (Config.arithCond .eq s.astat, s)
  | .ne => (Config.arithCond .ne s.astat, s)
  | .gt => (Config.arithCond .gt s.astat, s)
  | .le => (Config.arithCond .le s.astat, s)
  | .lt => (Config.arithCond .lt s.astat, s)
  | .ge => (Config.arithCond .ge s.astat, s)
  | .av => (Config.arithCond .av s.astat, s)
  | .notAv => (Config.arithCond .notAv s.astat, s)
  | .ac => (Config.arithCond .ac s.astat, s)
  | .notAc => (Config.arithCond .notAc s.astat, s)
  | .mv => (Config.arithCond .mv s.astat, s)
  | .notMv => (Config.arithCond .notMv s.astat, s)

/-- `if cond(COND) then … else Seq` (R120) for an instruction of `n` words: a branch that is not taken executes as `NOP`, a delayed
one too (R132). -/
def ifCond (c : Cond) (n : WordCount) (s : State) (taken : State → Result) : Result :=
  let r := evalCond c s
  if r.1 then taken r.2 else seqNext n r.2

/-! ### Branch targets -/

/-- PC relative, from `Imm13` (R95, R140). -/
def target13 (pc : Addr) (imm : BitVec 13) : Addr := pc + imm.signExtend 24

/-- PC relative, from `Imm16` (R96, R140). -/
def target16 (pc : Addr) (imm : BitVec 16) : Addr := pc + imm.signExtend 24

/-- A page above a 16-bit address (R28, R71, R142). -/
def pageAddr (page : BitVec 8) (low : Reg16) : Addr := page ++ low

/-- The page of an address (R144, splitting). -/
def pageOf (a : Addr) : BitVec 8 := a.extractLsb' 16 8

/-- The low sixteen bits of an address (R144, splitting). -/
def lowOf (a : Addr) : Reg16 := a.extractLsb' 0 16

/-- The secondary DAG bank is active: `MSTAT[6]` (R23, R31), inside the window of R303 either way. -/
def secondaryDag (s : State) : Bool := (mstatSeen s).getLsbD 6

/-- The secondary data bank is active: `MSTAT[0]` (R25, R31). -/
def secondaryData (s : State) : Bool := (mstatSeen s).getLsbD 0

/-- The active DAG bank. -/
def dagBank (s : State) : DagRegs := if secondaryDag s then s.dagSec else s.dagPri

/-- `I[n]` of the active bank (R11, R23). -/
def iregOf (s : State) (n : BitVec 3) : Reg16 := (dagBank s).i[n.toNat]

/-- The target of an indirect jump (R142, R143): a fresh `Ireg` or `IJPG` is seen at once. -/
def indirectTarget (s : State) (n : BitVec 3) : Addr := pageAddr s.ijpg (iregOf s n)

/-- The target of an indirect call (R142, R143, R304, U16): right after a load of the `Ireg` or of `IJPG` each is the old or the new
value (log entry 40). -/
def indirectCallTarget (s : State) (n : BitVec 3) : Addr :=
  pageAddr ((drawFrom .callIjpg s (s.ijpg.setWidth 16) (oldsOf .ijpg s)).setWidth 8)
    (drawFrom .callIreg s (iregOf s n) (oldsOf (.ireg (secondaryDag s) n) s))

/-- The return address a call of `n` words pushes (R173). -/
def returnAddress (pc : Addr) (n : WordCount) (delayed : Bool) : Addr :=
  if delayed then pc + 3 else pc + wordsOf n

/-! ### The registers of a move or load -/

/-- What a move reads (R23 to R39); a read of `SSTAT` is subject to R302. DESIGN CHOICE (log entry 7): a move from the 8-bit `STACKP`
or `IJPG` gives zeros in bits 15:8, on which the spec is silent (R24, R28). DESIGN CHOICE (log entry 44): of every register but
`SSTAT` a move gets the value itself, `CCODE` directly behind a write of it too: R27 and R300 state the latency for the software
conditions, and of a move the spec is silent. -/
def readReg (r : MoveReg) (s : State) : Reg16 :=
  let d := if secondaryData s then s.dataSec else s.dataPri
  match r with
  | .i n => iregOf s n
  | .m n => (dagBank s).m[n.toNat]
  | .l n => (dagBank s).l[n.toNat]
  | .ijpg => s.ijpg.setWidth 16
  | .iopg => s.iopg
  | .cntr => s.cntr
  | .ccode => s.ccode
  | .stacka => s.stacka
  | .stackp => s.stackp.setWidth 16
  | .lpstacka => s.lpstacka
  | .lpstackp => s.lpstackp
  | .astat => s.astat
  | .mstat => s.mstat
  | .sstat => sstatSeen s
  | .icntl => s.icntl
  | .imask => s.imask
  | .irptl => s.irptl
  | .ax0 => d.ax0
  | .ax1 => d.ax1
  | .ay0 => d.ay0
  | .ay1 => d.ay1
  | .ar => d.ar
  | .af => d.af
  | .mx0 => d.mx0
  | .my0 => d.my0
  | .si => d.si
  | .se => d.se
  | .mr0 => d.mr.extractLsb' 0 16
  | .mr1 => d.mr.extractLsb' 16 16
  | .sr0 => d.sr.extractLsb' 0 16

/-- What reading a register leaves: a read of `SSTAT` clears a sticky level bit (D8), every other read nothing
(log entry 24). -/
def afterRead (r : MoveReg) (s : State) : State :=
  match r with
  | .sstat => if s.cfg.lvlClear = .sticky then { s with pcstklvl := false } else s
  | _ => s

/-- Changes the active DAG bank. -/
def onDag (f : DagRegs → DagRegs) (s : State) : State :=
  if secondaryDag s then { s with dagSec := f s.dagSec } else { s with dagPri := f s.dagPri }

/-- Changes the active data bank. -/
def onData (f : DataRegs → DataRegs) (s : State) : State :=
  if secondaryData s then { s with dataSec := f s.dataSec } else { s with dataPri := f s.dataPri }

/-- A load of `ICNTL` (R37): setting bit 10 while `PCSTKLVL` is 1 raises the stack interrupt at once (R251, U22;
log entry 25). -/
def loadIcntl (v : Reg16) (s : State) : State :=
  let s' := openLag .icntl s.icntl 0 { s with icntl := v }
  if v.getLsbD 10 && s.pcstklvl then raiseStackInterrupt s' else s'

/-- A register load, with its effect latency (R300, R301, R303 to R305). Points on which the spec is silent and the model chooses: a
load of `MR0`, `MR1` or `SR0` leaves the other bits of `MR` or `SR` (DESIGN CHOICE, log entry 9), a load of `STACKA`, `STACKP`,
`LPSTACKA` or `LPSTACKP` has no latency, a `PUSH` directly behind it takes the new value (DESIGN CHOICE, log entry 41), a load of `ASTAT` has none
before a condition (DESIGN CHOICE, log entry 42), and one of `ICNTL` none but before an acceptance check (DESIGN CHOICE, log entry
43). -/
def writeReg (r : MoveReg) (v : Reg16) (s : State) : State :=
  match r with
  | .i n => openLag (.ireg (secondaryDag s) n) (iregOf s n) 1 (onDag (fun d => { d with i := d.i.set n.toNat v }) s)
  | .m n => onDag (fun d => { d with m := d.m.set n.toNat v }) s
  | .l n => onDag (fun d => { d with l := d.l.set n.toNat v }) s
  | .ijpg => openLag .ijpg (s.ijpg.setWidth 16) 1 { s with ijpg := v.setWidth 8 }
  | .iopg => { s with iopg := v }
  | .cntr => openLag .cntrPush s.cntr 2 (openLag .cntrTest s.cntr 1 { s with cntr := v })
  | .ccode => openLag .ccode s.ccode 1 { s with ccode := v }
  | .stacka => { s with stacka := v }
  | .stackp => { s with stackp := v.setWidth 8 }
  | .lpstacka => { s with lpstacka := v }
  | .lpstackp => { s with lpstackp := v }
  | .astat => { s with astat := v }
  | .mstat => writeMstatLate v s
  | .sstat => s
  | .icntl => loadIcntl v s
  | .imask => openLag .imask s.imask 0 { s with imask := v }
  | .irptl => openLag .irptl s.irptl 0 { s with irptl := v }
  | .ax0 => onData (fun d => { d with ax0 := v }) s
  | .ax1 => onData (fun d => { d with ax1 := v }) s
  | .ay0 => onData (fun d => { d with ay0 := v }) s
  | .ay1 => onData (fun d => { d with ay1 := v }) s
  | .ar => onData (fun d => { d with ar := v }) s
  | .af => onData (fun d => { d with af := v }) s
  | .mx0 => onData (fun d => { d with mx0 := v }) s
  | .my0 => onData (fun d => { d with my0 := v }) s
  | .si => onData (fun d => { d with si := v }) s
  | .se => onData (fun d => { d with se := v }) s
  | .mr0 => onData (fun d => { d with mr := d.mr.extractLsb' 16 24 ++ v }) s
  | .mr1 => onData (fun d => { d with mr := d.mr.extractLsb' 32 8 ++ v ++ d.mr.extractLsb' 0 16 }) s
  | .sr0 => onData (fun d => { d with sr := d.sr.extractLsb' 16 24 ++ v }) s

end Sys2Proof.Machine
end

