-- ==== Sys2Proof/Machine/Stacks.lean ====
section
/-! DEFINITION. `PUSH` and `POP` (`44_stack_ops.md` R207 to R216). -/

namespace Sys2Proof.Machine

/-- The address `STACKP[7:0] ++ STACKA` (R28, R208). -/
def stackAddr (s : State) : Addr := pageAddr s.stackp s.stacka

/-- The address `LPSTACKP[7:0] ++ LPSTACKA` (R29, R211). -/
def lpstackAddr (s : State) : Addr := pageAddr (s.lpstackp.setWidth 8) s.lpstacka

/-- `LPSTACKP[14:8]`, which "should always be zero" (R29, U7; log entry 36). -/
def lpstackpReserved (s : State) : BitVec 7 := s.lpstackp.extractLsb' 8 7

/-- The record `PUSH LOOP` pushes (R211). -/
def loopOfRegs (s : State) : LoopRec where
  start := stackAddr s
  last := lpstackAddr s
  forever := s.lpstackp.getLsbD 15
  count := cntrPushed s
  openCount := false

/-- The entry `PUSH STS` pushes (R212). -/
def statusOfRegs (s : State) : StatusEntry := { astat := s.astat, mstat := s.mstat }

/-- What `POP STS` does with the entry (R213); the modes take effect late (R303). -/
def loadStatus (e : StatusEntry) (s : State) : State := writeMstatLate e.mstat { s with astat := e.astat }

/-- What `POP PC` does with the address (R209). -/
def loadStackRegs (a : Addr) (s : State) : State := { s with stacka := lowOf a, stackp := pageOf a }

/-- What `POP LOOP` does with the loop end and the counter (R210); the next `DO UNTIL` or `PUSH LOOP` may see the older counter
(R301). DESIGN CHOICE (log entry 34): an `IF NOT CE` tests the popped count at once, the spec states no latency of `POP LOOP` there
(N13). -/
def loadLoopEnd (r : LoopRec) (s : State) : State :=
  openLag .cntrPush s.cntr 1
    { s with
      lpstacka := lowOf r.last
      lpstackp := BitVec.ofBool r.forever ++ 0#7 ++ pageOf r.last
      cntr := r.count }

/-- The instruction after `PUSH LOOP` (R134). When the push overflowed, the loop hardware has no defined record to compare with, and
the next address is the next in sequence, as after `DO UNTIL` (log entry 13). -/
def seqAfterLoopPush (s : State) : Result :=
  if s.lpLost && s.db.isNone then .next (advance .one s) else seqNext .one s

/-- `PUSH PC` (R208), `PUSH PC, PUSH STS` (R214). The pair with `PUSH LOOP` is ill-formed; its described result (R215) is both
pushes (log entry 21). DESIGN CHOICE (log entry 39): the flags of the second stack, which R302 makes old at distance 1 by the `PC`
part and new by the other, are read as either. -/
def execPushPc (partner : PcPartner) (s : State) : Result :=
  match partner with
  | .alone => seqNext .one (lagAllBits 0 (sstat s) (pcPush (stackAddr s) s))
  | .sts => seqNext .one (lagAllBits statusBits (sstat s) (stsPush (statusOfRegs s) (pcPush (stackAddr s) s)))
  | .loop =>
    if lpstackpReserved s ≠ 0 then .refused .lpstackpReservedBits
    else if s.lpLost then .fault (.loopEndUnspecified s.pc)
    else seqAfterLoopPush (lagAllBits loopBits (sstat s) (lpPush (loopOfRegs s) (pcPush (stackAddr s) s)))

/-- `POP PC` (R209), `POP PC, POP STS` (R214). The pair with `POP LOOP` is ill-formed; in its described result (R215) `STACKA` and
`STACKP` receive the PC stack's value. DESIGN CHOICE (log entry 39): the flags of the second stack are read as by `PUSH PC` in a
pair. -/
def execPopPc (partner : PcPartner) (s : State) : Result :=
  match pcPop (.popPc partner) s with
  | .error f => .fault f
  | .ok (a, s1) =>
    match partner with
    | .alone => seqNext .one (lagAllBits 0 (sstat s) (loadStackRegs a s1))
    | .sts =>
      match stsPop (.popPc .sts) s1 with
      | .error f => .fault f
      | .ok (e, s2) => seqNext .one (lagAllBits statusBits (sstat s) (loadStatus e (loadStackRegs a s2)))
    | .loop =>
      match lpPop (.popPc .loop) s1 with
      | .error f => .fault f
      | .ok (r, s2) => seqNext .one (lagAllBits loopBits (sstat s) (loadLoopEnd r (loadStackRegs a s2)))

/-- `PUSH LOOP` (R211), `PUSH LOOP, PUSH STS` (R214). -/
def execPushLoop (sts : Bool) (s : State) : Result :=
  if lpstackpReserved s ≠ 0 then .refused .lpstackpReservedBits
  else if s.lpLost then .fault (.loopEndUnspecified s.pc)
  else
    let s1 := lpPush (loopOfRegs s) s
    let s2 := if sts then stsPush (statusOfRegs s) s1 else s1
    seqAfterLoopPush (lagOverflowBit (sstat s) s2)

/-- `POP LOOP` (R210), `POP LOOP, POP STS` (R214). -/
def execPopLoop (sts : Bool) (s : State) : Result :=
  match lpPop (.popLoop sts) s with
  | .error f => .fault f
  | .ok (r, s1) =>
    let s2 := loadLoopEnd r (loadStackRegs r.start s1)
    if sts then
      match stsPop (.popLoop true) s2 with
      | .error f => .fault f
      | .ok (e, s3) => seqNext .one (lagOverflowBit (sstat s) (loadStatus e s3))
    else seqNext .one (lagOverflowBit (sstat s) s2)

/-- `PUSH STS` (R212). -/
def execPushSts (s : State) : Result :=
  seqNext .one (lagOverflowBit (sstat s) (stsPush (statusOfRegs s) s))

/-- `POP STS` (R213). -/
def execPopSts (s : State) : Result :=
  match stsPop .popSts s with
  | .error f => .fault f
  | .ok (e, s1) => seqNext .one (lagOverflowBit (sstat s) (loadStatus e s1))

end Sys2Proof.Machine
end

