-- ==== Sys2Proof/Machine/Admission.lean ====
section
/-! DEFINITION. What the chapter forbids a program to hold, checked where an instruction stands (`30_encoding.md` R110, R111,
`40_conditions_and_branch_options.md` R133, `41_loops.md` R157, `44_stack_ops.md` R217). The source does not say what the hardware
does on a violation, and the spec's treatment is `refuse` (log entry 23). -/

namespace Sys2Proof.Machine

/-- What may not stand in a delay slot (R133): branches, `DO UNTIL`, `PUSH`/`POP`, `FLUSH CACHE`, and by D3 `IDLE` and `SETINT`. -/
def barredInSlot : Instr → Bool
  | .doUntil _ _ => true
  | .jumpRel13 _ _ _ => true
  | .callRel16 _ _ => true
  | .jumpRel16 _ _ => true
  | .lcall _ _ => true
  | .ljump _ _ => true
  | .callInd _ _ _ => true
  | .jumpInd _ _ _ => true
  | .rti _ _ _ => true
  | .rts _ _ => true
  | .pushPc _ => true
  | .popPc _ => true
  | .pushLoop _ => true
  | .popLoop _ => true
  | .pushSts => true
  | .popSts => true
  | .flushCache => true
  | .setint _ => true
  | .clrint _ => false
  | .nop => false
  | .idle => true
  | .idleDiv _ => true
  | .ena _ => false
  | .dis _ => false

/-- `PUSH` or `POP` in any form (R207). -/
def isStackOp : Instr → Bool
  | .pushPc _ => true
  | .popPc _ => true
  | .pushLoop _ => true
  | .popLoop _ => true
  | .pushSts => true
  | .popSts => true
  | .doUntil _ _ => false
  | .jumpRel13 _ _ _ => false
  | .callRel16 _ _ => false
  | .jumpRel16 _ _ => false
  | .lcall _ _ => false
  | .ljump _ _ => false
  | .callInd _ _ _ => false
  | .jumpInd _ _ _ => false
  | .rti _ _ _ => false
  | .rts _ _ => false
  | .flushCache => false
  | .setint _ => false
  | .clrint _ => false
  | .nop => false
  | .idle => false
  | .idleDiv _ => false
  | .ena _ => false
  | .dis _ => false

/-- The address is one of the two positions behind a delayed branch of the program text, taken or not (R132). -/
def behindBranch (a : Addr) (s : State) : Bool := (branchPlaces s).contains (a - 1) || (branchPlaces s).contains (a - 2)

/-- The next instruction stands in a delay slot: of a taken branch (R131), or by the program text (R132). -/
def inSlot (s : State) : Bool := s.db.isSome || behindBranch s.pc s

/-- `last` is the address of one of the next `k` instructions from `a` on (R157: a line of a loop is one instruction). -/
def reaches (c : Coding) (m : Memory) : Nat → Addr → Addr → Bool
  | 0, _, _ => false
  | k + 1, a, last =>
    if a = last then true
    else
      match m.readWord a with
      | none => false
      | some w => reaches c m k (a + wordsOf (lengthBy c w)) last

/-- The start and the end of the loop an instruction would arm (R150, R161). -/
def armsLoop (i : Instr) (s : State) : Option (Addr × Addr) :=
  match i with
  | .doUntil imm _ => some (s.pc + 1, loopLast s.pc imm)
  | .pushLoop _ => some (stackAddr s, lpstackAddr s)
  | .jumpRel13 _ _ _ => none
  | .callRel16 _ _ => none
  | .jumpRel16 _ _ => none
  | .lcall _ _ => none
  | .ljump _ _ => none
  | .callInd _ _ _ => none
  | .jumpInd _ _ _ => none
  | .rti _ _ _ => none
  | .rts _ _ => none
  | .pushPc _ => none
  | .popPc _ => none
  | .popLoop _ => none
  | .pushSts => none
  | .popSts => none
  | .flushCache => none
  | .setint _ => none
  | .clrint _ => none
  | .nop => none
  | .idle => none
  | .idleDiv _ => none
  | .ena _ => none
  | .dis _ => none

/-- The address is among the last seven lines of the loop from `l.1` to `l.2` (R157). -/
def amongLastLines (l : Addr × Addr) (a : Addr) (s : State) : Bool :=
  within l.1 l.2 a && reaches s.cfg.coding s.mem 7 a l.2

/-- The address is among the last seven lines of a loop of the program text. -/
def nearTextLoopEnd (a : Addr) (s : State) : Bool := (textLoops s).any (fun l => amongLastLines (l.site + 1, l.last) a s)

/-- The instruction at the program counter is among the last seven lines of a loop (R157, R160, R217): of one on the loop stacks, of one
of the program text, or of the one the instruction arms. -/
def nearLoopEnd (i : Instr) (s : State) : Bool :=
  nearTextLoopEnd s.pc s ||
    (s.lpstk.map (fun r => (r.start, r.last)) ++ (armsLoop i s).toList).any (fun l => amongLastLines l s.pc s)

/-- The instruction at `a` is the `DO UNTIL` of a loop that ends where another loop of the program text ends (R157). -/
def sharesTextEnd (i : Instr) (a : Addr) (s : State) : Bool :=
  (loopSiteOf i a).any (fun l => (textLoops s).any (fun q => q.site ≠ a && q.last = l.last))

/-- Two loops would end on one instruction (R157): two active ones, or two of the program text. -/
def sharesLoopEnd (i : Instr) (s : State) : Bool :=
  sharesTextEnd i s.pc s ||
    match armsLoop i s with
    | none => false
    | some l => s.lpstk.any (fun r => r.last = l.2)

/-- What the execution of `f` at the program counter shows of the program text (R111): the address is that of a delayed branch, of a
`DO UNTIL`, of a `POP LOOP`, or of none of them. -/
def noteText (f : Fetched) (s : State) : State :=
  let s' := forgetText s.pc s
  match f with
  | .other _ => s'
  | .core i =>
    { s' with
      slotSites := if isDelayedBranch i then s.pc :: s'.slotSites else s'.slotSites
      loopSites := loopSiteOf i s.pc ++ s'.loopSites
      popSites := if isPopLoop i then s.pc :: s'.popSites else s'.popSites }

/-- Why the instruction may not execute where it stands, or nothing. -/
def admission (i : Instr) (s : State) : Option Refusal :=
  match i.problem with
  | some p => some (.illFormed p)
  | none =>
    if inSlot s && barredInSlot i then some .barredInDelaySlot
    else if isStackOp i && nearLoopEnd i s then some .stackOpNearLoopEnd
    else if sharesLoopEnd i s then some .sharedLoopEnd
    else none

/-! ### The check over a program (R111) -/

/-- `CALL` or `LCALL` (R157). -/
def isCall : Instr → Bool
  | .doUntil _ _ => false
  | .jumpRel13 _ _ _ => false
  | .callRel16 _ _ => true
  | .jumpRel16 _ _ => false
  | .lcall _ _ => true
  | .ljump _ _ => false
  | .callInd _ _ _ => true
  | .jumpInd _ _ _ => false
  | .rti _ _ _ => false
  | .rts _ _ => false
  | .pushPc _ => false
  | .popPc _ => false
  | .pushLoop _ => false
  | .popLoop _ => false
  | .pushSts => false
  | .popSts => false
  | .flushCache => false
  | .setint _ => false
  | .clrint _ => false
  | .nop => false
  | .idle => false
  | .idleDiv _ => false
  | .ena _ => false
  | .dis _ => false

/-- `RTS` or `RTI` (R157). -/
def isReturn : Instr → Bool
  | .doUntil _ _ => false
  | .jumpRel13 _ _ _ => false
  | .callRel16 _ _ => false
  | .jumpRel16 _ _ => false
  | .lcall _ _ => false
  | .ljump _ _ => false
  | .callInd _ _ _ => false
  | .jumpInd _ _ _ => false
  | .rti _ _ _ => true
  | .rts _ _ => true
  | .pushPc _ => false
  | .popPc _ => false
  | .pushLoop _ => false
  | .popLoop _ => false
  | .pushSts => false
  | .popSts => false
  | .flushCache => false
  | .setint _ => false
  | .clrint _ => false
  | .nop => false
  | .idle => false
  | .idleDiv _ => false
  | .ena _ => false
  | .dis _ => false

/-- What is wrong with the instruction `f` at `a` by the program text alone (R110, R132, R133, R157): whatever the machine does, and
whether the branch or the `DO UNTIL` concerned has executed or not. -/
def placeProblem (f : Fetched) (a : Addr) (s : State) : Option Refusal :=
  match f with
  | .other .one => none
  | .other .two => if (branchPlaces s).contains (a - 2) then some .twoWordInSecondSlot else none
  | .core i =>
    match i.problem with
    | some p => some (.illFormed p)
    | none =>
      if behindBranch a s && barredInSlot i then some .barredInDelaySlot
      else if isStackOp i && nearTextLoopEnd a s then some .stackOpNearLoopEnd
      else if sharesTextEnd i a s then some .sharedLoopEnd
      else if isCall i && endsTextLoop a s then some .branchAtLoopEnd
      else if isReturn i && insideTextLoop a s then some .returnInsideLoop
      else none

/-- The well-formedness check over the program (R111): the first of its instructions that stands where it may not. The step refuses that
instruction when it comes to it, a call or a return when it is taken: one that is not taken is a `NOP` (R120, D17; log entry 23). -/
def programProblem (s : State) : Option (Addr × Refusal) :=
  s.text.findSome? fun a =>
    match instrAt s.cfg.coding s.mem a with
    | none => none
    | some f => (placeProblem f a s).map fun r => (a, r)

end Sys2Proof.Machine
end

