-- ==== Sys2Proof/Machine/Branches.lean ====
section
/-! DEFINITION. Jumps and calls (`42_jumps_and_calls.md` R170 to R177). -/

namespace Sys2Proof.Machine

/-- The push of a call of `n` words (R173), and the window it opens on `SSTAT` (U11). -/
def callPush (n : WordCount) (delayed : Bool) (s : State) : State :=
  lagImplicit (sstat s) (pcPush (returnAddress s.pc n delayed) s)

/-- `[IF COND] JUMP <Imm13> [(DB)]` (R170). -/
def execJumpRel13 (c : Cond) (imm13 : BitVec 13) (db : Bool) (s : State) : Result :=
  ifCond c .one s fun t => branchTo .jump .one db (target13 t.pc imm13) t

/-- `CALL <Imm16> [(DB)]` (R171). -/
def execCallRel16 (imm16 : BitVec 16) (db : Bool) (s : State) : Result :=
  branchTo .call .one db (target16 s.pc imm16) (callPush .one db s)

/-- `JUMP <Imm16> [(DB)]` (R172). -/
def execJumpRel16 (imm16 : BitVec 16) (db : Bool) (s : State) : Result :=
  branchTo .jump .one db (target16 s.pc imm16) s

/-- `[IF COND] LCALL <Imm24>` (R174). -/
def execLcall (c : Cond) (addr : Addr) (s : State) : Result :=
  ifCond c .two s fun t => branchTo .call .two false addr (callPush .two false t)

/-- `[IF COND] LJUMP <Imm24>` (R175). -/
def execLjump (c : Cond) (addr : Addr) (s : State) : Result :=
  ifCond c .two s fun t => branchTo .jump .two false addr t

/-- `[IF COND] CALL (<Ireg>) [(DB)]` (R176). -/
def execCallInd (c : Cond) (ireg : BitVec 3) (db : Bool) (s : State) : Result :=
  ifCond c .one s fun t => branchTo .call .one db (indirectCallTarget t ireg) (callPush .one db t)

/-- `[IF COND] JUMP (<Ireg>) [(DB)]` (R177). -/
def execJumpInd (c : Cond) (ireg : BitVec 3) (db : Bool) (s : State) : Result :=
  ifCond c .one s fun t => branchTo .jump .one db (indirectTarget t ireg) t

end Sys2Proof.Machine
end

