-- ==== Sys2Proof/Machine/Control.lean ====
section
/-! DEFINITION. `FLUSH CACHE`, `SETINT`, `CLRINT`, `NOP`, `IDLE`, `ENA`, `DIS` (`45_cache_interrupt_idle_mode.md` R220 to R241). -/

namespace Sys2Proof.Machine

/-- How many instructions after `FLUSH CACHE` may still be fetched from the old contents: "up to six cycles" (R220, R305), an
instruction taking at least one. DESIGN CHOICE (log entry 19). -/
def flushWindow : Nat := 6

/-- A stale word that a flush has reached. -/
def flushLine (c : CacheLine) : CacheLine :=
  match c.left with
  | none => { c with left := some flushWindow }
  | some n => { c with left := some (min n flushWindow) }

/-- The `MSTAT` bits of a mode set (R31, R240). -/
def modeMask (m : ModeSet) : Reg16 := (modeBits { m with int := false }).setWidth 16

/-- `ICNTL[5]`, the global interrupt enable (R37). -/
def globalEnableBit : Reg16 := 0x0020

/-- `ENA` (`v` true) and `DIS` (`v` false) of a set of modes (R240, R241). -/
def setModes (m : ModeSet) (v : Bool) (s : State) : State :=
  let s' := writeModes (modeMask m) v s
  if m.int then { s' with icntl := setBits globalEnableBit v s'.icntl } else s'

/-- `FLUSH CACHE` (R220). -/
def execFlushCache (s : State) : Result := seqNext .one { s with icache := s.icache.map flushLine }

/-- `SETINT n` (R221). -/
def execSetint (n : BitVec 4) (s : State) : Result := seqNext .one (latch n s)

/-- `CLRINT n` (R222). -/
def execClrint (n : BitVec 4) (s : State) : Result := seqNext .one (clearLatch n s)

/-- `NOP` (R223). -/
def execNop (s : State) : Result := seqNext .one s

/-- `IDLE` (R230); with the sleep bits programmed, on a DSP that has it, sleep mode (R232; log entry 22). -/
def execIdle (s : State) : Result :=
  seqNext .one { s with power := if s.cfg.hasSleep && s.sleepArmed then .sleep else .idle }

/-- `IDLE (<imm4>)` (R231, R9). -/
def execIdleDiv (imm4 : BitVec 4) (s : State) : Result :=
  if s.cfg.hasSlowIdle then seqNext .one { s with power := .slowIdle imm4 } else .refused .noSlowIdle

/-- `ENA <mode>, ...` (R240, R241). -/
def execEna (m : ModeSet) (s : State) : Result := seqNext .one (setModes m true s)

/-- `DIS <mode>, ...` (R240, R241). -/
def execDis (m : ModeSet) (s : State) : Result := seqNext .one (setModes m false s)

end Sys2Proof.Machine
end

