-- ==== Sys2Proof/Machine/Loops.lean ====
section
/-! DEFINITION. `DO UNTIL` (`41_loops.md` R150). The loop hardware it arms is in `Ops.lean` (R151, R152). -/

namespace Sys2Proof.Machine

/-- The record `DO UNTIL` at `s.pc` arms (R150). A finite loop with a counter of 0 or 1 is marked (U2). -/
def armedLoop (imm12 : BitVec 12) (term : Term) (s : State) : LoopRec where
  start := s.pc + 1
  last := loopLast s.pc imm12
  forever := decide (term = .forever)
  count := cntrPushed s
  openCount := decide (term = .ce) && decide (cntrPushed s ≤ 1)

/-- `DO <Imm12> [UNTIL <Term>]` (R150): pushes the loop and goes on at `pc + 1`, which is inside it. -/
def execDoUntil (imm12 : BitVec 12) (term : Term) (s : State) : Result :=
  if imm12 = 0 then .refused (.illFormed .loopOffsetZero)
  else if s.db.isSome then .refused .barredInDelaySlot
  else if s.lpLost then .fault (.loopEndUnspecified s.pc)
  else .next (lagImplicit (sstat s) (advance .one (lpPush (armedLoop imm12 term s) s)))

end Sys2Proof.Machine
end

