-- ==== Sys2Proof/Machine/Returns.lean ====
section
/-! DEFINITION. Returns (`43_returns.md` R190 to R193). -/

namespace Sys2Proof.Machine

/-- The taken return: to the address `pop` yields, in the state it leaves. Not inside a loop that is on the loop stacks, nor
inside one of the program text without stack maintenance (R157; log entry 23). -/
def returnBy (pop : State → Except Fault (Addr × State)) (db : Bool) (s : State) : Result :=
  if insideLoop s.pc s then .refused .returnInsideLoop
  else
    match pop s with
    | .error f => .fault f
    | .ok (t, s1) => branchTo .ret .one db t (lagImplicit (sstat s) s1)

/-- `[IF COND] RTI [(DB)] [(SS)]` (R191). Outside emulation `(SS)` has no effect of its own, the alternative D14 gives; under an
emulator the interrupt it makes is not in the source (R193, N14). PRESUMED (log entry 14). -/
def execRti (c : Cond) (db : Bool) (ss : Bool) (s : State) : Result :=
  ifCond c .one s fun t =>
    if ss && t.cfg.emulation then .refused .emulatorSingleStep else returnBy (leaveInterrupt (.rti c db ss)) db t

/-- `[IF COND] RTS [(DB)]` (R190). -/
def execRts (c : Cond) (db : Bool) (s : State) : Result :=
  ifCond c .one s fun t => returnBy (pcPop (.rts c db)) db t

end Sys2Proof.Machine
end

