-- ==== Sys2Proof/Machine/Dispatch.lean ====
section
/-! DEFINITION. The meaning of every instruction, one arm for each constructor of `Instr`. -/

namespace Sys2Proof.Machine

def exec (i : Instr) (s : State) : Host.Outcome State Fault Refusal :=
  match i with
  | .doUntil imm12 term => Sys2Proof.Machine.execDoUntil imm12 term s
  | .jumpRel13 c imm13 db => Sys2Proof.Machine.execJumpRel13 c imm13 db s
  | .callRel16 imm16 db => Sys2Proof.Machine.execCallRel16 imm16 db s
  | .jumpRel16 imm16 db => Sys2Proof.Machine.execJumpRel16 imm16 db s
  | .lcall c addr => Sys2Proof.Machine.execLcall c addr s
  | .ljump c addr => Sys2Proof.Machine.execLjump c addr s
  | .callInd c ireg db => Sys2Proof.Machine.execCallInd c ireg db s
  | .jumpInd c ireg db => Sys2Proof.Machine.execJumpInd c ireg db s
  | .rti c db ss => Sys2Proof.Machine.execRti c db ss s
  | .rts c db => Sys2Proof.Machine.execRts c db s
  | .pushPc partner => Sys2Proof.Machine.execPushPc partner s
  | .popPc partner => Sys2Proof.Machine.execPopPc partner s
  | .pushLoop sts => Sys2Proof.Machine.execPushLoop sts s
  | .popLoop sts => Sys2Proof.Machine.execPopLoop sts s
  | .pushSts => Sys2Proof.Machine.execPushSts s
  | .popSts => Sys2Proof.Machine.execPopSts s
  | .flushCache => Sys2Proof.Machine.execFlushCache s
  | .setint n => Sys2Proof.Machine.execSetint n s
  | .clrint n => Sys2Proof.Machine.execClrint n s
  | .nop => Sys2Proof.Machine.execNop s
  | .idle => Sys2Proof.Machine.execIdle s
  | .idleDiv imm4 => Sys2Proof.Machine.execIdleDiv imm4 s
  | .ena modes => Sys2Proof.Machine.execEna modes s
  | .dis modes => Sys2Proof.Machine.execDis modes s

end Sys2Proof.Machine
end

