-- ==== Sys2Proof/Machine/Fetch.lean ====
section
/-! DEFINITION. Instruction fetch (`20_memory.md` R72, R78). -/

namespace Sys2Proof.Machine

/-- The words the instruction cache may still hold for an address. -/
def staleWords (a : Addr) (s : State) : List PWord := (s.icache.filter (fun c => c.addr = a)).map CacheLine.word

/-- `fetch(a)` (R72): the word in memory or, as long as R78 allows it, an older one (log entries 19, 38). -/
def fetchWord (x : Site) (a : Addr) (s : State) : Option PWord :=
  match s.mem.readWord a with
  | none => none
  | some w => some (drawFrom x s w (staleWords a s))

/-- The instruction at the program counter, by the `DECODE` of the DSP (R92). -/
def fetch (s : State) : Except Fault Fetched :=
  instrOf s.cfg.coding (fetchWord .fetchFirst s.pc s) (fetchWord .fetchSecond (s.pc + 1) s)

end Sys2Proof.Machine
end

