-- ==== Sys2Proof/Machine/Other.lean ====
section
/-! DEFINITION. Instructions of other chapters (`00_scope.md` R5, decision D2): an opaque step supplied from outside, which advances
the program counter by its length, leaves the stacks, `db`, `insvc` and `idle` alone, and is sequenced like any instruction.
DESIGN CHOICE (log entry 20). -/

namespace Sys2Proof.Machine

/-- The words the cache may still hold after a store to program memory (R78): the word before it, if there was one. -/
def staleAfterStore (a : Addr) (s : State) : List CacheLine :=
  match s.mem.readWord a with
  | none => s.icache
  | some w => { addr := a, word := w, left := none } :: s.icache

/-- One effect (D2). -/
def applyEffect (e : OtherEffect) (s : State) : State :=
  match e with
  | .load r v => writeReg r v s
  | .move dst src => afterRead src (writeReg dst (readReg src s) s)
  | .loadMr v => onData (fun d => { d with mr := v }) s
  | .loadSr v => onData (fun d => { d with sr := v }) s
  | .storeWord a w => { storeText a w s with icache := staleAfterStore a s }
  | .sleepBits armed => { s with sleepArmed := armed }

/-- The effects of one instruction, in order. -/
def applyEffects : List OtherEffect → State → State
  | [], s => s
  | e :: es, s => applyEffects es (applyEffect e s)

/-- One instruction of another chapter, of `n` words: the next supplied effect. A two-word one may not stand in the second position
behind a delayed branch, taken (R131) or not (R132). -/
def runOther (n : WordCount) (s : State) : Result :=
  match s.others with
  | [] => .refused .otherNotSupplied
  | es :: rest =>
    if n = .two && (branchPlaces s).contains (s.pc - 2) then .refused .twoWordInSecondSlot
    else seqNext n (applyEffects es { s with others := rest })

end Sys2Proof.Machine
end

