-- ==== Sys2Proof/Machine/Step.lean ====
section
/-! DEFINITION. One step of the machine (`00_scope.md` R13, `40_conditions_and_branch_options.md` R134, `60_exceptions.md` R254):
the environment's move, then the acceptance check, then one instruction. -/

namespace Sys2Proof.Machine

/-- The instruction at the program counter executes, if the program may hold it there (R111). -/
def runInstr (s : State) : Result :=
  match fetch s with
  | .error f => .fault f
  | .ok (.other n) => runOther n (beginInstr (noteText (.other n) s))
  | .ok (.core i) =>
    match admission i s with
    | some r => .refused r
    | none => exec i (beginInstr (noteText (.core i) s))

/-- What the core does at a boundary (R254): it enters an interrupt, or executes, or stays idle (R230; log entries 11, 30). -/
def coreStep (s : State) : Result :=
  match s.power with
  | .sleep => .fault .asleep
  | .running =>
    match accepted s with
    | some n => .next (enterInterrupt n s)
    | none => runInstr s
  | .idle =>
    match accepted s with
    | some n => .next (enterInterrupt n s)
    | none => .next (beginStep s)
  | .slowIdle _ =>
    match accepted s with
    | some n => .next (enterInterrupt n s)
    | none => .next (beginStep s)

/-- One step. -/
def step (s : State) : Host.Outcome State Fault Refusal := coreStep (takeEvents s)

/-- The state with an instruction placed at the program counter: its two words, in the model's own numbering, are stored there, that
numbering is the `DECODE` in force, the program counter is a place of the program text, and no older word of these two addresses is
left in the instruction cache (log entries 1, 6). -/
def State.withFetchWord (s : State) (nbits w : Nat) : State :=
  let ws := tableWords nbits w
  { storeText (s.pc + 1) ws.2 (storeText s.pc ws.1 s) with
    cfg := { s.cfg with coding := .numbering }
    text := s.pc :: s.text.filter (fun a => a ≠ s.pc && a ≠ s.pc + 1)
    icache := s.icache.filter (fun c => c.addr ≠ s.pc && c.addr ≠ s.pc + 1) }

end Sys2Proof.Machine
end

