-- ==== Sys2Proof/Safety.lean ====
section
/-! DEFINITION. The words the statements use: when an instruction may go on in sequence or branch, where sequence leads, and the
invariant of the machine. -/

namespace Sys2Proof.Safety

open Sys2Proof.Machine

/-- A one-word instruction can be sequenced: it stands in a delay slot, or the loop hardware has a defined record to compare with
(R45, R206). -/
def SeqReady (s : State) : Prop := s.db.isSome = true ∨ s.lpLost = false

/-- Where a one-word instruction that does not transfer control leaves the sequencer: after a delay slot by R131, at the active loop
end by R152, elsewhere at the next address (R21). -/
def inSequence (s : State) : State :=
  match s.db, s.lpstk with
  | some ⟨.two, t⟩, _ => { s with pc := s.pc + 1, db := some ⟨.one, t⟩ }
  | some ⟨.one, t⟩, _ => { s with pc := t, db := none }
  | none, [] => advance .one s
  | none, top :: rest => if top.last = s.pc then loopEnd .one top rest s else advance .one s

/-- No loop has its last line at the program counter, neither one on the loop stacks nor one of the program text (R157). -/
def EndsNoLoop (s : State) : Prop := endsLoop s.pc s = false

/-- The loops, if any, allow a taken branch at `s.pc` (R134, R156, R157). -/
def BranchReady (k : BranchKind) (n : WordCount) (delayed : Bool) (s : State) : Prop :=
  s.db = none ∧ s.lpLost = false ∧
  (k = .call → EndsNoLoop s) ∧
  ∀ top ∈ s.lpstk.head?,
    (delayed = true → top.last ≠ s.pc ∧ top.last ≠ s.pc + 1 ∧ top.last ≠ s.pc + 2) ∧
    (n = .two → top.last ≠ s.pc ∧ top.last ≠ s.pc + 1) ∧
    (top.last = s.pc → k = .jump ∧ top.forever = true)

/-- The state after a transfer to `t` by a branch at `s.pc`: at once, or with the two slots to come (R130, R131). -/
def branched (delayed : Bool) (t : Addr) (s : State) : State :=
  { s with
    pc := if delayed then s.pc + 1 else t
    db := if delayed then some ⟨.two, t⟩ else s.db }

/-- The PC stack takes another address without overflow (R200). -/
def PcRoom (s : State) : Prop := s.pcLost = false ∧ s.pcstk.length < 33

/-- The status stack takes another entry without overflow (R204). -/
def StsRoom (s : State) : Prop := s.stsLost = false ∧ s.stsstk.length < 16

/-- The loop stacks take another record without overflow (R202). -/
def LoopRoom (s : State) : Prop := s.lpLost = false ∧ s.lpstk.length < 8

/-- The state with the PC stack `stk`, after an operation whose water mark is `mark` (R200, R201): the level bit, and in spill-fill
mode the stack interrupt. -/
def withPcStack (stk : List Addr) (mark : Nat) (s : State) : State :=
  { s with
    pcstk := stk
    pcstklvl := if stk.length = mark then true else lvlClear s
    irptl := if stk.length = mark ∧ s.icntl.getLsbD 10 = true then s.irptl ||| bit s.cfg.stackIrq else s.irptl }

/-- No older value of a register may still be seen by its reader (R51). -/
def NoWindow (r : LagReg) (s : State) : Prop := oldsOf r s = []

/-- `IJPG[7:0] ++ I[n]` in the bank `MSTAT[6]` selects (R142). -/
def indirectAddress (s : State) (n : BitVec 3) : Addr :=
  s.ijpg ++ (if s.mstat.getLsbD 6 then s.dagSec else s.dagPri).i[n.toNat]

/-- Bit `j` of the word the `k`-th instruction from the state on would read from `SSTAT` (R36, R302). -/
def sstatBit (k : Nat) (s : State) (j : Nat) : Bool := (readReg .sstat (beginInstr^[k] s)).getLsbD j

/-- The condition of an instruction (R99): `TRUE` for a form that has none. -/
def conditionOf : Instr → Cond
  | .doUntil _ _ => .always
  | .jumpRel13 c _ _ => c
  | .callRel16 _ _ => .always
  | .jumpRel16 _ _ => .always
  | .lcall c _ => c
  | .ljump c _ => c
  | .callInd c _ _ => c
  | .jumpInd c _ _ => c
  | .rti c _ _ => c
  | .rts c _ => c
  | .pushPc _ => .always
  | .popPc _ => .always
  | .pushLoop _ => .always
  | .popLoop _ => .always
  | .pushSts => .always
  | .popSts => .always
  | .flushCache => .always
  | .setint _ => .always
  | .clrint _ => .always
  | .nop => .always
  | .idle => .always
  | .idleDiv _ => .always
  | .ena _ => .always
  | .dis _ => .always

/-- No active loop ends at the program counter. -/
def NotAtLoopEnd (s : State) : Prop := ∀ top ∈ s.lpstk.head?, top.last ≠ s.pc

/-- A stack overflow as it is reported (R206, R251): the flag and the latch bit of the stack interrupt. -/
def OverflowReported (s t : State) : Prop := t.stkoverflow = true ∧ t.irptl = s.irptl ||| bit s.cfg.stackIrq

/-- `exec` of the same instruction `k` times, stopping at the first fault or refusal. -/
def repeatExec (i : Instr) : Nat → State → Result
  | 0, s => .next s
  | k + 1, s =>
    match exec i s with
    | .next t => repeatExec i k t
    | .fault f => .fault f
    | .refused r => .refused r

/-- The invariant of the machine. -/
structure Inv (s : State) : Prop where
  /-- Program memory has its canonical form. -/
  memory : s.mem.wf = true
  /-- The stacks are within their depths (R42, R43, R46). -/
  pcBound : s.pcstk.length ≤ 33
  lpBound : s.lpstk.length ≤ 8
  stsBound : s.stsstk.length ≤ 16
  /-- A lost stack holds nothing a later operation could read (R206). -/
  pcLostEmpty : s.pcLost = true → s.pcstk = []
  lpLostEmpty : s.lpLost = true → s.lpstk = []
  stsLostEmpty : s.stsLost = true → s.stsstk = []
  /-- A stack is lost only by an overflow, which the flag reports (R35, R206). -/
  lostFlag : s.pcLost = true ∨ s.lpLost = true ∨ s.stsLost = true → s.stkoverflow = true
  /-- Every interrupt in service has a higher priority than the one it suspended (R257). -/
  nesting : s.insvc.Pairwise (· < ·)
  /-- The core is not idle between a taken delayed branch and the end of its slots (R133, D3). -/
  slotsRun : s.db.isSome = true → s.power = .running
  /-- What is remembered of the program text is one thing for each address (R111). -/
  slotSitesOnce : s.slotSites.Nodup
  loopSitesOnce : (s.loopSites.map LoopSite.site).Nodup
  popSitesOnce : s.popSites.Nodup

end Sys2Proof.Safety
end

