-- ==== Sys2Proof/Certificates/Slice0/Obligations.lean ====
section
/-! DEFINITION. The statements for the provers. A docstring names the rules of the spec a statement rests on; OBLIGATIONS.json says
which of them are the spec's own sentences and which are derived. -/

open Sys2Proof Sys2Proof.Machine Sys2Proof.Safety

/-! ### Conditions -/

/-- R300: a condition at distance 1 from a write of `CCODE` sees the value before the write, one at any greater distance the new
value. The first line is the software condition itself (R122, R123). -/
def Obligations.CcodeLagsByOneInstruction : Prop :=
  ∀ (s : State) (v : Reg16), (∀ g ∈ s.lags, g.reg = .ccode → g.left = 0) →
    ccodeSeen (beginInstr (writeReg .ccode v s)) = s.ccode ∧
    (∀ k, ccodeSeen (beginInstr^[k + 2] (writeReg .ccode v s)) = v) ∧
    (∀ t : State, evalCond .swcond t = (Config.statusTrue (statusSource (ccodeSeen t)) t.tick, t) ∧
      evalCond .notSwcond t = (!Config.statusTrue (statusSource (ccodeSeen t)) t.tick, t))

/-- R124, D5: with a counter above 0, `NOT CE` is true iff the counter is above 1, and the counter is decremented either way.
With a counter of 0 the value is free (log entry 16) and nothing is said. The order of test and decrement is the spec's choice
D5 (log entry 33). -/
def Obligations.NotCeTestsThenDecrements : Prop :=
  ∀ s : State, NoWindow .cntrTest s → s.cntr ≠ 0 →
    (evalCond .notCe s).1 = decide (1 < s.cntr) ∧
    ∃ lags, (evalCond .notCe s).2 = { s with cntr := s.cntr - 1, lags := lags }

/-- R124, D5: an instruction `IF NOT CE` at the bottom of a software loop finds the condition true on its first `N - 1`
evaluations and false on the `N`-th. That each evaluation sees the decrement of the one before, a decrement opening no window for
`IF NOT CE`, is no sentence of the source: R301 marks it as its own inference (DESIGN CHOICE, log entry 34). The order of test
and decrement is the spec's choice D5 (log entry 33). -/
def Obligations.NotCeLoopTurns : Prop :=
  ∀ (s : State) (n k : Nat), NoWindow .cntrTest s → n < 65536 → s.cntr = BitVec.ofNat 16 n → k < n →
    let t := (fun u => (evalCond .notCe (beginInstr u)).2)^[k] s
    t.cntr = BitVec.ofNat 16 (n - k) ∧ (evalCond .notCe (beginInstr t)).1 = decide (k + 1 < n)

/-! ### Loops -/

/-- R150: `DO UNTIL` pushes the address of the next instruction, `pc + Imm12`, the terminator and the counter, and goes on at
`pc + 1`. Inside the window of a write of `CNTR` the counter pushed is the new or an older value (R301, D21, U10; log entry 34),
elsewhere `CNTR`: then `oldsOf` is empty. The mark of a counter of 0 or 1 (`openCount`) is the model's own (log entry 15). -/
def Obligations.DoUntilArmsLoop : Prop :=
  ∀ (s : State) (imm : BitVec 12) (term : Term), imm ≠ 0 → s.db = none → LoopRoom s →
    ∃ w, ∃ c ∈ s.cntr :: oldsOf .cntrPush s, exec (.doUntil imm term) s = .next
      { s with
        pc := s.pc + 1
        sstatLag := w
        lpstk :=
          { start := s.pc + 1, last := s.pc + imm.setWidth 24, forever := decide (term = .forever), count := c,
            openCount := decide (term = .ce) && decide (c ≤ 1) } :: s.lpstk }

/-- R152: the loop-end action after an instruction that did not transfer control. -/
def Obligations.LoopEndAction : Prop :=
  ∀ (s : State) (top : LoopRec) (rest : List LoopRec), s.db = none → s.lpLost = false → s.lpstk = top :: rest →
    top.last = s.pc → top.openCount = false →
    ((top.forever = true ∨ top.count ≠ 1) →
      exec .nop s = .next
        { s with lpstk := { top with count := top.count - 1 } :: rest, pc := top.start }) ∧
    (top.forever = false → top.count = 1 →
      ∃ w, exec .nop s = .next
        { s with lpstk := rest, pc := s.pc + 1, sstatLag := w })

/-- R153: with a counter of `n`, 2 to 65535, the body of a loop runs exactly `n` times, whatever its length. After `k` passes the
count is `n - k`; after `n` passes the loop is popped, control is behind the loop end, and `CNTR` is as it was. The body here is `NOP`
instructions. -/
def Obligations.CountedLoopPasses : Prop :=
  ∀ (s : State) (imm : BitVec 12) (n : Nat), imm ≠ 0 → 2 ≤ n → n < 65536 → s.cntr = BitVec.ofNat 16 n → s.db = none →
    LoopRoom s → NoWindow .cntrPush s →
    ∃ u, exec (.doUntil imm .ce) s = .next u ∧
      (∀ k, k < n → ∃ v top, repeatExec .nop (imm.toNat * k) u = .next v ∧ v.pc = s.pc + 1 ∧
        v.lpstk = top :: s.lpstk ∧ top.count = BitVec.ofNat 16 (n - k)) ∧
      ∃ t, repeatExec .nop (imm.toNat * n) u = .next t ∧ t.pc = s.pc + imm.setWidth 24 + 1 ∧ t.lpstk = s.lpstk ∧
        t.cntr = s.cntr

/-- R154: an infinite loop goes on for ever; after `k` passes its count is `C - k`. -/
def Obligations.InfiniteLoopPasses : Prop :=
  ∀ (s : State) (imm : BitVec 12), imm ≠ 0 → s.db = none → LoopRoom s → NoWindow .cntrPush s →
    ∃ u, exec (.doUntil imm .forever) s = .next u ∧
      ∀ k, ∃ v top, repeatExec .nop (imm.toNat * k) u = .next v ∧ v.pc = s.pc + 1 ∧ v.lpstk = top :: s.lpstk ∧
        top.forever = true ∧ top.count = s.cntr - BitVec.ofNat 16 k

/-- R151, R155: only the top record's end is compared; away from it control goes on in sequence and the loop stacks stay. -/
def Obligations.OnlyTopLoopEnds : Prop :=
  ∀ s : State, s.db = none → s.lpLost = false → NotAtLoopEnd s →
    exec .nop s = .next { s with pc := s.pc + 1 }

/-- R156, R157, D17: at the active loop end a taken immediate jump leaves an infinite loop, its record staying on the stack; at the
end of a finite loop it is refused. So are a taken delayed branch whose word or slots are the loop end, and a taken long branch at the
end or one before it. A taken call is refused at the end of any loop, the active one, one around it or one of the program text whose
record is not on the stacks, and so is a return at the active loop end. Every form is named. This reading is the spec's choice (log
entry 23). -/
def Obligations.BranchesAtLoopEnd : Prop :=
  ∀ (s t : State) (c : Cond) (top : LoopRec) (rest : List LoopRec) (i13 : BitVec 13) (i16 : BitVec 16) (r : BitVec 3) (a : Addr),
    s.db = none → s.lpLost = false → s.lpstk = top :: rest → evalCond c s = (true, t) →
    let endsHere := (∃ q ∈ s.lpstk, q.last = s.pc) ∨ ∃ l ∈ textLoops s, l.last = s.pc
    (top.last = s.pc → top.forever = true →
      exec (.jumpRel13 c i13 false) s = .next { t with pc := s.pc + i13.signExtend 24 } ∧
      exec (.jumpRel16 i16 false) s = .next { s with pc := s.pc + i16.signExtend 24 } ∧
      exec (.jumpInd c r false) s = .next { t with pc := indirectTarget t r }) ∧
    (top.last = s.pc → top.forever = false →
      ∀ i ∈ [Instr.jumpRel13 c i13 false, .jumpRel16 i16 false, .jumpInd c r false], exec i s = .refused .branchAtLoopEnd) ∧
    (endsHere →
      ∀ db, ∀ i ∈ [Instr.callRel16 i16 db, .callInd c r db, .lcall c a], exec i s = .refused .branchAtLoopEnd) ∧
    (top.last = s.pc ∨ top.last = s.pc + 1 ∨ top.last = s.pc + 2 →
      ∀ i ∈ [Instr.jumpRel13 c i13 true, .jumpRel16 i16 true, .jumpInd c r true], exec i s = .refused .delayedBranchAtLoopEnd) ∧
    (¬endsHere → top.last = s.pc + 1 ∨ top.last = s.pc + 2 →
      ∀ i ∈ [Instr.callRel16 i16 true, .callInd c r true], exec i s = .refused .delayedBranchAtLoopEnd) ∧
    (top.last = s.pc ∨ top.last = s.pc + 1 → exec (.ljump c a) s = .refused .twoWordAtLoopEnd) ∧
    (¬endsHere → top.last = s.pc + 1 → exec (.lcall c a) s = .refused .twoWordAtLoopEnd) ∧
    (top.last = s.pc → ∀ db, ∀ i ∈ [Instr.rts c db, .rti c db false], exec i s = .refused .returnInsideLoop) ∧
    (insideLoop s.pc s = false → top.last = s.pc + 1 ∨ top.last = s.pc + 2 → s.pcLost = false → s.pcstk ≠ [] →
      exec (.rts c true) s = .refused .delayedBranchAtLoopEnd ∧
      (s.stsLost = false → s.stsstk ≠ [] → exec (.rti c true false) s = .refused .delayedBranchAtLoopEnd))

/-! ### Jumps and calls -/

/-- R95, with R170: the taken conditional jump goes to `pc + sext_24(Imm13)`. -/
def Obligations.JumpRel13Taken : Prop :=
  ∀ (s : State) (c : Cond) (imm : BitVec 13) (db : Bool), (evalCond c s).1 = true → BranchReady .jump .one db s →
    exec (.jumpRel13 c imm db) s = .next (branched db (s.pc + imm.signExtend 24) (evalCond c s).2)

/-- R96, with R172, R171, R173: the jump and the call with a 16-bit offset go to `pc + sext_24(Imm16)`. The call pushes its return
address, here on a PC stack that has room. -/
def Obligations.Rel16BranchesTaken : Prop :=
  ∀ (s : State) (imm : BitVec 16) (db : Bool),
    (BranchReady .jump .one db s → exec (.jumpRel16 imm db) s = .next (branched db (s.pc + imm.signExtend 24) s)) ∧
    (PcRoom s → BranchReady .call .one db s →
      ∃ w, exec (.callRel16 imm db) s = .next
        { branched db (s.pc + imm.signExtend 24)
            (withPcStack ((if db then s.pc + 3 else s.pc + 1) :: s.pcstk) s.cfg.pcHighWater s) with
          sstatLag := w })

/-- R175: the taken long jump. -/
def Obligations.LongJumpTaken : Prop :=
  ∀ (s : State) (c : Cond) (a : Addr), (evalCond c s).1 = true → BranchReady .jump .two false s →
    exec (.ljump c a) s = .next (branched false a (evalCond c s).2)

/-- R177, R142, R304: the taken indirect jump. A fresh index register or page is seen at once: no premise about their windows. -/
def Obligations.IndirectJumpTaken : Prop :=
  ∀ (s : State) (c : Cond) (r : BitVec 3) (db : Bool), (evalCond c s).1 = true → NoWindow .mstat s →
    BranchReady .jump .one db s →
    exec (.jumpInd c r db) s = .next (branched db (indirectAddress s r) (evalCond c s).2)

/-- R174, R173: the taken long call, on a PC stack that has room. -/
def Obligations.LongCallTaken : Prop :=
  ∀ (s : State) (c : Cond) (a : Addr), (evalCond c s).1 = true → PcRoom s → BranchReady .call .two false s →
    ∃ w, exec (.lcall c a) s = .next
      { branched false a (withPcStack ((s.pc + 2) :: s.pcstk) s.cfg.pcHighWater (evalCond c s).2) with sstatLag := w }

/-- R176, R142, R173: the taken indirect call, on a PC stack that has room, away from a fresh write of the registers that form the
target (R304). -/
def Obligations.IndirectCallTaken : Prop :=
  ∀ (s : State) (c : Cond) (r : BitVec 3) (db : Bool), (evalCond c s).1 = true → PcRoom s → NoWindow .mstat s →
    NoWindow .ijpg s → NoWindow (.ireg (s.mstat.getLsbD 6) r) s → BranchReady .call .one db s →
    ∃ w, exec (.callInd c r db) s = .next
      { branched db (indirectAddress s r)
          (withPcStack ((if db then s.pc + 3 else s.pc + 1) :: s.pcstk) s.cfg.pcHighWater (evalCond c s).2) with
        sstatLag := w }

/-- R304: right after a load of `IJPG` or of its index register an indirect call goes to the address formed with the old or the new
value, and later with the new one; an indirect jump goes to the new one at once. The clauses about calls are a reading of a case
for which the source has no sentence (C15), a DESIGN CHOICE (log entry 40). -/
def Obligations.IndirectTargetAfterLoad : Prop :=
  ∀ (s : State) (r : BitVec 3) (v : Reg16), NoWindow .mstat s → NoWindow .ijpg s →
    NoWindow (.ireg (s.mstat.getLsbD 6) r) s →
    let low := (if s.mstat.getLsbD 6 then s.dagSec else s.dagPri).i[r.toNat]
    ∀ p ∈ [(writeReg .ijpg v s, v.setWidth 8 ++ low), (writeReg (.i r) v s, s.ijpg ++ v)],
      (indirectCallTarget (beginInstr p.1) r = s.ijpg ++ low ∨ indirectCallTarget (beginInstr p.1) r = p.2) ∧
      ∀ k, indirectTarget (beginInstr^[k + 1] p.1) r = p.2 ∧ indirectCallTarget (beginInstr^[k + 2] p.1) r = p.2

/-- R120, R132: a branch or return whose condition is false executes as `NOP`, delayed or not; the address of a delayed one is kept
as a place of the program text, so that the restrictions on delay slots bind the two positions behind it (`ForbiddenPlacesRefused`).
How the model remembers the text is its own (log entry 23). -/
def Obligations.NotTakenIsNop : Prop :=
  ∀ (s : State) (c : Cond) (imm : BitVec 13) (r : BitVec 3) (a : Addr) (db ss : Bool), (evalCond c s).1 = false →
    let t := (evalCond c s).2
    (∀ i ∈ [Instr.jumpRel13 c imm db, .callInd c r db, .jumpInd c r db, .rti c db ss, .rts c db],
      exec i s = exec .nop t ∧ (s.pc ∈ (noteText (.core i) s).slotSites ↔ db = true)) ∧
    (∀ i ∈ [Instr.lcall c a, .ljump c a], s.db = none → s.lpLost = false →
      (∀ top ∈ s.lpstk.head?, top.last ≠ s.pc ∧ top.last ≠ s.pc + 1) →
      exec i s = .next { t with pc := s.pc + 2 })

/-- R173, R190, R135: `RTS` as the first instruction of a subroutine comes back to the first instruction after an immediate call, with
the PC stack as it was before the call. -/
def Obligations.CallThenReturn : Prop :=
  ∀ (s : State) (imm : BitVec 16), PcRoom s → BranchReady .call .one false s →
    insideLoop (s.pc + imm.signExtend 24) s = false →
    ∃ u v, exec (.callRel16 imm false) s = .next u ∧ exec (.rts .always false) (beginInstr u) = .next v ∧
      u.pc = s.pc + imm.signExtend 24 ∧ v.pc = s.pc + 1 ∧ v.pcstk = s.pcstk ∧ v.lpstk = s.lpstk ∧ v.stsstk = s.stsstk ∧
      v.astat = s.astat ∧ v.mstat = s.mstat

/-- R131: after a taken delayed branch two one-word instructions run, at `pc + 1` and `pc + 2`, and then the target. -/
def Obligations.DelaySlotsThenTarget : Prop :=
  ∀ (s : State) (imm : BitVec 16), BranchReady .jump .one true s →
    ∃ u v x, exec (.jumpRel16 imm true) s = .next u ∧ exec .nop (beginInstr u) = .next v ∧
      exec .nop (beginInstr v) = .next x ∧ u.pc = s.pc + 1 ∧ v.pc = s.pc + 2 ∧ x.pc = s.pc + imm.signExtend 24 ∧
      x.db = none ∧ x.lpstk = s.lpstk ∧ x.pcstk = s.pcstk

/-! ### Returns -/

/-- R190: the taken `RTS`, where a return may stand (`insideLoop`, see `ReturnStops`). -/
def Obligations.RtsTaken : Prop :=
  ∀ (s : State) (c : Cond) (db : Bool) (v : Addr) (rest : List Addr), (evalCond c s).1 = true → s.pcLost = false →
    s.pcstk = v :: rest → insideLoop s.pc s = false → BranchReady .ret .one db s →
    ∃ w, exec (.rts c db) s = .next
      { branched db v (withPcStack rest s.cfg.pcLowWater (evalCond c s).2) with sstatLag := w }

/-- R191, R262, R303: the taken `RTI`, where a return may stand (`insideLoop`, see `ReturnStops`): both stacks are popped, `ASTAT` and `MSTAT` restored, the
service ended. The modes take effect late: the old `MSTAT` is in the open window. Outside emulation `(SS)` changes nothing
(D14). Admitting `(SS)` is the model's choice (log entry 14). -/
def Obligations.RtiTaken : Prop :=
  ∀ (s : State) (c : Cond) (db ss : Bool) (v : Addr) (rest : List Addr) (e : StatusEntry) (es : List StatusEntry),
    (evalCond c s).1 = true → (ss = true → s.cfg.emulation = false) → s.pcLost = false → s.pcstk = v :: rest →
    s.stsLost = false → s.stsstk = e :: es → insideLoop s.pc s = false → BranchReady .ret .one db s →
    ∃ w, exec (.rti c db ss) s = .next
      { branched db v (withPcStack rest s.cfg.pcLowWater (evalCond c s).2) with
        sstatLag := w
        stsstk := es
        astat := e.astat
        mstat := e.mstat
        insvc := s.insvc.tail
        lags := { reg := .mstat, old := s.mstat, left := max 1 s.cfg.mstatPopLatency } :: (evalCond c s).2.lags }

/-- R206, U5, U17, R157, D14: where a return stops: on an empty or a lost stack with a fault that names it; inside a loop on the loop
stacks, inside a loop of the program text, armed or not, no line of which is a `POP LOOP`, and, with `(SS)`, under an emulator with a
refusal. These stops are the spec's and the model's choices (log entries 13, 14, 23, 37). -/
def Obligations.ReturnStops : Prop :=
  ∀ (s : State) (db ss : Bool) (v : Addr) (rest : List Addr),
    let rts := Instr.rts .always db
    let rti := Instr.rti .always db ss
    (insideLoop s.pc s = false →
      (s.pcLost = false → s.pcstk = [] → exec rts s = .fault (.pcStackUnderflow rts s.pc)) ∧
      (s.pcLost = true → exec rts s = .fault (.pcStackUnspecified rts s.pc))) ∧
    (insideLoop s.pc s = false → s.cfg.emulation = false →
      (s.pcLost = false → s.pcstk = [] → exec rti s = .fault (.pcStackUnderflow rti s.pc)) ∧
      (s.pcLost = true → exec rti s = .fault (.pcStackUnspecified rti s.pc)) ∧
      (s.pcLost = false → s.pcstk = v :: rest → s.stsLost = false → s.stsstk = [] →
        exec rti s = .fault (.statusStackUnderflow rti s.pc)) ∧
      (s.pcLost = false → s.pcstk = v :: rest → s.stsLost = true →
        exec rti s = .fault (.statusStackUnspecified rti s.pc))) ∧
    ((∃ r ∈ s.lpstk, s.pc - r.start ≤ r.last - r.start) ∨
        (∃ l ∈ textLoops s, l.site ≠ s.pc ∧ s.pc - (l.site + 1) ≤ l.last - (l.site + 1) ∧
          ∀ a ∈ popPlaces s, ¬a - (l.site + 1) ≤ l.last - (l.site + 1)) →
      exec (.rts .always db) s = .refused .returnInsideLoop ∧
      (s.cfg.emulation = false → exec (.rti .always db ss) s = .refused .returnInsideLoop)) ∧
    (s.cfg.emulation = true → exec (.rti .always db true) s = .refused .emulatorSingleStep)

/-! ### The stacks -/

/-- R200: `PCpush`. What an overflow reports is decision D7 (log entry 13). -/
def Obligations.PcStackPush : Prop :=
  ∀ (s : State) (v : Addr), s.pcLost = false →
    (s.pcstk.length < 33 →
      (pcPush v s).pcstk = v :: s.pcstk ∧
      (s.pcstk.length + 1 = s.cfg.pcHighWater →
        (pcPush v s).pcstklvl = true ∧
        (pcPush v s).irptl = if s.icntl.getLsbD 10 then s.irptl ||| bit s.cfg.stackIrq else s.irptl) ∧
      (s.pcstk.length + 1 ≠ s.cfg.pcHighWater →
        (s.cfg.lvlClear = .sticky → (pcPush v s).pcstklvl = s.pcstklvl) ∧
        (s.cfg.lvlClear = .level → (pcPush v s).pcstklvl = false) ∧
        (pcPush v s).irptl = s.irptl) ∧
      (pcPush v s).stkoverflow = s.stkoverflow ∧ pcstkEmpty (pcPush v s) = false ∧
      pcstkFull (pcPush v s) = decide (s.pcstk.length = 32)) ∧
    (s.pcstk.length = 33 → OverflowReported s (pcPush v s))

/-- R201: `PCpop`. That an underflow is a fault is decision D7 (log entry 37). -/
def Obligations.PcStackPop : Prop :=
  ∀ (i : Instr) (s : State) (v : Addr) (rest : List Addr), s.pcLost = false →
    (s.pcstk = [] → pcPop i s = .error (.pcStackUnderflow i s.pc)) ∧
    (s.pcstk = v :: rest → rest.length < 33 → ∃ t, pcPop i s = .ok (v, t) ∧ t.pcstk = rest ∧
      (rest.length = s.cfg.pcLowWater →
        t.pcstklvl = true ∧ t.irptl = if s.icntl.getLsbD 10 then s.irptl ||| bit s.cfg.stackIrq else s.irptl) ∧
      (rest.length ≠ s.cfg.pcLowWater →
        (s.cfg.lvlClear = .sticky → t.pcstklvl = s.pcstklvl) ∧ (s.cfg.lvlClear = .level → t.pcstklvl = false) ∧
        t.irptl = s.irptl) ∧
      t.stkoverflow = s.stkoverflow ∧ pcstkFull t = false ∧ pcstkEmpty t = rest.isEmpty)

/-- R202, R203: `LPpush` and `LPpop`. That an overflow leaves the machine running and that an underflow is a fault are the spec's own
choices (R206, D7; log entry 13). -/
def Obligations.LoopStackPushPop : Prop :=
  ∀ (i : Instr) (s : State) (r : LoopRec) (rest : List LoopRec), s.lpLost = false →
    (s.lpstk.length < 8 →
      lpPush r s = { s with lpstk := r :: s.lpstk } ∧ lpstkEmpty (lpPush r s) = false ∧
      lpstkFull (lpPush r s) = decide (s.lpstk.length + 1 = 8)) ∧
    (s.lpstk.length = 8 → OverflowReported s (lpPush r s)) ∧
    (s.lpstk = [] → lpPop i s = .error (.loopStackUnderflow i s.pc)) ∧
    (s.lpstk = r :: rest → rest.length < 8 →
      lpPop i s = .ok (r, { s with lpstk := rest }) ∧ lpstkFull { s with lpstk := rest } = false ∧
      lpstkEmpty { s with lpstk := rest } = rest.isEmpty)

/-- R204, R205: `STSpush` and `STSpop`. That an overflow leaves the machine running and that an underflow is a fault are the spec's
own choices (R206, D7; log entry 13). -/
def Obligations.StatusStackPushPop : Prop :=
  ∀ (i : Instr) (s : State) (e : StatusEntry) (rest : List StatusEntry), s.stsLost = false →
    (s.stsstk.length < 16 → stsPush e s = { s with stsstk := e :: s.stsstk } ∧ stsstkEmpty (stsPush e s) = false) ∧
    (s.stsstk.length = 16 → OverflowReported s (stsPush e s)) ∧
    (s.stsstk = [] → stsPop i s = .error (.statusStackUnderflow i s.pc)) ∧
    (s.stsstk = e :: rest →
      stsPop i s = .ok (e, { s with stsstk := rest }) ∧ stsstkEmpty { s with stsstk := rest } = rest.isEmpty)

/-- R206, D7: an instruction that pushes a full stack completes, with `STKOVERFLOW` set and the stack interrupt latched. That the
machine goes on, with that stack lost, is the alternative R206 allows (log entry 13). -/
def Obligations.OverflowIsReported : Prop :=
  ∀ (s : State) (imm : BitVec 12) (term : Term) (imm16 : BitVec 16) (r : BitVec 3) (a : Addr), s.db = none →
    s.lpLost = false → NotAtLoopEnd s →
    (s.pcLost = false → s.pcstk.length = 33 →
      (EndsNoLoop s →
        (∃ t, exec (.callRel16 imm16 false) s = .next t ∧ OverflowReported s t ∧ t.pc = s.pc + imm16.signExtend 24) ∧
        (∃ t, exec (.callInd .always r false) s = .next t ∧ OverflowReported s t ∧ t.pc = indirectCallTarget s r) ∧
        ((∀ top ∈ s.lpstk.head?, top.last ≠ s.pc + 1) →
          ∃ t, exec (.lcall .always a) s = .next t ∧ OverflowReported s t ∧ t.pc = a)) ∧
      ∃ t, exec (.pushPc .alone) s = .next t ∧ OverflowReported s t ∧ t.pc = s.pc + 1) ∧
    (s.lpstk.length = 8 → imm ≠ 0 →
      ∃ t, exec (.doUntil imm term) s = .next t ∧ OverflowReported s t ∧ t.pc = s.pc + 1) ∧
    (s.lpstk.length = 8 → lpstackpReserved s = 0 →
      ∃ t, exec (.pushLoop false) s = .next t ∧ OverflowReported s t ∧ t.pc = s.pc + 1) ∧
    (s.stsLost = false → s.stsstk.length = 16 →
      ∃ t, exec .pushSts s = .next t ∧ OverflowReported s t ∧ t.pc = s.pc + 1)

/-- R208, R209: `PUSH PC` pushes `STACKP ++ STACKA`; `POP PC` moves the top of the PC stack to `STACKP` and `STACKA`. -/
def Obligations.PushPopPcEffect : Prop :=
  ∀ (s : State) (v : Addr) (rest : List Addr), SeqReady s →
    (PcRoom s →
      ∃ w, exec (.pushPc .alone) s = .next
        (inSequence { withPcStack ((s.stackp ++ s.stacka) :: s.pcstk) s.cfg.pcHighWater s with sstatLag := w })) ∧
    (s.pcLost = false → s.pcstk = v :: rest →
      ∃ w, exec (.popPc .alone) s = .next
        (inSequence
          { withPcStack rest s.cfg.pcLowWater s with
            sstatLag := w
            stacka := v.extractLsb' 0 16
            stackp := v.extractLsb' 16 8 }))

/-- R211: `PUSH LOOP` pushes the record its five registers hold; inside the window of a write of `CNTR` the counter pushed is the
new or an older value (R301, U10; log entry 34). It is refused with `LPSTACKP[14:8]` not zero (U7). That refusal is the spec's
choice (log entry 36). -/
def Obligations.PushLoopEffect : Prop :=
  ∀ (s : State) (sts : Bool),
    (s.lpstackp.extractLsb' 8 7 ≠ 0 → exec (.pushLoop sts) s = .refused .lpstackpReservedBits) ∧
    (s.lpstackp.extractLsb' 8 7 = 0 → LoopRoom s →
      ∃ w, ∃ c ∈ s.cntr :: oldsOf .cntrPush s, exec (.pushLoop false) s = .next
        (inSequence
          { s with
            sstatLag := w
            lpstk :=
              { start := s.stackp ++ s.stacka, last := s.lpstackp.setWidth 8 ++ s.lpstacka,
                forever := s.lpstackp.getLsbD 15, count := c, openCount := false } :: s.lpstk }))

/-- R210: `POP LOOP` moves the record to its five registers. Its windows are a choice (DESIGN CHOICE, log entry 34): for `DO UNTIL` and
`PUSH LOOP` the older `CNTR` stays in a window of one instruction, which R301 marks as its own inference, and for `IF NOT CE` no window
opens. -/
def Obligations.PopLoopEffect : Prop :=
  ∀ (s : State) (r : LoopRec) (rest : List LoopRec), s.lpLost = false → s.lpstk = r :: rest →
    ∃ w, exec (.popLoop false) s = .next
      (inSequence
        { s with
          lpstk := rest
          sstatLag := w
          stacka := r.start.extractLsb' 0 16
          stackp := r.start.extractLsb' 16 8
          lpstacka := r.last.extractLsb' 0 16
          lpstackp := BitVec.ofBool r.forever ++ 0#7 ++ r.last.extractLsb' 16 8
          cntr := r.count
          lags := { reg := .cntrPush, old := s.cntr, left := 1 } :: s.lags })

/-- R212, R213, R303: `PUSH STS` and `POP STS`. -/
def Obligations.PushPopStsEffect : Prop :=
  ∀ (s : State) (e : StatusEntry) (rest : List StatusEntry), SeqReady s →
    (StsRoom s →
      ∃ w, exec .pushSts s = .next
        (inSequence { s with sstatLag := w, stsstk := { astat := s.astat, mstat := s.mstat } :: s.stsstk })) ∧
    (s.stsLost = false → s.stsstk = e :: rest →
      ∃ w, exec .popSts s = .next
        (inSequence
          { s with
            stsstk := rest
            sstatLag := w
            astat := e.astat
            mstat := e.mstat
            lags := { reg := .mstat, old := s.mstat, left := max 1 s.cfg.mstatPopLatency } :: s.lags }))

/-- R214, R303: the two-stack forms have the effects of both. The window of one instruction that `POP LOOP` opens for the older `CNTR`,
that it opens none for `IF NOT CE`, and the older counter `PUSH LOOP` may push are inferences R301 marks as its own and the model's
choice (DESIGN CHOICE, log entry 34). -/
def Obligations.StackPairEffects : Prop :=
  ∀ (s : State) (v : Addr) (pcs : List Addr) (r : LoopRec) (lps : List LoopRec) (e : StatusEntry) (es : List StatusEntry),
    SeqReady s →
    (PcRoom s → StsRoom s →
      ∃ w, exec (.pushPc .sts) s = .next
        (inSequence
          { withPcStack ((s.stackp ++ s.stacka) :: s.pcstk) s.cfg.pcHighWater s with
            sstatLag := w
            stsstk := { astat := s.astat, mstat := s.mstat } :: s.stsstk })) ∧
    (LoopRoom s → StsRoom s → s.lpstackp.extractLsb' 8 7 = 0 →
      ∃ w, ∃ c ∈ s.cntr :: oldsOf .cntrPush s, exec (.pushLoop true) s = .next
        (inSequence
          { s with
            sstatLag := w
            stsstk := { astat := s.astat, mstat := s.mstat } :: s.stsstk
            lpstk :=
              { start := s.stackp ++ s.stacka, last := s.lpstackp.setWidth 8 ++ s.lpstacka,
                forever := s.lpstackp.getLsbD 15, count := c, openCount := false } :: s.lpstk })) ∧
    (s.pcLost = false → s.pcstk = v :: pcs → s.stsLost = false → s.stsstk = e :: es →
      ∃ w, exec (.popPc .sts) s = .next
        (inSequence
          { withPcStack pcs s.cfg.pcLowWater s with
            sstatLag := w
            stacka := v.extractLsb' 0 16
            stackp := v.extractLsb' 16 8
            stsstk := es
            astat := e.astat
            mstat := e.mstat
            lags := { reg := .mstat, old := s.mstat, left := max 1 s.cfg.mstatPopLatency } :: s.lags })) ∧
    (s.lpLost = false → s.lpstk = r :: lps → s.stsLost = false → s.stsstk = e :: es →
      ∃ w, exec (.popLoop true) s = .next
        (inSequence
          { s with
            lpstk := lps
            sstatLag := w
            stacka := r.start.extractLsb' 0 16
            stackp := r.start.extractLsb' 16 8
            lpstacka := r.last.extractLsb' 0 16
            lpstackp := BitVec.ofBool r.forever ++ 0#7 ++ r.last.extractLsb' 16 8
            cntr := r.count
            stsstk := es
            astat := e.astat
            mstat := e.mstat
            lags :=
              { reg := .mstat, old := s.mstat, left := max 1 s.cfg.mstatPopLatency } ::
                { reg := .cntrPush, old := s.cntr, left := 1 } :: s.lags }))

/-- R160, R301: `POP LOOP`, `NOP`, `PUSH LOOP` restores the three loop stacks. That the window of the popped `CNTR` is one instruction
is the spec's reading (log entry 34). -/
def Obligations.LoopRecordRoundTrip : Prop :=
  ∀ (s : State) (r : LoopRec) (rest : List LoopRec), s.db = none → s.lpLost = false → s.lpstk = r :: rest →
    rest.length < 8 → r.openCount = false → (∀ g ∈ s.lags, g.reg = .cntrPush → g.left ≤ 1) →
    (∀ q ∈ s.lpstk, q.last ≠ s.pc ∧ q.last ≠ s.pc + 1 ∧ q.last ≠ s.pc + 2) →
    ∃ u v t, exec (.popLoop false) s = .next u ∧ exec .nop (beginInstr u) = .next v ∧
      exec (.pushLoop false) (beginInstr v) = .next t ∧ t.lpstk = s.lpstk ∧ t.pc = s.pc + 3

/-- R206, U5, U17: a pop of an empty stack, and one of a stack whose contents are unspecified since it overflowed, is a fault naming
the instruction, in every form; in a form that pops two stacks the second is looked at when the first is good. These faults are
the spec's choice D7 (log entries 13, 37). -/
def Obligations.PopUnderflowFaults : Prop :=
  ∀ (s : State) (p : PcPartner) (b : Bool),
    (s.pcLost = false → s.pcstk = [] → exec (.popPc p) s = .fault (.pcStackUnderflow (.popPc p) s.pc)) ∧
    (s.lpLost = false → s.lpstk = [] → exec (.popLoop b) s = .fault (.loopStackUnderflow (.popLoop b) s.pc)) ∧
    (s.stsLost = false → s.stsstk = [] → exec .popSts s = .fault (.statusStackUnderflow .popSts s.pc)) ∧
    (s.pcLost = true → exec (.popPc p) s = .fault (.pcStackUnspecified (.popPc p) s.pc)) ∧
    (s.lpLost = true → exec (.popLoop b) s = .fault (.loopStackUnspecified (.popLoop b) s.pc)) ∧
    (s.stsLost = true → exec .popSts s = .fault (.statusStackUnspecified .popSts s.pc)) ∧
    (s.pcLost = false → s.pcstk ≠ [] →
      (s.stsLost = false → s.stsstk = [] → exec (.popPc .sts) s = .fault (.statusStackUnderflow (.popPc .sts) s.pc)) ∧
      (s.stsLost = true → exec (.popPc .sts) s = .fault (.statusStackUnspecified (.popPc .sts) s.pc)) ∧
      (s.lpLost = false → s.lpstk = [] → exec (.popPc .loop) s = .fault (.loopStackUnderflow (.popPc .loop) s.pc)) ∧
      (s.lpLost = true → exec (.popPc .loop) s = .fault (.loopStackUnspecified (.popPc .loop) s.pc))) ∧
    (s.lpLost = false → s.lpstk ≠ [] →
      (s.stsLost = false → s.stsstk = [] → exec (.popLoop true) s = .fault (.statusStackUnderflow (.popLoop true) s.pc)) ∧
      (s.stsLost = true → exec (.popLoop true) s = .fault (.statusStackUnspecified (.popLoop true) s.pc)))

/-- R36, R302: what is read from `SSTAT` behind a `PUSH` or `POP`, overflowing or not, away from the loop ends. At distance 1 from
`PUSH PC` or `POP PC` every bit is old; from `PUSH` or `POP` of the loop stacks or the status stack `STKOVERFLOW` is old and the other
bits are new. In a pair with `PUSH PC` or `POP PC` the bit `STSSTKEMPTY`, old by the one rule and new by the other, is either (DESIGN
CHOICE, log entry 39). At every greater distance all bits are new. The bits of a stack that overflowed are unspecified and left out
(R206). The last clauses are the pushes of full stacks, where `STKOVERFLOW` changes. The positions of the bits are PRESUMED (log entry
10), that the machine goes on behind an overflow is decision D7 (log entry 13). -/
def Obligations.SstatLagsByOneInstruction : Prop :=
  ∀ (s : State) (b : Bool), s.db = none → s.pcLost = false → s.lpLost = false → s.stsLost = false →
    (∀ r ∈ s.lpstk, r.last ≠ s.pc) → s.lpstackp.setWidth 8 ++ s.lpstacka ≠ s.pc →
    let onPc := [Instr.pushPc .alone, .popPc .alone]
    let onPcAndStatus := [Instr.pushPc .sts, .popPc .sts]
    let onOthers := [Instr.pushSts, .popSts, .pushLoop b, .popLoop b]
    let overflows : Instr → Prop := fun i =>
      ∃ u, exec i s = .next u ∧ sstatBit 1 u 7 = s.stkoverflow ∧ ∀ k, sstatBit (k + 2) u 7 = true
    (∀ i ∈ onPc, ∀ u j, exec i s = .next u → sstatBit 1 u j = (sstatOfFlags s).getLsbD j) ∧
    (∀ i ∈ onPcAndStatus, ∀ u j, exec i s = .next u →
      sstatBit 1 u j = (sstatOfFlags s).getLsbD j ∨ j = 6 ∧ sstatBit 1 u j = (sstatOfFlags u).getLsbD j) ∧
    (∀ i ∈ onOthers, ∀ u j, exec i s = .next u → (lostBits u).getLsbD j = false →
      sstatBit 1 u j = if j = 7 then s.stkoverflow else (sstatOfFlags u).getLsbD j) ∧
    (∀ i ∈ onPc ++ onPcAndStatus ++ onOthers, ∀ u j k, exec i s = .next u → (lostBits u).getLsbD j = false →
      sstatBit (k + 2) u j = (sstatOfFlags u).getLsbD j) ∧
    (s.pcstk.length = 33 → overflows (.pushPc .alone) ∧ overflows (.pushPc .sts)) ∧
    (s.stsstk.length = 16 → overflows .pushSts ∧ overflows (.pushPc .sts)) ∧
    (s.lpstackp.extractLsb' 8 7 = 0 →
      (s.lpstk.length = 8 → overflows (.pushLoop b)) ∧ (s.stsstk.length = 16 → overflows (.pushLoop true)))

/-! ### Cache, interrupt bits, idle, modes -/

/-- R220, R78: `FLUSH CACHE`; six instructions later no word from before a change of program memory is left. Counting the six
cycles in instructions is the model's choice (log entry 19). -/
def Obligations.FlushCacheEmpties : Prop :=
  ∀ s : State, SeqReady s →
    ∃ lines, exec .flushCache s = .next (inSequence { s with icache := lines }) ∧
      ∀ k, (beginInstr^[k + 6] (inSequence { s with icache := lines })).icache = []

/-- R221, R222: `SETINT n` sets bit `n` of `IRPTL`, `CLRINT n` clears it, and no other bit changes. -/
def Obligations.SetintClrintEffect : Prop :=
  ∀ (s : State) (n : BitVec 4), SeqReady s →
    ∃ v w, exec (.setint n) s = .next (inSequence { s with irptl := v }) ∧
      exec (.clrint n) s = .next (inSequence { s with irptl := w }) ∧
      ∀ j, j < 16 → v.getLsbD j = (decide (j = n.toNat) || s.irptl.getLsbD j) ∧
        w.getLsbD j = (!decide (j = n.toNat) && s.irptl.getLsbD j)

/-- R223: `NOP` does nothing but go on in sequence, and going on in sequence changes no register but the program counter and the
hidden state of the sequencer. -/
def Obligations.NopEffect : Prop :=
  ∀ s : State, SeqReady s →
    exec .nop s = .next (inSequence s) ∧
    ∃ pc db lpstk w, inSequence s = { s with pc := pc, db := db, lpstk := lpstk, sstatLag := w }

/-- R230, R232: `IDLE` leaves the core idle, asleep if the sleep bits are programmed on a DSP that has sleep mode. -/
def Obligations.IdleEffect : Prop :=
  ∀ s : State, SeqReady s →
    ((s.cfg.hasSleep = true ∧ s.sleepArmed = true) → exec .idle s = .next (inSequence { s with power := .sleep })) ∧
    (¬(s.cfg.hasSleep = true ∧ s.sleepArmed = true) → exec .idle s = .next (inSequence { s with power := .idle }))

/-- R9: `IDLE (imm4)` is refused on a DSP without Slow Idle, and idles on one that has it. -/
def Obligations.SlowIdleEffect : Prop :=
  ∀ (s : State) (d : BitVec 4), SeqReady s →
    (s.cfg.hasSlowIdle = false → exec (.idleDiv d) s = .refused .noSlowIdle) ∧
    (s.cfg.hasSlowIdle = true → exec (.idleDiv d) s = .next (inSequence { s with power := .slowIdle d }))

/-- R240, R241: `ENA` sets and `DIS` clears the named bits of `MSTAT` and, for `INT`, `ICNTL[5]`; no other bit changes. -/
def Obligations.ModeControlEffect : Prop :=
  ∀ (s : State) (m : ModeSet) (v : Bool), SeqReady s →
    let named : Nat → Bool := fun j =>
      [m.secReg, m.bitRev, m.avLatch, m.arSat, m.mMode, m.timer, m.secDag].getD j false
    ∃ mstat icntl lags,
      exec (if v then .ena m else .dis m) s = .next (inSequence { s with mstat := mstat, icntl := icntl, lags := lags }) ∧
      (∀ j, j < 16 → mstat.getLsbD j = if named j then v else s.mstat.getLsbD j) ∧
      (∀ j, j < 16 → icntl.getLsbD j = if m.int ∧ j = 5 then v else s.icntl.getLsbD j)

/-- R303: the instruction right after `ENA SEC_DAG` or `DIS SEC_DAG` uses the new bank. That it does so also while an older write of
`MSTAT` is still in its window, which R303 and R240 leave open, is the model's choice (DESIGN CHOICE, log entry 35). -/
def Obligations.ModeControlHasNoLatency : Prop :=
  ∀ (s u : State) (m : ModeSet), m.secDag = true →
    (exec (.ena m) s = .next u → secondaryDag (beginInstr u) = true) ∧
    (exec (.dis m) s = .next u → secondaryDag (beginInstr u) = false)

/-! ### Interrupts -/

/-- R254, R256, R257: with no window open, the interrupt entered at a boundary is the lowest-numbered serviceable one; there is
none exactly when nothing is serviceable or a delayed branch is pending (R255). That a serviceable interrupt is always taken,
and none in a delay slot, is the spec's choice D3 (log entry 11), that interrupt 0 is bound by the nesting rule D18 (log entry
31). -/
def Obligations.AcceptedInterrupt : Prop :=
  ∀ s : State, NoWindow .icntl s → NoWindow .imask s → NoWindow .irptl s →
    let ready : BitVec 4 → Prop := fun n =>
      s.irptl.getLsbD n.toNat = true ∧
      (n = 0 ∨ s.icntl.getLsbD 5 = true ∧ s.imask.getLsbD n.toNat = true) ∧
      (∀ h ∈ s.insvc.head?, s.icntl.getLsbD 4 = true ∧ n < h)
    (∀ n, accepted s = some n ↔ s.db = none ∧ ready n ∧ ∀ k, k < n → ¬ready k) ∧
    (accepted s = none ↔ s.db ≠ none ∨ ∀ n, ¬ready n)

/-- R260, R261: taking an interrupt. That the list is complete and clears the latch bit is the spec's choice D20 (log entry 31).
-/
def Obligations.InterruptEntry : Prop :=
  ∀ (s : State) (n : BitVec 4), accepted (takeEvents s) = some n → s.power ≠ .sleep →
    PcRoom (takeEvents s) → StsRoom (takeEvents s) →
    let t := takeEvents s
    ∃ w u, u = withPcStack (t.pc :: t.pcstk) t.cfg.pcHighWater (beginStep t) ∧
      step s = .next
        { u with
          sstatLag := w
          stsstk := { astat := t.astat, mstat := t.mstat } :: t.stsstk
          irptl := u.irptl &&& ~~~bit n
          insvc := n :: t.insvc
          pc := if n = 14 then 0x0001C0 else t.cfg.vectors[n.toNat]
          power := .running }

/-- R262, R191: an `RTI` as the first instruction of the service routine gives back the program counter, the two status
registers, the stacks and the interrupts in service of the moment of entry. It rests on the spec's choices D10 and D20 (log
entry 31). -/
def Obligations.RtiUndoesEntry : Prop :=
  ∀ (s : State) (n : BitVec 4), PcRoom s → StsRoom s → s.db = none → s.lpLost = false →
    insideLoop (vector s.cfg n) s = false →
    ∃ u, exec (.rti .always false false) (beginInstr (enterInterrupt n s)) = .next u ∧
      u.pc = s.pc ∧ u.astat = s.astat ∧ u.mstat = s.mstat ∧ u.pcstk = s.pcstk ∧ u.stsstk = s.stsstk ∧
      u.insvc = s.insvc ∧ u.lpstk = s.lpstk ∧ u.db = none ∧ u.power = .running

/-- R257: at most sixteen interrupts are in service at once. -/
def Obligations.NestingBound : Prop :=
  ∀ s : State, Inv s → s.insvc.length ≤ 16

/-- R230, R231, R232, D11: an idle core that answers a next state has entered an interrupt or changed nothing but what the
events, the draws and the windows of the acceptance check change; a core in sleep mode never goes on. That only an accepted
interrupt wakes the core is the spec's choice (log entry 30), that sleep is a stop the model's (log entry 22). -/
def Obligations.IdleLeftOnlyByEntry : Prop :=
  ∀ s : State,
    ((s.power = .idle ∨ ∃ d, s.power = .slowIdle d) →
      (∃ n, accepted (takeEvents s) = some n ∧ step s = .next (enterInterrupt n (takeEvents s))) ∨
      accepted (takeEvents s) = none ∧ step s = .next (beginStep (takeEvents s)) ∧
        (beginStep (takeEvents s)).power = s.power ∧ (beginStep (takeEvents s)).pc = s.pc) ∧
    (s.power = .sleep → step s = .fault .asleep)

/-- R252, D16: an event of a source that fires while interrupts are globally disabled is lost, interrupt 0 excepted; otherwise
it sets one bit of `IRPTL` and nothing else. The timer is a source only while `MSTAT[5]` is set (R275). The reading of the loss
is the spec's choice (log entry 12). -/
def Obligations.EventsLatchOrAreLost : Prop :=
  ∀ (s : State) (n : BitVec 4),
    (s.icntl.getLsbD 5 = false → n ≠ 0 → takeEvent (.source n) s = s) ∧
    ((s.icntl.getLsbD 5 = true ∨ n = 0) → takeEvent (.source n) s = { s with irptl := s.irptl ||| bit n }) ∧
    (s.mstat.getLsbD 5 = false → takeEvent .timer s = s) ∧
    (s.mstat.getLsbD 5 = true → takeEvent .timer s = takeEvent (.source s.cfg.timerIrq) s)

/-- R251, U22: setting `ICNTL[10]` while `PCSTKLVL` is 1 latches the stack interrupt at once. That every load with bit 10 set
does so is the model's reading (log entry 25). -/
def Obligations.SpillFillSpuriousInterrupt : Prop :=
  ∀ (s : State) (v : Reg16),
    (writeReg .icntl v s).icntl = v ∧
    (writeReg .icntl v s).irptl =
      if v.getLsbD 10 = true ∧ s.pcstklvl = true then s.irptl ||| bit s.cfg.stackIrq else s.irptl

/-! ### The step and the whole machine -/

/-- A STEP RUNS THE DECODED INSTRUCTION (R13, R72, R134, R254). When no interrupt is accepted, the words in program memory at the
program counter decode to `i`, by whichever `DECODE` the DSP has, nothing stale is cached and the program may hold `i` there, the
step is the environment's move, the beginning of an instruction (its place in the program text is noted, the windows age, the draws
are fresh), and `exec i`. -/
def Obligations.StepRunsDecodedInstruction : Prop :=
  ∀ (s : State) (i : Instr) (w1 w2 : PWord),
    let t := takeEvents s
    s.power = .running → accepted t = none → t.icache = [] → t.mem.readWord t.pc = some w1 →
    (i.len = .two → t.mem.readWord (t.pc + 1) = some w2) →
    decodeBy t.cfg.coding (if i.len = .two then [w1, w2] else [w1]) = .ok (.core i, []) → admission i t = none →
    step s = exec i (beginInstr (noteText (.core i) t))

/-- An instruction placed by `withFetchWord` is the one that is fetched (R72). The words are the model's own numbering (log
entries 1, 6). -/
def Obligations.PlacedInstructionIsFetched : Prop :=
  ∀ (s : State) (nbits w : Nat) (i : Instr), decodeTableWord nbits w = some i →
    fetch (s.withFetchWord nbits w) = .ok (.core i)

/-- R110, R111, R131 to R133, R157, R160, R217: what a program may not hold where it stands is refused before it executes, also where
the branch or the `DO UNTIL` concerned has not executed: an ill-formed term; a barred instruction, or a two-word instruction of another
chapter in the second position, behind a delayed branch, taken or not; `PUSH` or `POP` within six one-word instructions of the end of
a loop, one on the loop stacks, one of the program text whose record need not be there, or the one a `PUSH LOOP` arms; and a second
loop on the stacks, or a second `DO UNTIL` of the program text, with the end of another. What the check over the whole program
(R111) reports, a call in the last line of a loop and a return inside one among it, is refused at its place by the same name, a call or
a return when its condition holds (`BranchesAtLoopEnd` and `ReturnStops` say it of every state). Refusing is the spec's choice, how
the model knows the program text is its own (log entry 23). -/
def Obligations.ForbiddenPlacesRefused : Prop :=
  ∀ s : State,
    let declared : Addr → Instr → Prop := fun a i => a ∈ s.text ∧ instrAt s.cfg.coding s.mem a = some (.core i)
    let branchAt : Addr → Prop := fun a => a ∈ s.slotSites ∨ ∃ i, declared a i ∧ isDelayedBranch i = true
    let loopOf : Addr → Addr → Prop := fun site last =>
      (∃ l ∈ s.loopSites, l.site = site ∧ l.last = last) ∨
      ∃ imm term, declared site (.doUntil imm term) ∧ last = site + imm.setWidth 24
    let slotOfBranch := branchAt (s.pc - 1) ∨ branchAt (s.pc - 2)
    let lines : Addr → Addr → Instr → Prop := fun start last i =>
      (∃ r ∈ s.lpstk, r.start = start ∧ r.last = last) ∨ (∃ site, loopOf site last ∧ start = site + 1) ∨
      (∃ b, i = .pushLoop b) ∧ s.stackp ++ s.stacka = start ∧ s.lpstackp.setWidth 8 ++ s.lpstacka = last
    (∀ i, fetch s = .ok (.core i) →
      (∀ p, i.problem = some p → runInstr s = .refused (.illFormed p)) ∧
      (i.problem = none → s.db ≠ none ∨ slotOfBranch → barredInSlot i = true → runInstr s = .refused .barredInDelaySlot) ∧
      (∀ (start last : Addr) (k : Nat), i.problem = none → isStackOp i = true → s.db = none → ¬slotOfBranch →
        lines start last i → s.pc - start ≤ last - start → k ≤ 6 → last = s.pc + BitVec.ofNat 24 k →
        (∀ j, j < k → ∃ w, s.mem.readWord (s.pc + BitVec.ofNat 24 j) = some w ∧ lengthBy s.cfg.coding w = .one) →
        runInstr s = .refused .stackOpNearLoopEnd) ∧
      (∀ (imm : BitVec 12) (term : Term), i = .doUntil imm term → imm ≠ 0 → s.db = none → ¬slotOfBranch →
        (∃ r ∈ s.lpstk, r.last = s.pc + imm.setWidth 24) ∨ (∃ site, site ≠ s.pc ∧ loopOf site (s.pc + imm.setWidth 24)) →
        runInstr s = .refused .sharedLoopEnd) ∧
      (∀ b, i = .pushLoop b → s.db = none → ¬slotOfBranch → nearLoopEnd i s = false →
        (∃ r ∈ s.lpstk, r.last = s.lpstackp.setWidth 8 ++ s.lpstacka) → runInstr s = .refused .sharedLoopEnd)) ∧
    (fetch s = .ok (.other .two) → s.others ≠ [] →
      (branchAt (s.pc - 2) ∨ ∃ t, s.db = some ⟨.one, t⟩) → runInstr s = .refused .twoWordInSecondSlot) ∧
    (∀ a r, programProblem s = some (a, r) → s.icache = [] → s.db = none → s.others ≠ [] → s.lpLost = false →
      s.cfg.emulation = false →
      (∀ i, instrAt s.cfg.coding s.mem a = some (.core i) →
        (evalCond (conditionOf i) (beginInstr (noteText (.core i) { s with pc := a }))).1 = true) →
      runInstr { s with pc := a } = .refused r)

/-- R78, D2: after an instruction of another chapter stores a word of program memory, a fetch of that address gives the old or
the new word; every other word is fetched as before, every byte of another word is unchanged, and memory keeps its canonical
form. The form of the cache is the model's choice (log entries 19, 20). -/
def Obligations.StoredWordIsFetchedOldOrNew : Prop :=
  ∀ (s : State) (x : Site) (a : Addr) (v w : PWord), s.mem.readWord a = some v → staleWords a s = [] →
    let t := applyEffect (.storeWord a w) s
    (∃ r, fetchWord x a t = some r ∧ (r = v ∨ r = w)) ∧
    (∀ b, b ≠ a → fetchWord x b t = fetchWord x b s ∧
      ∀ j, j < 3 → t.mem.readByte (byteKey b j) = s.mem.readByte (byteKey b j)) ∧
    (s.mem.wf = true → t.mem.wf = true)

/-- R84, R23 to R25, R27, R38: no instruction of the set writes memory, a register of a DAG or data bank, `IJPG`, `IOPG`, `CCODE` or
`IMASK`, nor what is not the program's: the parameters of the DSP, the schedules, the sleep bits and the program text with what the
step has noted of it. -/
def Obligations.InstructionFrame : Prop :=
  ∀ (i : Instr) (s t : State), exec i s = .next t →
    (∀ k, t.mem.readByte k = s.mem.readByte k) ∧ t.mem = s.mem ∧ t.dagPri = s.dagPri ∧ t.dagSec = s.dagSec ∧
    t.dataPri = s.dataPri ∧ t.dataSec = s.dataSec ∧ t.ijpg = s.ijpg ∧ t.iopg = s.iopg ∧ t.ccode = s.ccode ∧
    t.imask = s.imask ∧ t.cfg = s.cfg ∧ t.sleepArmed = s.sleepArmed ∧ t.events = s.events ∧ t.others = s.others ∧
    t.tick = s.tick ∧ t.text = s.text ∧ t.slotSites = s.slotSites ∧ t.loopSites = s.loopSites ∧
    t.popSites = s.popSites

/-- R26, R28 to R31, R37, R48, R49: which instructions write which register. `ASTAT` is written by `RTI` and `POP STS` alone, `MSTAT`
by those and `ENA`, `DIS`, `ICNTL` by `ENA`, `DIS` alone, the stack registers and, apart from `IF NOT CE`, `CNTR` by the pops alone,
the interrupts in service by `RTI` alone, the idle state by `IDLE` alone, `STKOVERFLOW` by the pushes alone. -/
def Obligations.RegisterWriters : Prop :=
  ∀ (i : Instr) (s t : State), exec i s = .next t →
    let isRti := ∃ c db ss, i = .rti c db ss
    let popsSts := i = .popSts ∨ i = .popPc .sts ∨ i = .popLoop true
    let popsLoop := i = .popPc .loop ∨ ∃ b, i = .popLoop b
    let popsPc := ∃ p, i = .popPc p
    let modeControl := ∃ m, i = .ena m ∨ i = .dis m
    let pushes := (∃ p, i = .pushPc p) ∨ (∃ b, i = .pushLoop b) ∨ i = .pushSts ∨ (∃ imm k, i = .doUntil imm k) ∨
      (∃ imm db, i = .callRel16 imm db) ∨ (∃ c a, i = .lcall c a) ∨ ∃ c r db, i = .callInd c r db
    (t.astat ≠ s.astat → isRti ∨ popsSts) ∧
    (t.mstat ≠ s.mstat → isRti ∨ popsSts ∨ modeControl) ∧
    (t.icntl ≠ s.icntl → modeControl) ∧
    ((t.stacka ≠ s.stacka ∨ t.stackp ≠ s.stackp) → popsPc ∨ popsLoop) ∧
    ((t.lpstacka ≠ s.lpstacka ∨ t.lpstackp ≠ s.lpstackp) → popsLoop) ∧
    (t.insvc ≠ s.insvc → isRti) ∧
    (t.power ≠ s.power → i = .idle ∨ ∃ d, i = .idleDiv d) ∧
    (t.stkoverflow ≠ s.stkoverflow → pushes) ∧
    (t.cntr ≠ s.cntr → popsLoop ∨ (∃ imm db, i = .jumpRel13 .notCe imm db) ∨ (∃ a, i = .lcall .notCe a) ∨
      (∃ a, i = .ljump .notCe a) ∨ (∃ r db, i = .callInd .notCe r db) ∨ (∃ r db, i = .jumpInd .notCe r db) ∨
      (∃ db ss, i = .rti .notCe db ss) ∨ ∃ db, i = .rts .notCe db)

/-- R52, R290: after reset spill-fill mode is disabled. The other values of the reset state are the model's choice (log entries 4, 5);
it meets the invariant. -/
def Obligations.ResetState : Prop :=
  State.reset.icntl.getLsbD 10 = false ∧ Inv State.reset ∧ State.reset.cfg.wf = true

/-- R42, R43, R46, R48, R70, R111, R133, R206, R257: every step keeps the invariant. -/
def Obligations.StepKeepsInv : Prop :=
  ∀ s t : State, Inv s → step s = .next t → Inv t

/-! ### Encoding -/

/-- The words the encoder writes for an instruction decode to it (the model's own numbering, log entry 1). -/
def Obligations.DecodeOfEncode : Prop :=
  ∀ (i : Instr) (rest : List PWord), i.WellFormed → decode (encode i ++ rest) = .ok (.core i, rest)

/-- No other words decode to an instruction of the set (log entry 1). -/
def Obligations.EncodeOfDecode : Prop :=
  ∀ (ws rest : List PWord) (i : Instr), decode ws = .ok (.core i, rest) → ws = encode i ++ rest

/-- A few words written out from the table of `Decode.lean` (log entry 1). -/
def Obligations.DecodedWords : Prop :=
  decode [0x041003#24] = .ok (.core (.doUntil 3 .forever), []) ∧
  decode [0x09FFF0#24] = .ok (.core (.jumpRel13 .always 0x1FF0 false), []) ∧
  decode [0x140000#24, 0x123456#24] = .ok (.core (.lcall .eq 0x123456), []) ∧
  decode [0x28001F#24] = .ok (.core (.rts .always true), []) ∧
  decode [0x2C0001#24] = .ok (.core (.pushPc .sts), []) ∧
  decode [0x48000C#24] = .ok (.core (.setint 12), []) ∧
  decode [0x7C0000#24] = .error .reservedOpcode
end

