-- ==== Sys2Proof/Laws/Decode.lean ====
section
/-! SUPPORT. Fields of the words of `Decode.lean`: what the encoder places is what the decoder takes out. -/

namespace Sys2Proof

theorem opcodeOf_firstWord (r : BitVec 6) (p : BitVec 18) : opcodeOf (firstWord r p) = r := by
  ext i hi
  simp only [opcodeOf, firstWord, BitVec.getElem_extractLsb', BitVec.getLsbD_append]
  have h : ¬ (18 + i < 18) := by omega
  simp [h, BitVec.getLsbD_eq_getElem hi]

theorem operandsOf_firstWord (r : BitVec 6) (p : BitVec 18) : operandsOf (firstWord r p) = p := by
  ext i hi
  simp only [operandsOf, firstWord, BitVec.getElem_extractLsb', BitVec.getLsbD_append]
  simp [hi]

/-- A word is its row number and its operands. -/
theorem firstWord_of_parts (w : PWord) : firstWord (opcodeOf w) (operandsOf w) = w := by
  apply BitVec.eq_of_getLsbD_eq
  intro i hi
  simp only [opcodeOf, operandsOf, firstWord, BitVec.getLsbD_append, BitVec.getLsbD_extractLsb']
  by_cases h : i < 18
  · simp [h]
  · have h1 : i - 18 < 6 := by omega
    have h2 : 18 + (i - 18) = i := by omega
    simp [h, h1, h2]

/-- A bit of a one-bit operand. -/
theorem getLsbD_bitAt (k i : Nat) (b : Bool) : (bitAt k b).getLsbD i = (decide (i < 18) && decide (i = k) && b) := by
  simp only [bitAt, BitVec.getLsbD_shiftLeft, BitVec.getLsbD_setWidth, BitVec.getLsbD_ofBool]
  by_cases h : i = k
  · subst h
    simp
  · by_cases h3 : i < k
    · simp [h, h3]
    · have h4 : i - k ≠ 0 := by omega
      simp [h, h4]

/-- A bit of a wider operand. -/
theorem getLsbD_fieldAt {n : Nat} (k i : Nat) (v : BitVec n) :
    (fieldAt k v).getLsbD i = (decide (i < 18) && decide (k ≤ i) && v.getLsbD (i - k)) := by
  simp only [fieldAt, BitVec.getLsbD_shiftLeft, BitVec.getLsbD_setWidth]
  by_cases h2 : i < 18 <;> by_cases h3 : i < k
  · simp [h2, h3]
  · have h4 : i - k < 18 := by omega
    have h5 : k ≤ i := by omega
    simp [h2, h3, h4, h5]
  · simp [h2]
  · simp [h2]

/-- A field comes out as it went in, whatever stands beside it outside its bits. -/
theorem extract_field {n k : Nat} (x : BitVec 18) (v : BitVec n) (hk : k + n ≤ 18)
    (hx : ∀ i, i < n → x.getLsbD (k + i) = false) : (x ||| fieldAt k v).extractLsb' k n = v := by
  apply BitVec.eq_of_getLsbD_eq
  intro i hi
  have h1 : k + i < 18 := by omega
  have h2 : k + i - k = i := by omega
  simp only [BitVec.getLsbD_extractLsb', BitVec.getLsbD_or, hx i hi, getLsbD_fieldAt, h1, h2, hi]
  simp

/-- A field comes out as it went in, with another operand above it in the disjunction. -/
theorem extract_field_left {n k : Nat} (x : BitVec 18) (v : BitVec n) (hk : k + n ≤ 18)
    (hx : ∀ i, i < n → x.getLsbD (k + i) = false) : (fieldAt k v ||| x).extractLsb' k n = v := by
  rw [BitVec.or_comm]
  exact extract_field x v hk hx

/-- Nothing stands above the operands. -/
theorem shift_eq_zero {k : Nat} (x : BitVec 18) (hx : ∀ i, k ≤ i → i < 18 → x.getLsbD i = false) : x >>> k = 0 := by
  apply BitVec.eq_of_getLsbD_eq
  intro i hi
  simp only [BitVec.getLsbD_ushiftRight]
  by_cases h : k + i < 18
  · simpa using hx (k + i) (by omega) h
  · simpa using BitVec.getLsbD_of_ge x (k + i) (by omega)

theorem condOf_condCode (c : Cond) : condOf (condCode c) = c := by
  cases c <;> rfl

theorem condCode_condOf (c : BitVec 4) : condCode (condOf c) = c := by
  revert c
  decide

theorem termOf_termBit (t : Term) : termOf (termBit t) = t := by
  cases t <;> rfl

theorem termBit_termOf (b : Bool) : termBit (termOf b) = b := by
  cases b <;> rfl

theorem partnerOf_partnerCode (p : PcPartner) : partnerOf (partnerCode p) = some p := by
  cases p <;> rfl

theorem modeBits_modesOf (b : BitVec 8) : modeBits (modesOf b) = b := by
  revert b
  decide

theorem modesOf_modeBits (m : ModeSet) : modesOf (modeBits m) = m := by
  obtain ⟨a, b, c, d, e, f, g, h⟩ := m
  cases a <;> cases b <;> cases c <;> cases d <;> cases e <;> cases f <;> cases g <;> cases h <;> rfl

/-- The first word of a word list alone decides the length. -/
theorem lengthOf_whole {w : PWord} {i : Instr} (h : decodeFirst w = .ok (.whole i)) : lengthOf w = .one := by
  simp [lengthOf, h]

end Sys2Proof
end

