-- ==== Sys2Proof/Laws/Memory.lean ====
section
/-! SUPPORT. Program memory: every operation keeps the canonical form, a read after a write of the same word gives the value
written, and a write leaves every other byte and word alone. -/

namespace Sys2Proof.Machine

/-! ### Bytes -/

theorem Memory.readByte_writeByte (m : Memory) (k : Nat) (b : BitVec 8) : (m.writeByte k b).readByte k = some b := by
  induction m with
  | nil => simp [Memory.writeByte, Memory.readByte]
  | cons c m ih =>
    simp only [Memory.writeByte]
    split
    · simp [Memory.readByte]
    · split
      · simp [Memory.readByte]
      · rename_i h
        simp [Memory.readByte, Ne.symm h, ih]

theorem Memory.readByte_writeByte_ne (m : Memory) {k j : Nat} (b : BitVec 8) (h : j ≠ k) :
    (m.writeByte k b).readByte j = m.readByte j := by
  induction m with
  | nil => simp [Memory.writeByte, Memory.readByte, h.symm]
  | cons c m ih =>
    simp only [Memory.writeByte]
    split
    · simp [Memory.readByte, h.symm]
    · split
      · rename_i hk
        subst hk
        simp [Memory.readByte, h.symm]
      · simp [Memory.readByte, ih]

theorem Memory.below_writeByte (m : Memory) {k j : Nat} (b : BitVec 8) (hj : j < k) (hm : Memory.below j m = true) :
    Memory.below j (m.writeByte k b) = true := by
  cases m with
  | nil => simpa [Memory.writeByte, Memory.below] using hj
  | cons c m =>
    simp only [Memory.writeByte]
    split
    · simpa [Memory.below] using hj
    · split
      · simpa [Memory.below] using hj
      · simpa [Memory.below] using hm

/-- A byte write keeps the canonical form. -/
theorem Memory.wf_writeByte (m : Memory) {k : Nat} (b : BitVec 8) (hk : k < 3 * 2 ^ 24) (hm : m.wf = true) :
    (m.writeByte k b).wf = true := by
  induction m with
  | nil => simpa [Memory.writeByte, Memory.wf, Memory.below] using hk
  | cons c m ih =>
    simp only [Memory.wf, Bool.and_eq_true, decide_eq_true_eq] at hm
    obtain ⟨⟨hc, hb⟩, hm'⟩ := hm
    simp only [Memory.writeByte]
    split
    · rename_i hlt
      simp only [Memory.wf, Bool.and_eq_true, decide_eq_true_eq]
      exact ⟨⟨hk, by simpa [Memory.below] using hlt⟩, ⟨hc, hb⟩, hm'⟩
    · split
      · rename_i heq
        subst heq
        simp only [Memory.wf, Bool.and_eq_true, decide_eq_true_eq]
        exact ⟨⟨hk, hb⟩, hm'⟩
      · rename_i hlt hne
        simp only [Memory.wf, Bool.and_eq_true, decide_eq_true_eq]
        exact ⟨⟨hc, Memory.below_writeByte m b (by omega) hb⟩, ih hm'⟩

/-! ### Words -/

theorem byteKey_lt (a : Addr) {j : Nat} (hj : j < 3) : byteKey a j < 3 * 2 ^ 24 := by
  have := a.isLt
  simp only [byteKey]
  omega

theorem byteKey_inj {a b : Addr} {i j : Nat} (hi : i < 3) (hj : j < 3) (h : byteKey a i = byteKey b j) : a = b ∧ i = j := by
  simp only [byteKey] at h
  exact ⟨BitVec.eq_of_toNat_eq (by omega), by omega⟩

/-- A word write keeps the canonical form. -/
theorem Memory.wf_writeWord (m : Memory) (a : Addr) (w : PWord) (hm : m.wf = true) : (m.writeWord a w).wf = true :=
  Memory.wf_writeByte _ _ (byteKey_lt a (by omega))
    (Memory.wf_writeByte _ _ (byteKey_lt a (by omega)) (Memory.wf_writeByte _ _ (byteKey_lt a (by omega)) hm))

/-- A word write leaves every byte of every other word alone. -/
theorem Memory.readByte_writeWord_ne (m : Memory) {a b : Addr} (w : PWord) (h : b ≠ a) {j : Nat} (hj : j < 3) :
    (m.writeWord a w).readByte (byteKey b j) = m.readByte (byteKey b j) := by
  have hne : ∀ i, i < 3 → byteKey b j ≠ byteKey a i := fun i hi he => h (byteKey_inj hj hi he).1
  simp only [Memory.writeWord]
  rw [Memory.readByte_writeByte_ne _ _ (hne 2 (by omega)), Memory.readByte_writeByte_ne _ _ (hne 1 (by omega)),
    Memory.readByte_writeByte_ne _ _ (hne 0 (by omega))]

theorem bytes_of_word (w : PWord) : w.extractLsb' 16 8 ++ w.extractLsb' 8 8 ++ w.extractLsb' 0 8 = w := by
  ext i hi
  simp only [BitVec.getElem_append, BitVec.getElem_extractLsb']
  split
  · simp [BitVec.getLsbD_eq_getElem hi]
  · split
    · rename_i h1 h2
      have : 8 + (i - 8) = i := by omega
      rw [this, BitVec.getLsbD_eq_getElem hi]
    · rename_i h1 h2
      have : 16 + (i - 8 - 8) = i := by omega
      rw [this, BitVec.getLsbD_eq_getElem hi]

/-- A read after a write of the same word gives the value written. -/
theorem Memory.readWord_writeWord (m : Memory) (a : Addr) (w : PWord) : (m.writeWord a w).readWord a = some w := by
  have h01 : byteKey a 0 ≠ byteKey a 1 := by simp [byteKey]
  have h02 : byteKey a 0 ≠ byteKey a 2 := by simp [byteKey]
  have h12 : byteKey a 1 ≠ byteKey a 2 := by simp [byteKey]
  simp only [Memory.readWord, Memory.writeWord]
  rw [Memory.readByte_writeByte_ne _ _ h02, Memory.readByte_writeByte_ne _ _ h01, Memory.readByte_writeByte,
    Memory.readByte_writeByte_ne _ _ h12, Memory.readByte_writeByte, Memory.readByte_writeByte]
  simp only [Option.some.injEq]
  exact bytes_of_word w

/-- A write leaves every other word alone. -/
theorem Memory.readWord_writeWord_ne (m : Memory) {a b : Addr} (w : PWord) (h : b ≠ a) :
    (m.writeWord a w).readWord b = m.readWord b := by
  simp only [Memory.readWord]
  rw [Memory.readByte_writeWord_ne m w h (by omega), Memory.readByte_writeWord_ne m w h (by omega),
    Memory.readByte_writeWord_ne m w h (by omega)]

/-- Nothing below the canonical form reads: a list below a key has no value at that key. -/
theorem Memory.readByte_of_below {m : Memory} {k : Nat} (hm : m.wf = true) (hb : Memory.below k m = true) :
    m.readByte k = none := by
  induction m with
  | nil => rfl
  | cons c m ih =>
    simp only [Memory.wf, Bool.and_eq_true, decide_eq_true_eq] at hm
    simp only [Memory.below, decide_eq_true_eq] at hb
    have hne : c.1 ≠ k := by omega
    simp only [Memory.readByte, hne, if_false]
    refine ih hm.2 ?_
    cases m with
    | nil => rfl
    | cons d m =>
      have := hm.1.2
      simp only [Memory.below, decide_eq_true_eq] at this ⊢
      omega

/-- Equal memories are equal data: two memories in canonical form that read alike are one list. -/
theorem Memory.ext_of_wf {m n : Memory} (hm : m.wf = true) (hn : n.wf = true) (h : ∀ k, m.readByte k = n.readByte k) :
    m = n := by
  induction m generalizing n with
  | nil =>
    cases n with
    | nil => rfl
    | cons d n => simpa [Memory.readByte] using h d.1
  | cons c m ih =>
    cases n with
    | nil => simpa [Memory.readByte] using h c.1
    | cons d n =>
      have hm0 := hm
      have hn0 := hn
      simp only [Memory.wf, Bool.and_eq_true, decide_eq_true_eq] at hm hn
      have key : c.1 = d.1 := by
        rcases Nat.lt_trichotomy c.1 d.1 with hlt | heq | hgt
        · have h1 : Memory.readByte (d :: n) c.1 = none := Memory.readByte_of_below hn0 (by simpa [Memory.below] using hlt)
          have h2 := h c.1
          rw [h1] at h2
          simp [Memory.readByte] at h2
        · exact heq
        · have h1 : Memory.readByte (c :: m) d.1 = none := Memory.readByte_of_below hm0 (by simpa [Memory.below] using hgt)
          have h2 := h d.1
          rw [h1] at h2
          simp [Memory.readByte] at h2
      have hval : c.2 = d.2 := by
        have := h c.1
        simpa [Memory.readByte, key] using this
      have hcd : c = d := Prod.ext key hval
      subst hcd
      refine congrArg (c :: ·) (ih hm.2 hn.2 fun k => ?_)
      by_cases hk : c.1 = k
      · subst hk
        rw [Memory.readByte_of_below hm.2 hm.1.2, Memory.readByte_of_below hn.2 hn.1.2]
      · simpa [Memory.readByte, hk] using h k

/-! ### Reset, and placing an instruction -/

theorem reset_memory_wf : State.reset.mem.wf = true := rfl

theorem withFetchWord_memory_wf (s : State) (nbits w : Nat) (h : s.mem.wf = true) : (s.withFetchWord nbits w).mem.wf = true :=
  Memory.wf_writeWord _ _ _ (Memory.wf_writeWord _ _ _ h)

end Sys2Proof.Machine
end

