-- ==== Sys2Proof/Laws/PerInstr.lean ====
section
/-! SUPPORT. Facts stated of every instruction, one lemma for each constructor. -/

namespace Sys2Proof.Laws

/-- The encoder writes as many words as the instruction has (R90). -/
def EncodedLength.Statement (i : Instr) : Prop :=
  (encode i).length = match i.len with
    | .one => 1
    | .two => 2

theorem EncodedLength.doUntil (imm12 : BitVec 12) (term : Term) : EncodedLength.Statement (.doUntil imm12 term) := rfl

theorem EncodedLength.jumpRel13 (cond : Cond) (imm13 : BitVec 13) (db : Bool) : EncodedLength.Statement (.jumpRel13 cond imm13 db) := rfl

theorem EncodedLength.callRel16 (imm16 : BitVec 16) (db : Bool) : EncodedLength.Statement (.callRel16 imm16 db) := rfl

theorem EncodedLength.jumpRel16 (imm16 : BitVec 16) (db : Bool) : EncodedLength.Statement (.jumpRel16 imm16 db) := rfl

theorem EncodedLength.lcall (cond : Cond) (addr : Addr) : EncodedLength.Statement (.lcall cond addr) := rfl

theorem EncodedLength.ljump (cond : Cond) (addr : Addr) : EncodedLength.Statement (.ljump cond addr) := rfl

theorem EncodedLength.callInd (cond : Cond) (ireg : BitVec 3) (db : Bool) : EncodedLength.Statement (.callInd cond ireg db) := rfl

theorem EncodedLength.jumpInd (cond : Cond) (ireg : BitVec 3) (db : Bool) : EncodedLength.Statement (.jumpInd cond ireg db) := rfl

theorem EncodedLength.rti (cond : Cond) (db : Bool) (ss : Bool) : EncodedLength.Statement (.rti cond db ss) := rfl

theorem EncodedLength.rts (cond : Cond) (db : Bool) : EncodedLength.Statement (.rts cond db) := rfl

theorem EncodedLength.pushPc (partner : PcPartner) : EncodedLength.Statement (.pushPc partner) := rfl

theorem EncodedLength.popPc (partner : PcPartner) : EncodedLength.Statement (.popPc partner) := rfl

theorem EncodedLength.pushLoop (sts : Bool) : EncodedLength.Statement (.pushLoop sts) := rfl

theorem EncodedLength.popLoop (sts : Bool) : EncodedLength.Statement (.popLoop sts) := rfl

theorem EncodedLength.pushSts : EncodedLength.Statement .pushSts := rfl

theorem EncodedLength.popSts : EncodedLength.Statement .popSts := rfl

theorem EncodedLength.flushCache : EncodedLength.Statement .flushCache := rfl

theorem EncodedLength.setint (n : BitVec 4) : EncodedLength.Statement (.setint n) := rfl

theorem EncodedLength.clrint (n : BitVec 4) : EncodedLength.Statement (.clrint n) := rfl

theorem EncodedLength.nop : EncodedLength.Statement .nop := rfl

theorem EncodedLength.idle : EncodedLength.Statement .idle := rfl

theorem EncodedLength.idleDiv (imm4 : BitVec 4) : EncodedLength.Statement (.idleDiv imm4) := rfl

theorem EncodedLength.ena (modes : ModeSet) : EncodedLength.Statement (.ena modes) := rfl

theorem EncodedLength.dis (modes : ModeSet) : EncodedLength.Statement (.dis modes) := rfl

end Sys2Proof.Laws
end

