-- ==== Sys2Proof/Laws/State.lean ====
section
/-! SUPPORT. One lemma for each named update of the state and each field it leaves alone, so that no proof unfolds an update. -/

namespace Sys2Proof.Machine

variable (s : State)

/-! ### `latch` -/

@[simp] theorem latch_cfg (n : BitVec 4) : (latch n s).cfg = s.cfg := rfl
@[simp] theorem latch_pc (n : BitVec 4) : (latch n s).pc = s.pc := rfl
@[simp] theorem latch_mem (n : BitVec 4) : (latch n s).mem = s.mem := rfl
@[simp] theorem latch_dagPri (n : BitVec 4) : (latch n s).dagPri = s.dagPri := rfl
@[simp] theorem latch_dagSec (n : BitVec 4) : (latch n s).dagSec = s.dagSec := rfl
@[simp] theorem latch_dataPri (n : BitVec 4) : (latch n s).dataPri = s.dataPri := rfl
@[simp] theorem latch_dataSec (n : BitVec 4) : (latch n s).dataSec = s.dataSec := rfl
@[simp] theorem latch_ijpg (n : BitVec 4) : (latch n s).ijpg = s.ijpg := rfl
@[simp] theorem latch_iopg (n : BitVec 4) : (latch n s).iopg = s.iopg := rfl
@[simp] theorem latch_cntr (n : BitVec 4) : (latch n s).cntr = s.cntr := rfl
@[simp] theorem latch_ccode (n : BitVec 4) : (latch n s).ccode = s.ccode := rfl
@[simp] theorem latch_stacka (n : BitVec 4) : (latch n s).stacka = s.stacka := rfl
@[simp] theorem latch_stackp (n : BitVec 4) : (latch n s).stackp = s.stackp := rfl
@[simp] theorem latch_lpstacka (n : BitVec 4) : (latch n s).lpstacka = s.lpstacka := rfl
@[simp] theorem latch_lpstackp (n : BitVec 4) : (latch n s).lpstackp = s.lpstackp := rfl
@[simp] theorem latch_astat (n : BitVec 4) : (latch n s).astat = s.astat := rfl
@[simp] theorem latch_mstat (n : BitVec 4) : (latch n s).mstat = s.mstat := rfl
@[simp] theorem latch_icntl (n : BitVec 4) : (latch n s).icntl = s.icntl := rfl
@[simp] theorem latch_imask (n : BitVec 4) : (latch n s).imask = s.imask := rfl
@[simp] theorem latch_pcstk (n : BitVec 4) : (latch n s).pcstk = s.pcstk := rfl
@[simp] theorem latch_lpstk (n : BitVec 4) : (latch n s).lpstk = s.lpstk := rfl
@[simp] theorem latch_stsstk (n : BitVec 4) : (latch n s).stsstk = s.stsstk := rfl
@[simp] theorem latch_pcLost (n : BitVec 4) : (latch n s).pcLost = s.pcLost := rfl
@[simp] theorem latch_lpLost (n : BitVec 4) : (latch n s).lpLost = s.lpLost := rfl
@[simp] theorem latch_stsLost (n : BitVec 4) : (latch n s).stsLost = s.stsLost := rfl
@[simp] theorem latch_pcstklvl (n : BitVec 4) : (latch n s).pcstklvl = s.pcstklvl := rfl
@[simp] theorem latch_stkoverflow (n : BitVec 4) : (latch n s).stkoverflow = s.stkoverflow := rfl
@[simp] theorem latch_db (n : BitVec 4) : (latch n s).db = s.db := rfl
@[simp] theorem latch_slotSites (n : BitVec 4) : (latch n s).slotSites = s.slotSites := rfl
@[simp] theorem latch_popSites (n : BitVec 4) : (latch n s).popSites = s.popSites := rfl
@[simp] theorem latch_loopSites (n : BitVec 4) : (latch n s).loopSites = s.loopSites := rfl
@[simp] theorem latch_insvc (n : BitVec 4) : (latch n s).insvc = s.insvc := rfl
@[simp] theorem latch_power (n : BitVec 4) : (latch n s).power = s.power := rfl
@[simp] theorem latch_sleepArmed (n : BitVec 4) : (latch n s).sleepArmed = s.sleepArmed := rfl
@[simp] theorem latch_icache (n : BitVec 4) : (latch n s).icache = s.icache := rfl
@[simp] theorem latch_lags (n : BitVec 4) : (latch n s).lags = s.lags := rfl
@[simp] theorem latch_sstatLag (n : BitVec 4) : (latch n s).sstatLag = s.sstatLag := rfl
@[simp] theorem latch_tick (n : BitVec 4) : (latch n s).tick = s.tick := rfl
@[simp] theorem latch_events (n : BitVec 4) : (latch n s).events = s.events := rfl
@[simp] theorem latch_text (n : BitVec 4) : (latch n s).text = s.text := rfl
@[simp] theorem latch_others (n : BitVec 4) : (latch n s).others = s.others := rfl

/-! ### `clearLatch` -/

@[simp] theorem clearLatch_cfg (n : BitVec 4) : (clearLatch n s).cfg = s.cfg := rfl
@[simp] theorem clearLatch_pc (n : BitVec 4) : (clearLatch n s).pc = s.pc := rfl
@[simp] theorem clearLatch_mem (n : BitVec 4) : (clearLatch n s).mem = s.mem := rfl
@[simp] theorem clearLatch_dagPri (n : BitVec 4) : (clearLatch n s).dagPri = s.dagPri := rfl
@[simp] theorem clearLatch_dagSec (n : BitVec 4) : (clearLatch n s).dagSec = s.dagSec := rfl
@[simp] theorem clearLatch_dataPri (n : BitVec 4) : (clearLatch n s).dataPri = s.dataPri := rfl
@[simp] theorem clearLatch_dataSec (n : BitVec 4) : (clearLatch n s).dataSec = s.dataSec := rfl
@[simp] theorem clearLatch_ijpg (n : BitVec 4) : (clearLatch n s).ijpg = s.ijpg := rfl
@[simp] theorem clearLatch_iopg (n : BitVec 4) : (clearLatch n s).iopg = s.iopg := rfl
@[simp] theorem clearLatch_cntr (n : BitVec 4) : (clearLatch n s).cntr = s.cntr := rfl
@[simp] theorem clearLatch_ccode (n : BitVec 4) : (clearLatch n s).ccode = s.ccode := rfl
@[simp] theorem clearLatch_stacka (n : BitVec 4) : (clearLatch n s).stacka = s.stacka := rfl
@[simp] theorem clearLatch_stackp (n : BitVec 4) : (clearLatch n s).stackp = s.stackp := rfl
@[simp] theorem clearLatch_lpstacka (n : BitVec 4) : (clearLatch n s).lpstacka = s.lpstacka := rfl
@[simp] theorem clearLatch_lpstackp (n : BitVec 4) : (clearLatch n s).lpstackp = s.lpstackp := rfl
@[simp] theorem clearLatch_astat (n : BitVec 4) : (clearLatch n s).astat = s.astat := rfl
@[simp] theorem clearLatch_mstat (n : BitVec 4) : (clearLatch n s).mstat = s.mstat := rfl
@[simp] theorem clearLatch_icntl (n : BitVec 4) : (clearLatch n s).icntl = s.icntl := rfl
@[simp] theorem clearLatch_imask (n : BitVec 4) : (clearLatch n s).imask = s.imask := rfl
@[simp] theorem clearLatch_pcstk (n : BitVec 4) : (clearLatch n s).pcstk = s.pcstk := rfl
@[simp] theorem clearLatch_lpstk (n : BitVec 4) : (clearLatch n s).lpstk = s.lpstk := rfl
@[simp] theorem clearLatch_stsstk (n : BitVec 4) : (clearLatch n s).stsstk = s.stsstk := rfl
@[simp] theorem clearLatch_pcLost (n : BitVec 4) : (clearLatch n s).pcLost = s.pcLost := rfl
@[simp] theorem clearLatch_lpLost (n : BitVec 4) : (clearLatch n s).lpLost = s.lpLost := rfl
@[simp] theorem clearLatch_stsLost (n : BitVec 4) : (clearLatch n s).stsLost = s.stsLost := rfl
@[simp] theorem clearLatch_pcstklvl (n : BitVec 4) : (clearLatch n s).pcstklvl = s.pcstklvl := rfl
@[simp] theorem clearLatch_stkoverflow (n : BitVec 4) : (clearLatch n s).stkoverflow = s.stkoverflow := rfl
@[simp] theorem clearLatch_db (n : BitVec 4) : (clearLatch n s).db = s.db := rfl
@[simp] theorem clearLatch_slotSites (n : BitVec 4) : (clearLatch n s).slotSites = s.slotSites := rfl
@[simp] theorem clearLatch_popSites (n : BitVec 4) : (clearLatch n s).popSites = s.popSites := rfl
@[simp] theorem clearLatch_loopSites (n : BitVec 4) : (clearLatch n s).loopSites = s.loopSites := rfl
@[simp] theorem clearLatch_insvc (n : BitVec 4) : (clearLatch n s).insvc = s.insvc := rfl
@[simp] theorem clearLatch_power (n : BitVec 4) : (clearLatch n s).power = s.power := rfl
@[simp] theorem clearLatch_sleepArmed (n : BitVec 4) : (clearLatch n s).sleepArmed = s.sleepArmed := rfl
@[simp] theorem clearLatch_icache (n : BitVec 4) : (clearLatch n s).icache = s.icache := rfl
@[simp] theorem clearLatch_lags (n : BitVec 4) : (clearLatch n s).lags = s.lags := rfl
@[simp] theorem clearLatch_sstatLag (n : BitVec 4) : (clearLatch n s).sstatLag = s.sstatLag := rfl
@[simp] theorem clearLatch_tick (n : BitVec 4) : (clearLatch n s).tick = s.tick := rfl
@[simp] theorem clearLatch_events (n : BitVec 4) : (clearLatch n s).events = s.events := rfl
@[simp] theorem clearLatch_text (n : BitVec 4) : (clearLatch n s).text = s.text := rfl
@[simp] theorem clearLatch_others (n : BitVec 4) : (clearLatch n s).others = s.others := rfl

/-! ### `raiseIf` -/

@[simp] theorem raiseIf_cfg (b : Bool) : (raiseIf b s).cfg = s.cfg := rfl
@[simp] theorem raiseIf_pc (b : Bool) : (raiseIf b s).pc = s.pc := rfl
@[simp] theorem raiseIf_mem (b : Bool) : (raiseIf b s).mem = s.mem := rfl
@[simp] theorem raiseIf_dagPri (b : Bool) : (raiseIf b s).dagPri = s.dagPri := rfl
@[simp] theorem raiseIf_dagSec (b : Bool) : (raiseIf b s).dagSec = s.dagSec := rfl
@[simp] theorem raiseIf_dataPri (b : Bool) : (raiseIf b s).dataPri = s.dataPri := rfl
@[simp] theorem raiseIf_dataSec (b : Bool) : (raiseIf b s).dataSec = s.dataSec := rfl
@[simp] theorem raiseIf_ijpg (b : Bool) : (raiseIf b s).ijpg = s.ijpg := rfl
@[simp] theorem raiseIf_iopg (b : Bool) : (raiseIf b s).iopg = s.iopg := rfl
@[simp] theorem raiseIf_cntr (b : Bool) : (raiseIf b s).cntr = s.cntr := rfl
@[simp] theorem raiseIf_ccode (b : Bool) : (raiseIf b s).ccode = s.ccode := rfl
@[simp] theorem raiseIf_stacka (b : Bool) : (raiseIf b s).stacka = s.stacka := rfl
@[simp] theorem raiseIf_stackp (b : Bool) : (raiseIf b s).stackp = s.stackp := rfl
@[simp] theorem raiseIf_lpstacka (b : Bool) : (raiseIf b s).lpstacka = s.lpstacka := rfl
@[simp] theorem raiseIf_lpstackp (b : Bool) : (raiseIf b s).lpstackp = s.lpstackp := rfl
@[simp] theorem raiseIf_astat (b : Bool) : (raiseIf b s).astat = s.astat := rfl
@[simp] theorem raiseIf_mstat (b : Bool) : (raiseIf b s).mstat = s.mstat := rfl
@[simp] theorem raiseIf_icntl (b : Bool) : (raiseIf b s).icntl = s.icntl := rfl
@[simp] theorem raiseIf_imask (b : Bool) : (raiseIf b s).imask = s.imask := rfl
@[simp] theorem raiseIf_pcstk (b : Bool) : (raiseIf b s).pcstk = s.pcstk := rfl
@[simp] theorem raiseIf_lpstk (b : Bool) : (raiseIf b s).lpstk = s.lpstk := rfl
@[simp] theorem raiseIf_stsstk (b : Bool) : (raiseIf b s).stsstk = s.stsstk := rfl
@[simp] theorem raiseIf_pcLost (b : Bool) : (raiseIf b s).pcLost = s.pcLost := rfl
@[simp] theorem raiseIf_lpLost (b : Bool) : (raiseIf b s).lpLost = s.lpLost := rfl
@[simp] theorem raiseIf_stsLost (b : Bool) : (raiseIf b s).stsLost = s.stsLost := rfl
@[simp] theorem raiseIf_pcstklvl (b : Bool) : (raiseIf b s).pcstklvl = s.pcstklvl := rfl
@[simp] theorem raiseIf_stkoverflow (b : Bool) : (raiseIf b s).stkoverflow = s.stkoverflow := rfl
@[simp] theorem raiseIf_db (b : Bool) : (raiseIf b s).db = s.db := rfl
@[simp] theorem raiseIf_slotSites (b : Bool) : (raiseIf b s).slotSites = s.slotSites := rfl
@[simp] theorem raiseIf_popSites (b : Bool) : (raiseIf b s).popSites = s.popSites := rfl
@[simp] theorem raiseIf_loopSites (b : Bool) : (raiseIf b s).loopSites = s.loopSites := rfl
@[simp] theorem raiseIf_insvc (b : Bool) : (raiseIf b s).insvc = s.insvc := rfl
@[simp] theorem raiseIf_power (b : Bool) : (raiseIf b s).power = s.power := rfl
@[simp] theorem raiseIf_sleepArmed (b : Bool) : (raiseIf b s).sleepArmed = s.sleepArmed := rfl
@[simp] theorem raiseIf_icache (b : Bool) : (raiseIf b s).icache = s.icache := rfl
@[simp] theorem raiseIf_lags (b : Bool) : (raiseIf b s).lags = s.lags := rfl
@[simp] theorem raiseIf_sstatLag (b : Bool) : (raiseIf b s).sstatLag = s.sstatLag := rfl
@[simp] theorem raiseIf_tick (b : Bool) : (raiseIf b s).tick = s.tick := rfl
@[simp] theorem raiseIf_events (b : Bool) : (raiseIf b s).events = s.events := rfl
@[simp] theorem raiseIf_text (b : Bool) : (raiseIf b s).text = s.text := rfl
@[simp] theorem raiseIf_others (b : Bool) : (raiseIf b s).others = s.others := rfl

/-! ### `raiseStackInterrupt` -/

@[simp] theorem raiseStackInterrupt_cfg : (raiseStackInterrupt s).cfg = s.cfg := rfl
@[simp] theorem raiseStackInterrupt_pc : (raiseStackInterrupt s).pc = s.pc := rfl
@[simp] theorem raiseStackInterrupt_mem : (raiseStackInterrupt s).mem = s.mem := rfl
@[simp] theorem raiseStackInterrupt_dagPri : (raiseStackInterrupt s).dagPri = s.dagPri := rfl
@[simp] theorem raiseStackInterrupt_dagSec : (raiseStackInterrupt s).dagSec = s.dagSec := rfl
@[simp] theorem raiseStackInterrupt_dataPri : (raiseStackInterrupt s).dataPri = s.dataPri := rfl
@[simp] theorem raiseStackInterrupt_dataSec : (raiseStackInterrupt s).dataSec = s.dataSec := rfl
@[simp] theorem raiseStackInterrupt_ijpg : (raiseStackInterrupt s).ijpg = s.ijpg := rfl
@[simp] theorem raiseStackInterrupt_iopg : (raiseStackInterrupt s).iopg = s.iopg := rfl
@[simp] theorem raiseStackInterrupt_cntr : (raiseStackInterrupt s).cntr = s.cntr := rfl
@[simp] theorem raiseStackInterrupt_ccode : (raiseStackInterrupt s).ccode = s.ccode := rfl
@[simp] theorem raiseStackInterrupt_stacka : (raiseStackInterrupt s).stacka = s.stacka := rfl
@[simp] theorem raiseStackInterrupt_stackp : (raiseStackInterrupt s).stackp = s.stackp := rfl
@[simp] theorem raiseStackInterrupt_lpstacka : (raiseStackInterrupt s).lpstacka = s.lpstacka := rfl
@[simp] theorem raiseStackInterrupt_lpstackp : (raiseStackInterrupt s).lpstackp = s.lpstackp := rfl
@[simp] theorem raiseStackInterrupt_astat : (raiseStackInterrupt s).astat = s.astat := rfl
@[simp] theorem raiseStackInterrupt_mstat : (raiseStackInterrupt s).mstat = s.mstat := rfl
@[simp] theorem raiseStackInterrupt_icntl : (raiseStackInterrupt s).icntl = s.icntl := rfl
@[simp] theorem raiseStackInterrupt_imask : (raiseStackInterrupt s).imask = s.imask := rfl
@[simp] theorem raiseStackInterrupt_pcstk : (raiseStackInterrupt s).pcstk = s.pcstk := rfl
@[simp] theorem raiseStackInterrupt_lpstk : (raiseStackInterrupt s).lpstk = s.lpstk := rfl
@[simp] theorem raiseStackInterrupt_stsstk : (raiseStackInterrupt s).stsstk = s.stsstk := rfl
@[simp] theorem raiseStackInterrupt_pcLost : (raiseStackInterrupt s).pcLost = s.pcLost := rfl
@[simp] theorem raiseStackInterrupt_lpLost : (raiseStackInterrupt s).lpLost = s.lpLost := rfl
@[simp] theorem raiseStackInterrupt_stsLost : (raiseStackInterrupt s).stsLost = s.stsLost := rfl
@[simp] theorem raiseStackInterrupt_pcstklvl : (raiseStackInterrupt s).pcstklvl = s.pcstklvl := rfl
@[simp] theorem raiseStackInterrupt_stkoverflow : (raiseStackInterrupt s).stkoverflow = s.stkoverflow := rfl
@[simp] theorem raiseStackInterrupt_db : (raiseStackInterrupt s).db = s.db := rfl
@[simp] theorem raiseStackInterrupt_slotSites : (raiseStackInterrupt s).slotSites = s.slotSites := rfl
@[simp] theorem raiseStackInterrupt_popSites : (raiseStackInterrupt s).popSites = s.popSites := rfl
@[simp] theorem raiseStackInterrupt_loopSites : (raiseStackInterrupt s).loopSites = s.loopSites := rfl
@[simp] theorem raiseStackInterrupt_insvc : (raiseStackInterrupt s).insvc = s.insvc := rfl
@[simp] theorem raiseStackInterrupt_power : (raiseStackInterrupt s).power = s.power := rfl
@[simp] theorem raiseStackInterrupt_sleepArmed : (raiseStackInterrupt s).sleepArmed = s.sleepArmed := rfl
@[simp] theorem raiseStackInterrupt_icache : (raiseStackInterrupt s).icache = s.icache := rfl
@[simp] theorem raiseStackInterrupt_lags : (raiseStackInterrupt s).lags = s.lags := rfl
@[simp] theorem raiseStackInterrupt_sstatLag : (raiseStackInterrupt s).sstatLag = s.sstatLag := rfl
@[simp] theorem raiseStackInterrupt_tick : (raiseStackInterrupt s).tick = s.tick := rfl
@[simp] theorem raiseStackInterrupt_events : (raiseStackInterrupt s).events = s.events := rfl
@[simp] theorem raiseStackInterrupt_text : (raiseStackInterrupt s).text = s.text := rfl
@[simp] theorem raiseStackInterrupt_others : (raiseStackInterrupt s).others = s.others := rfl

/-! ### `openLag` -/

@[simp] theorem openLag_cfg (r : LagReg) (o : Reg16) (k : Nat) : (openLag r o k s).cfg = s.cfg := rfl
@[simp] theorem openLag_pc (r : LagReg) (o : Reg16) (k : Nat) : (openLag r o k s).pc = s.pc := rfl
@[simp] theorem openLag_mem (r : LagReg) (o : Reg16) (k : Nat) : (openLag r o k s).mem = s.mem := rfl
@[simp] theorem openLag_dagPri (r : LagReg) (o : Reg16) (k : Nat) : (openLag r o k s).dagPri = s.dagPri := rfl
@[simp] theorem openLag_dagSec (r : LagReg) (o : Reg16) (k : Nat) : (openLag r o k s).dagSec = s.dagSec := rfl
@[simp] theorem openLag_dataPri (r : LagReg) (o : Reg16) (k : Nat) : (openLag r o k s).dataPri = s.dataPri := rfl
@[simp] theorem openLag_dataSec (r : LagReg) (o : Reg16) (k : Nat) : (openLag r o k s).dataSec = s.dataSec := rfl
@[simp] theorem openLag_ijpg (r : LagReg) (o : Reg16) (k : Nat) : (openLag r o k s).ijpg = s.ijpg := rfl
@[simp] theorem openLag_iopg (r : LagReg) (o : Reg16) (k : Nat) : (openLag r o k s).iopg = s.iopg := rfl
@[simp] theorem openLag_cntr (r : LagReg) (o : Reg16) (k : Nat) : (openLag r o k s).cntr = s.cntr := rfl
@[simp] theorem openLag_ccode (r : LagReg) (o : Reg16) (k : Nat) : (openLag r o k s).ccode = s.ccode := rfl
@[simp] theorem openLag_stacka (r : LagReg) (o : Reg16) (k : Nat) : (openLag r o k s).stacka = s.stacka := rfl
@[simp] theorem openLag_stackp (r : LagReg) (o : Reg16) (k : Nat) : (openLag r o k s).stackp = s.stackp := rfl
@[simp] theorem openLag_lpstacka (r : LagReg) (o : Reg16) (k : Nat) : (openLag r o k s).lpstacka = s.lpstacka := rfl
@[simp] theorem openLag_lpstackp (r : LagReg) (o : Reg16) (k : Nat) : (openLag r o k s).lpstackp = s.lpstackp := rfl
@[simp] theorem openLag_astat (r : LagReg) (o : Reg16) (k : Nat) : (openLag r o k s).astat = s.astat := rfl
@[simp] theorem openLag_mstat (r : LagReg) (o : Reg16) (k : Nat) : (openLag r o k s).mstat = s.mstat := rfl
@[simp] theorem openLag_icntl (r : LagReg) (o : Reg16) (k : Nat) : (openLag r o k s).icntl = s.icntl := rfl
@[simp] theorem openLag_imask (r : LagReg) (o : Reg16) (k : Nat) : (openLag r o k s).imask = s.imask := rfl
@[simp] theorem openLag_irptl (r : LagReg) (o : Reg16) (k : Nat) : (openLag r o k s).irptl = s.irptl := rfl
@[simp] theorem openLag_pcstk (r : LagReg) (o : Reg16) (k : Nat) : (openLag r o k s).pcstk = s.pcstk := rfl
@[simp] theorem openLag_lpstk (r : LagReg) (o : Reg16) (k : Nat) : (openLag r o k s).lpstk = s.lpstk := rfl
@[simp] theorem openLag_stsstk (r : LagReg) (o : Reg16) (k : Nat) : (openLag r o k s).stsstk = s.stsstk := rfl
@[simp] theorem openLag_pcLost (r : LagReg) (o : Reg16) (k : Nat) : (openLag r o k s).pcLost = s.pcLost := rfl
@[simp] theorem openLag_lpLost (r : LagReg) (o : Reg16) (k : Nat) : (openLag r o k s).lpLost = s.lpLost := rfl
@[simp] theorem openLag_stsLost (r : LagReg) (o : Reg16) (k : Nat) : (openLag r o k s).stsLost = s.stsLost := rfl
@[simp] theorem openLag_pcstklvl (r : LagReg) (o : Reg16) (k : Nat) : (openLag r o k s).pcstklvl = s.pcstklvl := rfl
@[simp] theorem openLag_stkoverflow (r : LagReg) (o : Reg16) (k : Nat) : (openLag r o k s).stkoverflow = s.stkoverflow := rfl
@[simp] theorem openLag_db (r : LagReg) (o : Reg16) (k : Nat) : (openLag r o k s).db = s.db := rfl
@[simp] theorem openLag_slotSites (r : LagReg) (o : Reg16) (k : Nat) : (openLag r o k s).slotSites = s.slotSites := rfl
@[simp] theorem openLag_popSites (r : LagReg) (o : Reg16) (k : Nat) : (openLag r o k s).popSites = s.popSites := rfl
@[simp] theorem openLag_loopSites (r : LagReg) (o : Reg16) (k : Nat) : (openLag r o k s).loopSites = s.loopSites := rfl
@[simp] theorem openLag_insvc (r : LagReg) (o : Reg16) (k : Nat) : (openLag r o k s).insvc = s.insvc := rfl
@[simp] theorem openLag_power (r : LagReg) (o : Reg16) (k : Nat) : (openLag r o k s).power = s.power := rfl
@[simp] theorem openLag_sleepArmed (r : LagReg) (o : Reg16) (k : Nat) : (openLag r o k s).sleepArmed = s.sleepArmed := rfl
@[simp] theorem openLag_icache (r : LagReg) (o : Reg16) (k : Nat) : (openLag r o k s).icache = s.icache := rfl
@[simp] theorem openLag_sstatLag (r : LagReg) (o : Reg16) (k : Nat) : (openLag r o k s).sstatLag = s.sstatLag := rfl
@[simp] theorem openLag_tick (r : LagReg) (o : Reg16) (k : Nat) : (openLag r o k s).tick = s.tick := rfl
@[simp] theorem openLag_events (r : LagReg) (o : Reg16) (k : Nat) : (openLag r o k s).events = s.events := rfl
@[simp] theorem openLag_text (r : LagReg) (o : Reg16) (k : Nat) : (openLag r o k s).text = s.text := rfl
@[simp] theorem openLag_others (r : LagReg) (o : Reg16) (k : Nat) : (openLag r o k s).others = s.others := rfl

/-! ### `beginInstr` -/

@[simp] theorem beginInstr_cfg : (beginInstr s).cfg = s.cfg := rfl
@[simp] theorem beginInstr_pc : (beginInstr s).pc = s.pc := rfl
@[simp] theorem beginInstr_mem : (beginInstr s).mem = s.mem := rfl
@[simp] theorem beginInstr_dagPri : (beginInstr s).dagPri = s.dagPri := rfl
@[simp] theorem beginInstr_dagSec : (beginInstr s).dagSec = s.dagSec := rfl
@[simp] theorem beginInstr_dataPri : (beginInstr s).dataPri = s.dataPri := rfl
@[simp] theorem beginInstr_dataSec : (beginInstr s).dataSec = s.dataSec := rfl
@[simp] theorem beginInstr_ijpg : (beginInstr s).ijpg = s.ijpg := rfl
@[simp] theorem beginInstr_iopg : (beginInstr s).iopg = s.iopg := rfl
@[simp] theorem beginInstr_cntr : (beginInstr s).cntr = s.cntr := rfl
@[simp] theorem beginInstr_ccode : (beginInstr s).ccode = s.ccode := rfl
@[simp] theorem beginInstr_stacka : (beginInstr s).stacka = s.stacka := rfl
@[simp] theorem beginInstr_stackp : (beginInstr s).stackp = s.stackp := rfl
@[simp] theorem beginInstr_lpstacka : (beginInstr s).lpstacka = s.lpstacka := rfl
@[simp] theorem beginInstr_lpstackp : (beginInstr s).lpstackp = s.lpstackp := rfl
@[simp] theorem beginInstr_astat : (beginInstr s).astat = s.astat := rfl
@[simp] theorem beginInstr_mstat : (beginInstr s).mstat = s.mstat := rfl
@[simp] theorem beginInstr_icntl : (beginInstr s).icntl = s.icntl := rfl
@[simp] theorem beginInstr_imask : (beginInstr s).imask = s.imask := rfl
@[simp] theorem beginInstr_irptl : (beginInstr s).irptl = s.irptl := rfl
@[simp] theorem beginInstr_pcstk : (beginInstr s).pcstk = s.pcstk := rfl
@[simp] theorem beginInstr_lpstk : (beginInstr s).lpstk = s.lpstk := rfl
@[simp] theorem beginInstr_stsstk : (beginInstr s).stsstk = s.stsstk := rfl
@[simp] theorem beginInstr_pcLost : (beginInstr s).pcLost = s.pcLost := rfl
@[simp] theorem beginInstr_lpLost : (beginInstr s).lpLost = s.lpLost := rfl
@[simp] theorem beginInstr_stsLost : (beginInstr s).stsLost = s.stsLost := rfl
@[simp] theorem beginInstr_pcstklvl : (beginInstr s).pcstklvl = s.pcstklvl := rfl
@[simp] theorem beginInstr_stkoverflow : (beginInstr s).stkoverflow = s.stkoverflow := rfl
@[simp] theorem beginInstr_db : (beginInstr s).db = s.db := rfl
@[simp] theorem beginInstr_slotSites : (beginInstr s).slotSites = s.slotSites := rfl
@[simp] theorem beginInstr_popSites : (beginInstr s).popSites = s.popSites := rfl
@[simp] theorem beginInstr_loopSites : (beginInstr s).loopSites = s.loopSites := rfl
@[simp] theorem beginInstr_insvc : (beginInstr s).insvc = s.insvc := rfl
@[simp] theorem beginInstr_power : (beginInstr s).power = s.power := rfl
@[simp] theorem beginInstr_sleepArmed : (beginInstr s).sleepArmed = s.sleepArmed := rfl
@[simp] theorem beginInstr_events : (beginInstr s).events = s.events := rfl
@[simp] theorem beginInstr_text : (beginInstr s).text = s.text := rfl
@[simp] theorem beginInstr_others : (beginInstr s).others = s.others := rfl

/-! ### `beginStep` -/

@[simp] theorem beginStep_cfg : (beginStep s).cfg = s.cfg := rfl
@[simp] theorem beginStep_pc : (beginStep s).pc = s.pc := rfl
@[simp] theorem beginStep_mem : (beginStep s).mem = s.mem := rfl
@[simp] theorem beginStep_dagPri : (beginStep s).dagPri = s.dagPri := rfl
@[simp] theorem beginStep_dagSec : (beginStep s).dagSec = s.dagSec := rfl
@[simp] theorem beginStep_dataPri : (beginStep s).dataPri = s.dataPri := rfl
@[simp] theorem beginStep_dataSec : (beginStep s).dataSec = s.dataSec := rfl
@[simp] theorem beginStep_ijpg : (beginStep s).ijpg = s.ijpg := rfl
@[simp] theorem beginStep_iopg : (beginStep s).iopg = s.iopg := rfl
@[simp] theorem beginStep_cntr : (beginStep s).cntr = s.cntr := rfl
@[simp] theorem beginStep_ccode : (beginStep s).ccode = s.ccode := rfl
@[simp] theorem beginStep_stacka : (beginStep s).stacka = s.stacka := rfl
@[simp] theorem beginStep_stackp : (beginStep s).stackp = s.stackp := rfl
@[simp] theorem beginStep_lpstacka : (beginStep s).lpstacka = s.lpstacka := rfl
@[simp] theorem beginStep_lpstackp : (beginStep s).lpstackp = s.lpstackp := rfl
@[simp] theorem beginStep_astat : (beginStep s).astat = s.astat := rfl
@[simp] theorem beginStep_mstat : (beginStep s).mstat = s.mstat := rfl
@[simp] theorem beginStep_icntl : (beginStep s).icntl = s.icntl := rfl
@[simp] theorem beginStep_imask : (beginStep s).imask = s.imask := rfl
@[simp] theorem beginStep_irptl : (beginStep s).irptl = s.irptl := rfl
@[simp] theorem beginStep_pcstk : (beginStep s).pcstk = s.pcstk := rfl
@[simp] theorem beginStep_lpstk : (beginStep s).lpstk = s.lpstk := rfl
@[simp] theorem beginStep_stsstk : (beginStep s).stsstk = s.stsstk := rfl
@[simp] theorem beginStep_pcLost : (beginStep s).pcLost = s.pcLost := rfl
@[simp] theorem beginStep_lpLost : (beginStep s).lpLost = s.lpLost := rfl
@[simp] theorem beginStep_stsLost : (beginStep s).stsLost = s.stsLost := rfl
@[simp] theorem beginStep_pcstklvl : (beginStep s).pcstklvl = s.pcstklvl := rfl
@[simp] theorem beginStep_stkoverflow : (beginStep s).stkoverflow = s.stkoverflow := rfl
@[simp] theorem beginStep_db : (beginStep s).db = s.db := rfl
@[simp] theorem beginStep_slotSites : (beginStep s).slotSites = s.slotSites := rfl
@[simp] theorem beginStep_popSites : (beginStep s).popSites = s.popSites := rfl
@[simp] theorem beginStep_loopSites : (beginStep s).loopSites = s.loopSites := rfl
@[simp] theorem beginStep_insvc : (beginStep s).insvc = s.insvc := rfl
@[simp] theorem beginStep_power : (beginStep s).power = s.power := rfl
@[simp] theorem beginStep_sleepArmed : (beginStep s).sleepArmed = s.sleepArmed := rfl
@[simp] theorem beginStep_icache : (beginStep s).icache = s.icache := rfl
@[simp] theorem beginStep_lags : (beginStep s).lags = s.lags.filter (fun g => !checkOnly g.reg) := rfl
@[simp] theorem beginStep_sstatLag : (beginStep s).sstatLag = s.sstatLag := rfl
@[simp] theorem beginStep_events : (beginStep s).events = s.events := rfl
@[simp] theorem beginStep_text : (beginStep s).text = s.text := rfl
@[simp] theorem beginStep_others : (beginStep s).others = s.others := rfl

/-! ### `writeMstatLate` -/

@[simp] theorem writeMstatLate_cfg (m : Reg16) : (writeMstatLate m s).cfg = s.cfg := rfl
@[simp] theorem writeMstatLate_pc (m : Reg16) : (writeMstatLate m s).pc = s.pc := rfl
@[simp] theorem writeMstatLate_mem (m : Reg16) : (writeMstatLate m s).mem = s.mem := rfl
@[simp] theorem writeMstatLate_dagPri (m : Reg16) : (writeMstatLate m s).dagPri = s.dagPri := rfl
@[simp] theorem writeMstatLate_dagSec (m : Reg16) : (writeMstatLate m s).dagSec = s.dagSec := rfl
@[simp] theorem writeMstatLate_dataPri (m : Reg16) : (writeMstatLate m s).dataPri = s.dataPri := rfl
@[simp] theorem writeMstatLate_dataSec (m : Reg16) : (writeMstatLate m s).dataSec = s.dataSec := rfl
@[simp] theorem writeMstatLate_ijpg (m : Reg16) : (writeMstatLate m s).ijpg = s.ijpg := rfl
@[simp] theorem writeMstatLate_iopg (m : Reg16) : (writeMstatLate m s).iopg = s.iopg := rfl
@[simp] theorem writeMstatLate_cntr (m : Reg16) : (writeMstatLate m s).cntr = s.cntr := rfl
@[simp] theorem writeMstatLate_ccode (m : Reg16) : (writeMstatLate m s).ccode = s.ccode := rfl
@[simp] theorem writeMstatLate_stacka (m : Reg16) : (writeMstatLate m s).stacka = s.stacka := rfl
@[simp] theorem writeMstatLate_stackp (m : Reg16) : (writeMstatLate m s).stackp = s.stackp := rfl
@[simp] theorem writeMstatLate_lpstacka (m : Reg16) : (writeMstatLate m s).lpstacka = s.lpstacka := rfl
@[simp] theorem writeMstatLate_lpstackp (m : Reg16) : (writeMstatLate m s).lpstackp = s.lpstackp := rfl
@[simp] theorem writeMstatLate_astat (m : Reg16) : (writeMstatLate m s).astat = s.astat := rfl
@[simp] theorem writeMstatLate_icntl (m : Reg16) : (writeMstatLate m s).icntl = s.icntl := rfl
@[simp] theorem writeMstatLate_imask (m : Reg16) : (writeMstatLate m s).imask = s.imask := rfl
@[simp] theorem writeMstatLate_irptl (m : Reg16) : (writeMstatLate m s).irptl = s.irptl := rfl
@[simp] theorem writeMstatLate_pcstk (m : Reg16) : (writeMstatLate m s).pcstk = s.pcstk := rfl
@[simp] theorem writeMstatLate_lpstk (m : Reg16) : (writeMstatLate m s).lpstk = s.lpstk := rfl
@[simp] theorem writeMstatLate_stsstk (m : Reg16) : (writeMstatLate m s).stsstk = s.stsstk := rfl
@[simp] theorem writeMstatLate_pcLost (m : Reg16) : (writeMstatLate m s).pcLost = s.pcLost := rfl
@[simp] theorem writeMstatLate_lpLost (m : Reg16) : (writeMstatLate m s).lpLost = s.lpLost := rfl
@[simp] theorem writeMstatLate_stsLost (m : Reg16) : (writeMstatLate m s).stsLost = s.stsLost := rfl
@[simp] theorem writeMstatLate_pcstklvl (m : Reg16) : (writeMstatLate m s).pcstklvl = s.pcstklvl := rfl
@[simp] theorem writeMstatLate_stkoverflow (m : Reg16) : (writeMstatLate m s).stkoverflow = s.stkoverflow := rfl
@[simp] theorem writeMstatLate_db (m : Reg16) : (writeMstatLate m s).db = s.db := rfl
@[simp] theorem writeMstatLate_slotSites (m : Reg16) : (writeMstatLate m s).slotSites = s.slotSites := rfl
@[simp] theorem writeMstatLate_popSites (m : Reg16) : (writeMstatLate m s).popSites = s.popSites := rfl
@[simp] theorem writeMstatLate_loopSites (m : Reg16) : (writeMstatLate m s).loopSites = s.loopSites := rfl
@[simp] theorem writeMstatLate_insvc (m : Reg16) : (writeMstatLate m s).insvc = s.insvc := rfl
@[simp] theorem writeMstatLate_power (m : Reg16) : (writeMstatLate m s).power = s.power := rfl
@[simp] theorem writeMstatLate_sleepArmed (m : Reg16) : (writeMstatLate m s).sleepArmed = s.sleepArmed := rfl
@[simp] theorem writeMstatLate_icache (m : Reg16) : (writeMstatLate m s).icache = s.icache := rfl
@[simp] theorem writeMstatLate_sstatLag (m : Reg16) : (writeMstatLate m s).sstatLag = s.sstatLag := rfl
@[simp] theorem writeMstatLate_tick (m : Reg16) : (writeMstatLate m s).tick = s.tick := rfl
@[simp] theorem writeMstatLate_events (m : Reg16) : (writeMstatLate m s).events = s.events := rfl
@[simp] theorem writeMstatLate_text (m : Reg16) : (writeMstatLate m s).text = s.text := rfl
@[simp] theorem writeMstatLate_others (m : Reg16) : (writeMstatLate m s).others = s.others := rfl

/-! ### `writeModes` -/

@[simp] theorem writeModes_cfg (k : Reg16) (v : Bool) : (writeModes k v s).cfg = s.cfg := rfl
@[simp] theorem writeModes_pc (k : Reg16) (v : Bool) : (writeModes k v s).pc = s.pc := rfl
@[simp] theorem writeModes_mem (k : Reg16) (v : Bool) : (writeModes k v s).mem = s.mem := rfl
@[simp] theorem writeModes_dagPri (k : Reg16) (v : Bool) : (writeModes k v s).dagPri = s.dagPri := rfl
@[simp] theorem writeModes_dagSec (k : Reg16) (v : Bool) : (writeModes k v s).dagSec = s.dagSec := rfl
@[simp] theorem writeModes_dataPri (k : Reg16) (v : Bool) : (writeModes k v s).dataPri = s.dataPri := rfl
@[simp] theorem writeModes_dataSec (k : Reg16) (v : Bool) : (writeModes k v s).dataSec = s.dataSec := rfl
@[simp] theorem writeModes_ijpg (k : Reg16) (v : Bool) : (writeModes k v s).ijpg = s.ijpg := rfl
@[simp] theorem writeModes_iopg (k : Reg16) (v : Bool) : (writeModes k v s).iopg = s.iopg := rfl
@[simp] theorem writeModes_cntr (k : Reg16) (v : Bool) : (writeModes k v s).cntr = s.cntr := rfl
@[simp] theorem writeModes_ccode (k : Reg16) (v : Bool) : (writeModes k v s).ccode = s.ccode := rfl
@[simp] theorem writeModes_stacka (k : Reg16) (v : Bool) : (writeModes k v s).stacka = s.stacka := rfl
@[simp] theorem writeModes_stackp (k : Reg16) (v : Bool) : (writeModes k v s).stackp = s.stackp := rfl
@[simp] theorem writeModes_lpstacka (k : Reg16) (v : Bool) : (writeModes k v s).lpstacka = s.lpstacka := rfl
@[simp] theorem writeModes_lpstackp (k : Reg16) (v : Bool) : (writeModes k v s).lpstackp = s.lpstackp := rfl
@[simp] theorem writeModes_astat (k : Reg16) (v : Bool) : (writeModes k v s).astat = s.astat := rfl
@[simp] theorem writeModes_icntl (k : Reg16) (v : Bool) : (writeModes k v s).icntl = s.icntl := rfl
@[simp] theorem writeModes_imask (k : Reg16) (v : Bool) : (writeModes k v s).imask = s.imask := rfl
@[simp] theorem writeModes_irptl (k : Reg16) (v : Bool) : (writeModes k v s).irptl = s.irptl := rfl
@[simp] theorem writeModes_pcstk (k : Reg16) (v : Bool) : (writeModes k v s).pcstk = s.pcstk := rfl
@[simp] theorem writeModes_lpstk (k : Reg16) (v : Bool) : (writeModes k v s).lpstk = s.lpstk := rfl
@[simp] theorem writeModes_stsstk (k : Reg16) (v : Bool) : (writeModes k v s).stsstk = s.stsstk := rfl
@[simp] theorem writeModes_pcLost (k : Reg16) (v : Bool) : (writeModes k v s).pcLost = s.pcLost := rfl
@[simp] theorem writeModes_lpLost (k : Reg16) (v : Bool) : (writeModes k v s).lpLost = s.lpLost := rfl
@[simp] theorem writeModes_stsLost (k : Reg16) (v : Bool) : (writeModes k v s).stsLost = s.stsLost := rfl
@[simp] theorem writeModes_pcstklvl (k : Reg16) (v : Bool) : (writeModes k v s).pcstklvl = s.pcstklvl := rfl
@[simp] theorem writeModes_stkoverflow (k : Reg16) (v : Bool) : (writeModes k v s).stkoverflow = s.stkoverflow := rfl
@[simp] theorem writeModes_db (k : Reg16) (v : Bool) : (writeModes k v s).db = s.db := rfl
@[simp] theorem writeModes_slotSites (k : Reg16) (v : Bool) : (writeModes k v s).slotSites = s.slotSites := rfl
@[simp] theorem writeModes_popSites (k : Reg16) (v : Bool) : (writeModes k v s).popSites = s.popSites := rfl
@[simp] theorem writeModes_loopSites (k : Reg16) (v : Bool) : (writeModes k v s).loopSites = s.loopSites := rfl
@[simp] theorem writeModes_insvc (k : Reg16) (v : Bool) : (writeModes k v s).insvc = s.insvc := rfl
@[simp] theorem writeModes_power (k : Reg16) (v : Bool) : (writeModes k v s).power = s.power := rfl
@[simp] theorem writeModes_sleepArmed (k : Reg16) (v : Bool) : (writeModes k v s).sleepArmed = s.sleepArmed := rfl
@[simp] theorem writeModes_icache (k : Reg16) (v : Bool) : (writeModes k v s).icache = s.icache := rfl
@[simp] theorem writeModes_sstatLag (k : Reg16) (v : Bool) : (writeModes k v s).sstatLag = s.sstatLag := rfl
@[simp] theorem writeModes_tick (k : Reg16) (v : Bool) : (writeModes k v s).tick = s.tick := rfl
@[simp] theorem writeModes_events (k : Reg16) (v : Bool) : (writeModes k v s).events = s.events := rfl
@[simp] theorem writeModes_text (k : Reg16) (v : Bool) : (writeModes k v s).text = s.text := rfl
@[simp] theorem writeModes_others (k : Reg16) (v : Bool) : (writeModes k v s).others = s.others := rfl

/-! ### `lagAllBits` -/

@[simp] theorem lagAllBits_cfg (b o : Reg16) : (lagAllBits b o s).cfg = s.cfg := rfl
@[simp] theorem lagAllBits_pc (b o : Reg16) : (lagAllBits b o s).pc = s.pc := rfl
@[simp] theorem lagAllBits_mem (b o : Reg16) : (lagAllBits b o s).mem = s.mem := rfl
@[simp] theorem lagAllBits_dagPri (b o : Reg16) : (lagAllBits b o s).dagPri = s.dagPri := rfl
@[simp] theorem lagAllBits_dagSec (b o : Reg16) : (lagAllBits b o s).dagSec = s.dagSec := rfl
@[simp] theorem lagAllBits_dataPri (b o : Reg16) : (lagAllBits b o s).dataPri = s.dataPri := rfl
@[simp] theorem lagAllBits_dataSec (b o : Reg16) : (lagAllBits b o s).dataSec = s.dataSec := rfl
@[simp] theorem lagAllBits_ijpg (b o : Reg16) : (lagAllBits b o s).ijpg = s.ijpg := rfl
@[simp] theorem lagAllBits_iopg (b o : Reg16) : (lagAllBits b o s).iopg = s.iopg := rfl
@[simp] theorem lagAllBits_cntr (b o : Reg16) : (lagAllBits b o s).cntr = s.cntr := rfl
@[simp] theorem lagAllBits_ccode (b o : Reg16) : (lagAllBits b o s).ccode = s.ccode := rfl
@[simp] theorem lagAllBits_stacka (b o : Reg16) : (lagAllBits b o s).stacka = s.stacka := rfl
@[simp] theorem lagAllBits_stackp (b o : Reg16) : (lagAllBits b o s).stackp = s.stackp := rfl
@[simp] theorem lagAllBits_lpstacka (b o : Reg16) : (lagAllBits b o s).lpstacka = s.lpstacka := rfl
@[simp] theorem lagAllBits_lpstackp (b o : Reg16) : (lagAllBits b o s).lpstackp = s.lpstackp := rfl
@[simp] theorem lagAllBits_astat (b o : Reg16) : (lagAllBits b o s).astat = s.astat := rfl
@[simp] theorem lagAllBits_mstat (b o : Reg16) : (lagAllBits b o s).mstat = s.mstat := rfl
@[simp] theorem lagAllBits_icntl (b o : Reg16) : (lagAllBits b o s).icntl = s.icntl := rfl
@[simp] theorem lagAllBits_imask (b o : Reg16) : (lagAllBits b o s).imask = s.imask := rfl
@[simp] theorem lagAllBits_irptl (b o : Reg16) : (lagAllBits b o s).irptl = s.irptl := rfl
@[simp] theorem lagAllBits_pcstk (b o : Reg16) : (lagAllBits b o s).pcstk = s.pcstk := rfl
@[simp] theorem lagAllBits_lpstk (b o : Reg16) : (lagAllBits b o s).lpstk = s.lpstk := rfl
@[simp] theorem lagAllBits_stsstk (b o : Reg16) : (lagAllBits b o s).stsstk = s.stsstk := rfl
@[simp] theorem lagAllBits_pcLost (b o : Reg16) : (lagAllBits b o s).pcLost = s.pcLost := rfl
@[simp] theorem lagAllBits_lpLost (b o : Reg16) : (lagAllBits b o s).lpLost = s.lpLost := rfl
@[simp] theorem lagAllBits_stsLost (b o : Reg16) : (lagAllBits b o s).stsLost = s.stsLost := rfl
@[simp] theorem lagAllBits_pcstklvl (b o : Reg16) : (lagAllBits b o s).pcstklvl = s.pcstklvl := rfl
@[simp] theorem lagAllBits_stkoverflow (b o : Reg16) : (lagAllBits b o s).stkoverflow = s.stkoverflow := rfl
@[simp] theorem lagAllBits_db (b o : Reg16) : (lagAllBits b o s).db = s.db := rfl
@[simp] theorem lagAllBits_slotSites (b o : Reg16) : (lagAllBits b o s).slotSites = s.slotSites := rfl
@[simp] theorem lagAllBits_popSites (b o : Reg16) : (lagAllBits b o s).popSites = s.popSites := rfl
@[simp] theorem lagAllBits_loopSites (b o : Reg16) : (lagAllBits b o s).loopSites = s.loopSites := rfl
@[simp] theorem lagAllBits_insvc (b o : Reg16) : (lagAllBits b o s).insvc = s.insvc := rfl
@[simp] theorem lagAllBits_power (b o : Reg16) : (lagAllBits b o s).power = s.power := rfl
@[simp] theorem lagAllBits_sleepArmed (b o : Reg16) : (lagAllBits b o s).sleepArmed = s.sleepArmed := rfl
@[simp] theorem lagAllBits_icache (b o : Reg16) : (lagAllBits b o s).icache = s.icache := rfl
@[simp] theorem lagAllBits_lags (b o : Reg16) : (lagAllBits b o s).lags = s.lags := rfl
@[simp] theorem lagAllBits_tick (b o : Reg16) : (lagAllBits b o s).tick = s.tick := rfl
@[simp] theorem lagAllBits_events (b o : Reg16) : (lagAllBits b o s).events = s.events := rfl
@[simp] theorem lagAllBits_text (b o : Reg16) : (lagAllBits b o s).text = s.text := rfl
@[simp] theorem lagAllBits_others (b o : Reg16) : (lagAllBits b o s).others = s.others := rfl

/-! ### `lagOverflowBit` -/

@[simp] theorem lagOverflowBit_cfg (o : Reg16) : (lagOverflowBit o s).cfg = s.cfg := rfl
@[simp] theorem lagOverflowBit_pc (o : Reg16) : (lagOverflowBit o s).pc = s.pc := rfl
@[simp] theorem lagOverflowBit_mem (o : Reg16) : (lagOverflowBit o s).mem = s.mem := rfl
@[simp] theorem lagOverflowBit_dagPri (o : Reg16) : (lagOverflowBit o s).dagPri = s.dagPri := rfl
@[simp] theorem lagOverflowBit_dagSec (o : Reg16) : (lagOverflowBit o s).dagSec = s.dagSec := rfl
@[simp] theorem lagOverflowBit_dataPri (o : Reg16) : (lagOverflowBit o s).dataPri = s.dataPri := rfl
@[simp] theorem lagOverflowBit_dataSec (o : Reg16) : (lagOverflowBit o s).dataSec = s.dataSec := rfl
@[simp] theorem lagOverflowBit_ijpg (o : Reg16) : (lagOverflowBit o s).ijpg = s.ijpg := rfl
@[simp] theorem lagOverflowBit_iopg (o : Reg16) : (lagOverflowBit o s).iopg = s.iopg := rfl
@[simp] theorem lagOverflowBit_cntr (o : Reg16) : (lagOverflowBit o s).cntr = s.cntr := rfl
@[simp] theorem lagOverflowBit_ccode (o : Reg16) : (lagOverflowBit o s).ccode = s.ccode := rfl
@[simp] theorem lagOverflowBit_stacka (o : Reg16) : (lagOverflowBit o s).stacka = s.stacka := rfl
@[simp] theorem lagOverflowBit_stackp (o : Reg16) : (lagOverflowBit o s).stackp = s.stackp := rfl
@[simp] theorem lagOverflowBit_lpstacka (o : Reg16) : (lagOverflowBit o s).lpstacka = s.lpstacka := rfl
@[simp] theorem lagOverflowBit_lpstackp (o : Reg16) : (lagOverflowBit o s).lpstackp = s.lpstackp := rfl
@[simp] theorem lagOverflowBit_astat (o : Reg16) : (lagOverflowBit o s).astat = s.astat := rfl
@[simp] theorem lagOverflowBit_mstat (o : Reg16) : (lagOverflowBit o s).mstat = s.mstat := rfl
@[simp] theorem lagOverflowBit_icntl (o : Reg16) : (lagOverflowBit o s).icntl = s.icntl := rfl
@[simp] theorem lagOverflowBit_imask (o : Reg16) : (lagOverflowBit o s).imask = s.imask := rfl
@[simp] theorem lagOverflowBit_irptl (o : Reg16) : (lagOverflowBit o s).irptl = s.irptl := rfl
@[simp] theorem lagOverflowBit_pcstk (o : Reg16) : (lagOverflowBit o s).pcstk = s.pcstk := rfl
@[simp] theorem lagOverflowBit_lpstk (o : Reg16) : (lagOverflowBit o s).lpstk = s.lpstk := rfl
@[simp] theorem lagOverflowBit_stsstk (o : Reg16) : (lagOverflowBit o s).stsstk = s.stsstk := rfl
@[simp] theorem lagOverflowBit_pcLost (o : Reg16) : (lagOverflowBit o s).pcLost = s.pcLost := rfl
@[simp] theorem lagOverflowBit_lpLost (o : Reg16) : (lagOverflowBit o s).lpLost = s.lpLost := rfl
@[simp] theorem lagOverflowBit_stsLost (o : Reg16) : (lagOverflowBit o s).stsLost = s.stsLost := rfl
@[simp] theorem lagOverflowBit_pcstklvl (o : Reg16) : (lagOverflowBit o s).pcstklvl = s.pcstklvl := rfl
@[simp] theorem lagOverflowBit_stkoverflow (o : Reg16) : (lagOverflowBit o s).stkoverflow = s.stkoverflow := rfl
@[simp] theorem lagOverflowBit_db (o : Reg16) : (lagOverflowBit o s).db = s.db := rfl
@[simp] theorem lagOverflowBit_slotSites (o : Reg16) : (lagOverflowBit o s).slotSites = s.slotSites := rfl
@[simp] theorem lagOverflowBit_popSites (o : Reg16) : (lagOverflowBit o s).popSites = s.popSites := rfl
@[simp] theorem lagOverflowBit_loopSites (o : Reg16) : (lagOverflowBit o s).loopSites = s.loopSites := rfl
@[simp] theorem lagOverflowBit_insvc (o : Reg16) : (lagOverflowBit o s).insvc = s.insvc := rfl
@[simp] theorem lagOverflowBit_power (o : Reg16) : (lagOverflowBit o s).power = s.power := rfl
@[simp] theorem lagOverflowBit_sleepArmed (o : Reg16) : (lagOverflowBit o s).sleepArmed = s.sleepArmed := rfl
@[simp] theorem lagOverflowBit_icache (o : Reg16) : (lagOverflowBit o s).icache = s.icache := rfl
@[simp] theorem lagOverflowBit_lags (o : Reg16) : (lagOverflowBit o s).lags = s.lags := rfl
@[simp] theorem lagOverflowBit_tick (o : Reg16) : (lagOverflowBit o s).tick = s.tick := rfl
@[simp] theorem lagOverflowBit_events (o : Reg16) : (lagOverflowBit o s).events = s.events := rfl
@[simp] theorem lagOverflowBit_text (o : Reg16) : (lagOverflowBit o s).text = s.text := rfl
@[simp] theorem lagOverflowBit_others (o : Reg16) : (lagOverflowBit o s).others = s.others := rfl

/-! ### `lagImplicit` -/

@[simp] theorem lagImplicit_cfg (o : Reg16) : (lagImplicit o s).cfg = s.cfg := rfl
@[simp] theorem lagImplicit_pc (o : Reg16) : (lagImplicit o s).pc = s.pc := rfl
@[simp] theorem lagImplicit_mem (o : Reg16) : (lagImplicit o s).mem = s.mem := rfl
@[simp] theorem lagImplicit_dagPri (o : Reg16) : (lagImplicit o s).dagPri = s.dagPri := rfl
@[simp] theorem lagImplicit_dagSec (o : Reg16) : (lagImplicit o s).dagSec = s.dagSec := rfl
@[simp] theorem lagImplicit_dataPri (o : Reg16) : (lagImplicit o s).dataPri = s.dataPri := rfl
@[simp] theorem lagImplicit_dataSec (o : Reg16) : (lagImplicit o s).dataSec = s.dataSec := rfl
@[simp] theorem lagImplicit_ijpg (o : Reg16) : (lagImplicit o s).ijpg = s.ijpg := rfl
@[simp] theorem lagImplicit_iopg (o : Reg16) : (lagImplicit o s).iopg = s.iopg := rfl
@[simp] theorem lagImplicit_cntr (o : Reg16) : (lagImplicit o s).cntr = s.cntr := rfl
@[simp] theorem lagImplicit_ccode (o : Reg16) : (lagImplicit o s).ccode = s.ccode := rfl
@[simp] theorem lagImplicit_stacka (o : Reg16) : (lagImplicit o s).stacka = s.stacka := rfl
@[simp] theorem lagImplicit_stackp (o : Reg16) : (lagImplicit o s).stackp = s.stackp := rfl
@[simp] theorem lagImplicit_lpstacka (o : Reg16) : (lagImplicit o s).lpstacka = s.lpstacka := rfl
@[simp] theorem lagImplicit_lpstackp (o : Reg16) : (lagImplicit o s).lpstackp = s.lpstackp := rfl
@[simp] theorem lagImplicit_astat (o : Reg16) : (lagImplicit o s).astat = s.astat := rfl
@[simp] theorem lagImplicit_mstat (o : Reg16) : (lagImplicit o s).mstat = s.mstat := rfl
@[simp] theorem lagImplicit_icntl (o : Reg16) : (lagImplicit o s).icntl = s.icntl := rfl
@[simp] theorem lagImplicit_imask (o : Reg16) : (lagImplicit o s).imask = s.imask := rfl
@[simp] theorem lagImplicit_irptl (o : Reg16) : (lagImplicit o s).irptl = s.irptl := rfl
@[simp] theorem lagImplicit_pcstk (o : Reg16) : (lagImplicit o s).pcstk = s.pcstk := rfl
@[simp] theorem lagImplicit_lpstk (o : Reg16) : (lagImplicit o s).lpstk = s.lpstk := rfl
@[simp] theorem lagImplicit_stsstk (o : Reg16) : (lagImplicit o s).stsstk = s.stsstk := rfl
@[simp] theorem lagImplicit_pcLost (o : Reg16) : (lagImplicit o s).pcLost = s.pcLost := rfl
@[simp] theorem lagImplicit_lpLost (o : Reg16) : (lagImplicit o s).lpLost = s.lpLost := rfl
@[simp] theorem lagImplicit_stsLost (o : Reg16) : (lagImplicit o s).stsLost = s.stsLost := rfl
@[simp] theorem lagImplicit_pcstklvl (o : Reg16) : (lagImplicit o s).pcstklvl = s.pcstklvl := rfl
@[simp] theorem lagImplicit_stkoverflow (o : Reg16) : (lagImplicit o s).stkoverflow = s.stkoverflow := rfl
@[simp] theorem lagImplicit_db (o : Reg16) : (lagImplicit o s).db = s.db := rfl
@[simp] theorem lagImplicit_slotSites (o : Reg16) : (lagImplicit o s).slotSites = s.slotSites := rfl
@[simp] theorem lagImplicit_popSites (o : Reg16) : (lagImplicit o s).popSites = s.popSites := rfl
@[simp] theorem lagImplicit_loopSites (o : Reg16) : (lagImplicit o s).loopSites = s.loopSites := rfl
@[simp] theorem lagImplicit_insvc (o : Reg16) : (lagImplicit o s).insvc = s.insvc := rfl
@[simp] theorem lagImplicit_power (o : Reg16) : (lagImplicit o s).power = s.power := rfl
@[simp] theorem lagImplicit_sleepArmed (o : Reg16) : (lagImplicit o s).sleepArmed = s.sleepArmed := rfl
@[simp] theorem lagImplicit_icache (o : Reg16) : (lagImplicit o s).icache = s.icache := rfl
@[simp] theorem lagImplicit_lags (o : Reg16) : (lagImplicit o s).lags = s.lags := rfl
@[simp] theorem lagImplicit_tick (o : Reg16) : (lagImplicit o s).tick = s.tick := rfl
@[simp] theorem lagImplicit_events (o : Reg16) : (lagImplicit o s).events = s.events := rfl
@[simp] theorem lagImplicit_text (o : Reg16) : (lagImplicit o s).text = s.text := rfl
@[simp] theorem lagImplicit_others (o : Reg16) : (lagImplicit o s).others = s.others := rfl

/-! ### `levelCheck` -/

@[simp] theorem levelCheck_cfg (k : Nat) : (levelCheck k s).cfg = s.cfg := rfl
@[simp] theorem levelCheck_pc (k : Nat) : (levelCheck k s).pc = s.pc := rfl
@[simp] theorem levelCheck_mem (k : Nat) : (levelCheck k s).mem = s.mem := rfl
@[simp] theorem levelCheck_dagPri (k : Nat) : (levelCheck k s).dagPri = s.dagPri := rfl
@[simp] theorem levelCheck_dagSec (k : Nat) : (levelCheck k s).dagSec = s.dagSec := rfl
@[simp] theorem levelCheck_dataPri (k : Nat) : (levelCheck k s).dataPri = s.dataPri := rfl
@[simp] theorem levelCheck_dataSec (k : Nat) : (levelCheck k s).dataSec = s.dataSec := rfl
@[simp] theorem levelCheck_ijpg (k : Nat) : (levelCheck k s).ijpg = s.ijpg := rfl
@[simp] theorem levelCheck_iopg (k : Nat) : (levelCheck k s).iopg = s.iopg := rfl
@[simp] theorem levelCheck_cntr (k : Nat) : (levelCheck k s).cntr = s.cntr := rfl
@[simp] theorem levelCheck_ccode (k : Nat) : (levelCheck k s).ccode = s.ccode := rfl
@[simp] theorem levelCheck_stacka (k : Nat) : (levelCheck k s).stacka = s.stacka := rfl
@[simp] theorem levelCheck_stackp (k : Nat) : (levelCheck k s).stackp = s.stackp := rfl
@[simp] theorem levelCheck_lpstacka (k : Nat) : (levelCheck k s).lpstacka = s.lpstacka := rfl
@[simp] theorem levelCheck_lpstackp (k : Nat) : (levelCheck k s).lpstackp = s.lpstackp := rfl
@[simp] theorem levelCheck_astat (k : Nat) : (levelCheck k s).astat = s.astat := rfl
@[simp] theorem levelCheck_mstat (k : Nat) : (levelCheck k s).mstat = s.mstat := rfl
@[simp] theorem levelCheck_icntl (k : Nat) : (levelCheck k s).icntl = s.icntl := rfl
@[simp] theorem levelCheck_imask (k : Nat) : (levelCheck k s).imask = s.imask := rfl
@[simp] theorem levelCheck_pcstk (k : Nat) : (levelCheck k s).pcstk = s.pcstk := rfl
@[simp] theorem levelCheck_lpstk (k : Nat) : (levelCheck k s).lpstk = s.lpstk := rfl
@[simp] theorem levelCheck_stsstk (k : Nat) : (levelCheck k s).stsstk = s.stsstk := rfl
@[simp] theorem levelCheck_pcLost (k : Nat) : (levelCheck k s).pcLost = s.pcLost := rfl
@[simp] theorem levelCheck_lpLost (k : Nat) : (levelCheck k s).lpLost = s.lpLost := rfl
@[simp] theorem levelCheck_stsLost (k : Nat) : (levelCheck k s).stsLost = s.stsLost := rfl
@[simp] theorem levelCheck_stkoverflow (k : Nat) : (levelCheck k s).stkoverflow = s.stkoverflow := rfl
@[simp] theorem levelCheck_db (k : Nat) : (levelCheck k s).db = s.db := rfl
@[simp] theorem levelCheck_slotSites (k : Nat) : (levelCheck k s).slotSites = s.slotSites := rfl
@[simp] theorem levelCheck_popSites (k : Nat) : (levelCheck k s).popSites = s.popSites := rfl
@[simp] theorem levelCheck_loopSites (k : Nat) : (levelCheck k s).loopSites = s.loopSites := rfl
@[simp] theorem levelCheck_insvc (k : Nat) : (levelCheck k s).insvc = s.insvc := rfl
@[simp] theorem levelCheck_power (k : Nat) : (levelCheck k s).power = s.power := rfl
@[simp] theorem levelCheck_sleepArmed (k : Nat) : (levelCheck k s).sleepArmed = s.sleepArmed := rfl
@[simp] theorem levelCheck_icache (k : Nat) : (levelCheck k s).icache = s.icache := rfl
@[simp] theorem levelCheck_lags (k : Nat) : (levelCheck k s).lags = s.lags := rfl
@[simp] theorem levelCheck_sstatLag (k : Nat) : (levelCheck k s).sstatLag = s.sstatLag := rfl
@[simp] theorem levelCheck_tick (k : Nat) : (levelCheck k s).tick = s.tick := rfl
@[simp] theorem levelCheck_events (k : Nat) : (levelCheck k s).events = s.events := rfl
@[simp] theorem levelCheck_text (k : Nat) : (levelCheck k s).text = s.text := rfl
@[simp] theorem levelCheck_others (k : Nat) : (levelCheck k s).others = s.others := rfl

/-! ### `advance` -/

@[simp] theorem advance_cfg (n : WordCount) : (advance n s).cfg = s.cfg := rfl
@[simp] theorem advance_mem (n : WordCount) : (advance n s).mem = s.mem := rfl
@[simp] theorem advance_dagPri (n : WordCount) : (advance n s).dagPri = s.dagPri := rfl
@[simp] theorem advance_dagSec (n : WordCount) : (advance n s).dagSec = s.dagSec := rfl
@[simp] theorem advance_dataPri (n : WordCount) : (advance n s).dataPri = s.dataPri := rfl
@[simp] theorem advance_dataSec (n : WordCount) : (advance n s).dataSec = s.dataSec := rfl
@[simp] theorem advance_ijpg (n : WordCount) : (advance n s).ijpg = s.ijpg := rfl
@[simp] theorem advance_iopg (n : WordCount) : (advance n s).iopg = s.iopg := rfl
@[simp] theorem advance_cntr (n : WordCount) : (advance n s).cntr = s.cntr := rfl
@[simp] theorem advance_ccode (n : WordCount) : (advance n s).ccode = s.ccode := rfl
@[simp] theorem advance_stacka (n : WordCount) : (advance n s).stacka = s.stacka := rfl
@[simp] theorem advance_stackp (n : WordCount) : (advance n s).stackp = s.stackp := rfl
@[simp] theorem advance_lpstacka (n : WordCount) : (advance n s).lpstacka = s.lpstacka := rfl
@[simp] theorem advance_lpstackp (n : WordCount) : (advance n s).lpstackp = s.lpstackp := rfl
@[simp] theorem advance_astat (n : WordCount) : (advance n s).astat = s.astat := rfl
@[simp] theorem advance_mstat (n : WordCount) : (advance n s).mstat = s.mstat := rfl
@[simp] theorem advance_icntl (n : WordCount) : (advance n s).icntl = s.icntl := rfl
@[simp] theorem advance_imask (n : WordCount) : (advance n s).imask = s.imask := rfl
@[simp] theorem advance_irptl (n : WordCount) : (advance n s).irptl = s.irptl := rfl
@[simp] theorem advance_pcstk (n : WordCount) : (advance n s).pcstk = s.pcstk := rfl
@[simp] theorem advance_lpstk (n : WordCount) : (advance n s).lpstk = s.lpstk := rfl
@[simp] theorem advance_stsstk (n : WordCount) : (advance n s).stsstk = s.stsstk := rfl
@[simp] theorem advance_pcLost (n : WordCount) : (advance n s).pcLost = s.pcLost := rfl
@[simp] theorem advance_lpLost (n : WordCount) : (advance n s).lpLost = s.lpLost := rfl
@[simp] theorem advance_stsLost (n : WordCount) : (advance n s).stsLost = s.stsLost := rfl
@[simp] theorem advance_pcstklvl (n : WordCount) : (advance n s).pcstklvl = s.pcstklvl := rfl
@[simp] theorem advance_stkoverflow (n : WordCount) : (advance n s).stkoverflow = s.stkoverflow := rfl
@[simp] theorem advance_db (n : WordCount) : (advance n s).db = s.db := rfl
@[simp] theorem advance_slotSites (n : WordCount) : (advance n s).slotSites = s.slotSites := rfl
@[simp] theorem advance_popSites (n : WordCount) : (advance n s).popSites = s.popSites := rfl
@[simp] theorem advance_loopSites (n : WordCount) : (advance n s).loopSites = s.loopSites := rfl
@[simp] theorem advance_insvc (n : WordCount) : (advance n s).insvc = s.insvc := rfl
@[simp] theorem advance_power (n : WordCount) : (advance n s).power = s.power := rfl
@[simp] theorem advance_sleepArmed (n : WordCount) : (advance n s).sleepArmed = s.sleepArmed := rfl
@[simp] theorem advance_icache (n : WordCount) : (advance n s).icache = s.icache := rfl
@[simp] theorem advance_lags (n : WordCount) : (advance n s).lags = s.lags := rfl
@[simp] theorem advance_sstatLag (n : WordCount) : (advance n s).sstatLag = s.sstatLag := rfl
@[simp] theorem advance_tick (n : WordCount) : (advance n s).tick = s.tick := rfl
@[simp] theorem advance_events (n : WordCount) : (advance n s).events = s.events := rfl
@[simp] theorem advance_text (n : WordCount) : (advance n s).text = s.text := rfl
@[simp] theorem advance_others (n : WordCount) : (advance n s).others = s.others := rfl

/-! ### `loadStackRegs` -/

@[simp] theorem loadStackRegs_cfg (a : Addr) : (loadStackRegs a s).cfg = s.cfg := rfl
@[simp] theorem loadStackRegs_pc (a : Addr) : (loadStackRegs a s).pc = s.pc := rfl
@[simp] theorem loadStackRegs_mem (a : Addr) : (loadStackRegs a s).mem = s.mem := rfl
@[simp] theorem loadStackRegs_dagPri (a : Addr) : (loadStackRegs a s).dagPri = s.dagPri := rfl
@[simp] theorem loadStackRegs_dagSec (a : Addr) : (loadStackRegs a s).dagSec = s.dagSec := rfl
@[simp] theorem loadStackRegs_dataPri (a : Addr) : (loadStackRegs a s).dataPri = s.dataPri := rfl
@[simp] theorem loadStackRegs_dataSec (a : Addr) : (loadStackRegs a s).dataSec = s.dataSec := rfl
@[simp] theorem loadStackRegs_ijpg (a : Addr) : (loadStackRegs a s).ijpg = s.ijpg := rfl
@[simp] theorem loadStackRegs_iopg (a : Addr) : (loadStackRegs a s).iopg = s.iopg := rfl
@[simp] theorem loadStackRegs_cntr (a : Addr) : (loadStackRegs a s).cntr = s.cntr := rfl
@[simp] theorem loadStackRegs_ccode (a : Addr) : (loadStackRegs a s).ccode = s.ccode := rfl
@[simp] theorem loadStackRegs_lpstacka (a : Addr) : (loadStackRegs a s).lpstacka = s.lpstacka := rfl
@[simp] theorem loadStackRegs_lpstackp (a : Addr) : (loadStackRegs a s).lpstackp = s.lpstackp := rfl
@[simp] theorem loadStackRegs_astat (a : Addr) : (loadStackRegs a s).astat = s.astat := rfl
@[simp] theorem loadStackRegs_mstat (a : Addr) : (loadStackRegs a s).mstat = s.mstat := rfl
@[simp] theorem loadStackRegs_icntl (a : Addr) : (loadStackRegs a s).icntl = s.icntl := rfl
@[simp] theorem loadStackRegs_imask (a : Addr) : (loadStackRegs a s).imask = s.imask := rfl
@[simp] theorem loadStackRegs_irptl (a : Addr) : (loadStackRegs a s).irptl = s.irptl := rfl
@[simp] theorem loadStackRegs_pcstk (a : Addr) : (loadStackRegs a s).pcstk = s.pcstk := rfl
@[simp] theorem loadStackRegs_lpstk (a : Addr) : (loadStackRegs a s).lpstk = s.lpstk := rfl
@[simp] theorem loadStackRegs_stsstk (a : Addr) : (loadStackRegs a s).stsstk = s.stsstk := rfl
@[simp] theorem loadStackRegs_pcLost (a : Addr) : (loadStackRegs a s).pcLost = s.pcLost := rfl
@[simp] theorem loadStackRegs_lpLost (a : Addr) : (loadStackRegs a s).lpLost = s.lpLost := rfl
@[simp] theorem loadStackRegs_stsLost (a : Addr) : (loadStackRegs a s).stsLost = s.stsLost := rfl
@[simp] theorem loadStackRegs_pcstklvl (a : Addr) : (loadStackRegs a s).pcstklvl = s.pcstklvl := rfl
@[simp] theorem loadStackRegs_stkoverflow (a : Addr) : (loadStackRegs a s).stkoverflow = s.stkoverflow := rfl
@[simp] theorem loadStackRegs_db (a : Addr) : (loadStackRegs a s).db = s.db := rfl
@[simp] theorem loadStackRegs_slotSites (a : Addr) : (loadStackRegs a s).slotSites = s.slotSites := rfl
@[simp] theorem loadStackRegs_popSites (a : Addr) : (loadStackRegs a s).popSites = s.popSites := rfl
@[simp] theorem loadStackRegs_loopSites (a : Addr) : (loadStackRegs a s).loopSites = s.loopSites := rfl
@[simp] theorem loadStackRegs_insvc (a : Addr) : (loadStackRegs a s).insvc = s.insvc := rfl
@[simp] theorem loadStackRegs_power (a : Addr) : (loadStackRegs a s).power = s.power := rfl
@[simp] theorem loadStackRegs_sleepArmed (a : Addr) : (loadStackRegs a s).sleepArmed = s.sleepArmed := rfl
@[simp] theorem loadStackRegs_icache (a : Addr) : (loadStackRegs a s).icache = s.icache := rfl
@[simp] theorem loadStackRegs_lags (a : Addr) : (loadStackRegs a s).lags = s.lags := rfl
@[simp] theorem loadStackRegs_sstatLag (a : Addr) : (loadStackRegs a s).sstatLag = s.sstatLag := rfl
@[simp] theorem loadStackRegs_tick (a : Addr) : (loadStackRegs a s).tick = s.tick := rfl
@[simp] theorem loadStackRegs_events (a : Addr) : (loadStackRegs a s).events = s.events := rfl
@[simp] theorem loadStackRegs_text (a : Addr) : (loadStackRegs a s).text = s.text := rfl
@[simp] theorem loadStackRegs_others (a : Addr) : (loadStackRegs a s).others = s.others := rfl

/-! ### `loadStatus` -/

@[simp] theorem loadStatus_cfg (e : StatusEntry) : (loadStatus e s).cfg = s.cfg := rfl
@[simp] theorem loadStatus_pc (e : StatusEntry) : (loadStatus e s).pc = s.pc := rfl
@[simp] theorem loadStatus_mem (e : StatusEntry) : (loadStatus e s).mem = s.mem := rfl
@[simp] theorem loadStatus_dagPri (e : StatusEntry) : (loadStatus e s).dagPri = s.dagPri := rfl
@[simp] theorem loadStatus_dagSec (e : StatusEntry) : (loadStatus e s).dagSec = s.dagSec := rfl
@[simp] theorem loadStatus_dataPri (e : StatusEntry) : (loadStatus e s).dataPri = s.dataPri := rfl
@[simp] theorem loadStatus_dataSec (e : StatusEntry) : (loadStatus e s).dataSec = s.dataSec := rfl
@[simp] theorem loadStatus_ijpg (e : StatusEntry) : (loadStatus e s).ijpg = s.ijpg := rfl
@[simp] theorem loadStatus_iopg (e : StatusEntry) : (loadStatus e s).iopg = s.iopg := rfl
@[simp] theorem loadStatus_cntr (e : StatusEntry) : (loadStatus e s).cntr = s.cntr := rfl
@[simp] theorem loadStatus_ccode (e : StatusEntry) : (loadStatus e s).ccode = s.ccode := rfl
@[simp] theorem loadStatus_stacka (e : StatusEntry) : (loadStatus e s).stacka = s.stacka := rfl
@[simp] theorem loadStatus_stackp (e : StatusEntry) : (loadStatus e s).stackp = s.stackp := rfl
@[simp] theorem loadStatus_lpstacka (e : StatusEntry) : (loadStatus e s).lpstacka = s.lpstacka := rfl
@[simp] theorem loadStatus_lpstackp (e : StatusEntry) : (loadStatus e s).lpstackp = s.lpstackp := rfl
@[simp] theorem loadStatus_icntl (e : StatusEntry) : (loadStatus e s).icntl = s.icntl := rfl
@[simp] theorem loadStatus_imask (e : StatusEntry) : (loadStatus e s).imask = s.imask := rfl
@[simp] theorem loadStatus_irptl (e : StatusEntry) : (loadStatus e s).irptl = s.irptl := rfl
@[simp] theorem loadStatus_pcstk (e : StatusEntry) : (loadStatus e s).pcstk = s.pcstk := rfl
@[simp] theorem loadStatus_lpstk (e : StatusEntry) : (loadStatus e s).lpstk = s.lpstk := rfl
@[simp] theorem loadStatus_stsstk (e : StatusEntry) : (loadStatus e s).stsstk = s.stsstk := rfl
@[simp] theorem loadStatus_pcLost (e : StatusEntry) : (loadStatus e s).pcLost = s.pcLost := rfl
@[simp] theorem loadStatus_lpLost (e : StatusEntry) : (loadStatus e s).lpLost = s.lpLost := rfl
@[simp] theorem loadStatus_stsLost (e : StatusEntry) : (loadStatus e s).stsLost = s.stsLost := rfl
@[simp] theorem loadStatus_pcstklvl (e : StatusEntry) : (loadStatus e s).pcstklvl = s.pcstklvl := rfl
@[simp] theorem loadStatus_stkoverflow (e : StatusEntry) : (loadStatus e s).stkoverflow = s.stkoverflow := rfl
@[simp] theorem loadStatus_db (e : StatusEntry) : (loadStatus e s).db = s.db := rfl
@[simp] theorem loadStatus_slotSites (e : StatusEntry) : (loadStatus e s).slotSites = s.slotSites := rfl
@[simp] theorem loadStatus_popSites (e : StatusEntry) : (loadStatus e s).popSites = s.popSites := rfl
@[simp] theorem loadStatus_loopSites (e : StatusEntry) : (loadStatus e s).loopSites = s.loopSites := rfl
@[simp] theorem loadStatus_insvc (e : StatusEntry) : (loadStatus e s).insvc = s.insvc := rfl
@[simp] theorem loadStatus_power (e : StatusEntry) : (loadStatus e s).power = s.power := rfl
@[simp] theorem loadStatus_sleepArmed (e : StatusEntry) : (loadStatus e s).sleepArmed = s.sleepArmed := rfl
@[simp] theorem loadStatus_icache (e : StatusEntry) : (loadStatus e s).icache = s.icache := rfl
@[simp] theorem loadStatus_sstatLag (e : StatusEntry) : (loadStatus e s).sstatLag = s.sstatLag := rfl
@[simp] theorem loadStatus_tick (e : StatusEntry) : (loadStatus e s).tick = s.tick := rfl
@[simp] theorem loadStatus_events (e : StatusEntry) : (loadStatus e s).events = s.events := rfl
@[simp] theorem loadStatus_text (e : StatusEntry) : (loadStatus e s).text = s.text := rfl
@[simp] theorem loadStatus_others (e : StatusEntry) : (loadStatus e s).others = s.others := rfl

/-! ### `loadLoopEnd` -/

@[simp] theorem loadLoopEnd_cfg (r : LoopRec) : (loadLoopEnd r s).cfg = s.cfg := rfl
@[simp] theorem loadLoopEnd_pc (r : LoopRec) : (loadLoopEnd r s).pc = s.pc := rfl
@[simp] theorem loadLoopEnd_mem (r : LoopRec) : (loadLoopEnd r s).mem = s.mem := rfl
@[simp] theorem loadLoopEnd_dagPri (r : LoopRec) : (loadLoopEnd r s).dagPri = s.dagPri := rfl
@[simp] theorem loadLoopEnd_dagSec (r : LoopRec) : (loadLoopEnd r s).dagSec = s.dagSec := rfl
@[simp] theorem loadLoopEnd_dataPri (r : LoopRec) : (loadLoopEnd r s).dataPri = s.dataPri := rfl
@[simp] theorem loadLoopEnd_dataSec (r : LoopRec) : (loadLoopEnd r s).dataSec = s.dataSec := rfl
@[simp] theorem loadLoopEnd_ijpg (r : LoopRec) : (loadLoopEnd r s).ijpg = s.ijpg := rfl
@[simp] theorem loadLoopEnd_iopg (r : LoopRec) : (loadLoopEnd r s).iopg = s.iopg := rfl
@[simp] theorem loadLoopEnd_ccode (r : LoopRec) : (loadLoopEnd r s).ccode = s.ccode := rfl
@[simp] theorem loadLoopEnd_stacka (r : LoopRec) : (loadLoopEnd r s).stacka = s.stacka := rfl
@[simp] theorem loadLoopEnd_stackp (r : LoopRec) : (loadLoopEnd r s).stackp = s.stackp := rfl
@[simp] theorem loadLoopEnd_astat (r : LoopRec) : (loadLoopEnd r s).astat = s.astat := rfl
@[simp] theorem loadLoopEnd_mstat (r : LoopRec) : (loadLoopEnd r s).mstat = s.mstat := rfl
@[simp] theorem loadLoopEnd_icntl (r : LoopRec) : (loadLoopEnd r s).icntl = s.icntl := rfl
@[simp] theorem loadLoopEnd_imask (r : LoopRec) : (loadLoopEnd r s).imask = s.imask := rfl
@[simp] theorem loadLoopEnd_irptl (r : LoopRec) : (loadLoopEnd r s).irptl = s.irptl := rfl
@[simp] theorem loadLoopEnd_pcstk (r : LoopRec) : (loadLoopEnd r s).pcstk = s.pcstk := rfl
@[simp] theorem loadLoopEnd_lpstk (r : LoopRec) : (loadLoopEnd r s).lpstk = s.lpstk := rfl
@[simp] theorem loadLoopEnd_stsstk (r : LoopRec) : (loadLoopEnd r s).stsstk = s.stsstk := rfl
@[simp] theorem loadLoopEnd_pcLost (r : LoopRec) : (loadLoopEnd r s).pcLost = s.pcLost := rfl
@[simp] theorem loadLoopEnd_lpLost (r : LoopRec) : (loadLoopEnd r s).lpLost = s.lpLost := rfl
@[simp] theorem loadLoopEnd_stsLost (r : LoopRec) : (loadLoopEnd r s).stsLost = s.stsLost := rfl
@[simp] theorem loadLoopEnd_pcstklvl (r : LoopRec) : (loadLoopEnd r s).pcstklvl = s.pcstklvl := rfl
@[simp] theorem loadLoopEnd_stkoverflow (r : LoopRec) : (loadLoopEnd r s).stkoverflow = s.stkoverflow := rfl
@[simp] theorem loadLoopEnd_db (r : LoopRec) : (loadLoopEnd r s).db = s.db := rfl
@[simp] theorem loadLoopEnd_slotSites (r : LoopRec) : (loadLoopEnd r s).slotSites = s.slotSites := rfl
@[simp] theorem loadLoopEnd_popSites (r : LoopRec) : (loadLoopEnd r s).popSites = s.popSites := rfl
@[simp] theorem loadLoopEnd_loopSites (r : LoopRec) : (loadLoopEnd r s).loopSites = s.loopSites := rfl
@[simp] theorem loadLoopEnd_insvc (r : LoopRec) : (loadLoopEnd r s).insvc = s.insvc := rfl
@[simp] theorem loadLoopEnd_power (r : LoopRec) : (loadLoopEnd r s).power = s.power := rfl
@[simp] theorem loadLoopEnd_sleepArmed (r : LoopRec) : (loadLoopEnd r s).sleepArmed = s.sleepArmed := rfl
@[simp] theorem loadLoopEnd_icache (r : LoopRec) : (loadLoopEnd r s).icache = s.icache := rfl
@[simp] theorem loadLoopEnd_sstatLag (r : LoopRec) : (loadLoopEnd r s).sstatLag = s.sstatLag := rfl
@[simp] theorem loadLoopEnd_tick (r : LoopRec) : (loadLoopEnd r s).tick = s.tick := rfl
@[simp] theorem loadLoopEnd_events (r : LoopRec) : (loadLoopEnd r s).events = s.events := rfl
@[simp] theorem loadLoopEnd_text (r : LoopRec) : (loadLoopEnd r s).text = s.text := rfl
@[simp] theorem loadLoopEnd_others (r : LoopRec) : (loadLoopEnd r s).others = s.others := rfl

/-! ### `transfer` -/

@[simp] theorem transfer_cfg (d : Bool) (t : Addr) : (transfer d t s).cfg = s.cfg := by cases d <;> rfl
@[simp] theorem transfer_mem (d : Bool) (t : Addr) : (transfer d t s).mem = s.mem := by cases d <;> rfl
@[simp] theorem transfer_dagPri (d : Bool) (t : Addr) : (transfer d t s).dagPri = s.dagPri := by cases d <;> rfl
@[simp] theorem transfer_dagSec (d : Bool) (t : Addr) : (transfer d t s).dagSec = s.dagSec := by cases d <;> rfl
@[simp] theorem transfer_dataPri (d : Bool) (t : Addr) : (transfer d t s).dataPri = s.dataPri := by cases d <;> rfl
@[simp] theorem transfer_dataSec (d : Bool) (t : Addr) : (transfer d t s).dataSec = s.dataSec := by cases d <;> rfl
@[simp] theorem transfer_ijpg (d : Bool) (t : Addr) : (transfer d t s).ijpg = s.ijpg := by cases d <;> rfl
@[simp] theorem transfer_iopg (d : Bool) (t : Addr) : (transfer d t s).iopg = s.iopg := by cases d <;> rfl
@[simp] theorem transfer_cntr (d : Bool) (t : Addr) : (transfer d t s).cntr = s.cntr := by cases d <;> rfl
@[simp] theorem transfer_ccode (d : Bool) (t : Addr) : (transfer d t s).ccode = s.ccode := by cases d <;> rfl
@[simp] theorem transfer_stacka (d : Bool) (t : Addr) : (transfer d t s).stacka = s.stacka := by cases d <;> rfl
@[simp] theorem transfer_stackp (d : Bool) (t : Addr) : (transfer d t s).stackp = s.stackp := by cases d <;> rfl
@[simp] theorem transfer_lpstacka (d : Bool) (t : Addr) : (transfer d t s).lpstacka = s.lpstacka := by cases d <;> rfl
@[simp] theorem transfer_lpstackp (d : Bool) (t : Addr) : (transfer d t s).lpstackp = s.lpstackp := by cases d <;> rfl
@[simp] theorem transfer_astat (d : Bool) (t : Addr) : (transfer d t s).astat = s.astat := by cases d <;> rfl
@[simp] theorem transfer_mstat (d : Bool) (t : Addr) : (transfer d t s).mstat = s.mstat := by cases d <;> rfl
@[simp] theorem transfer_icntl (d : Bool) (t : Addr) : (transfer d t s).icntl = s.icntl := by cases d <;> rfl
@[simp] theorem transfer_imask (d : Bool) (t : Addr) : (transfer d t s).imask = s.imask := by cases d <;> rfl
@[simp] theorem transfer_irptl (d : Bool) (t : Addr) : (transfer d t s).irptl = s.irptl := by cases d <;> rfl
@[simp] theorem transfer_pcstk (d : Bool) (t : Addr) : (transfer d t s).pcstk = s.pcstk := by cases d <;> rfl
@[simp] theorem transfer_lpstk (d : Bool) (t : Addr) : (transfer d t s).lpstk = s.lpstk := by cases d <;> rfl
@[simp] theorem transfer_stsstk (d : Bool) (t : Addr) : (transfer d t s).stsstk = s.stsstk := by cases d <;> rfl
@[simp] theorem transfer_pcLost (d : Bool) (t : Addr) : (transfer d t s).pcLost = s.pcLost := by cases d <;> rfl
@[simp] theorem transfer_lpLost (d : Bool) (t : Addr) : (transfer d t s).lpLost = s.lpLost := by cases d <;> rfl
@[simp] theorem transfer_stsLost (d : Bool) (t : Addr) : (transfer d t s).stsLost = s.stsLost := by cases d <;> rfl
@[simp] theorem transfer_pcstklvl (d : Bool) (t : Addr) : (transfer d t s).pcstklvl = s.pcstklvl := by cases d <;> rfl
@[simp] theorem transfer_stkoverflow (d : Bool) (t : Addr) : (transfer d t s).stkoverflow = s.stkoverflow := by cases d <;> rfl
@[simp] theorem transfer_slotSites (d : Bool) (t : Addr) : (transfer d t s).slotSites = s.slotSites := by cases d <;> rfl
@[simp] theorem transfer_popSites (d : Bool) (t : Addr) : (transfer d t s).popSites = s.popSites := by cases d <;> rfl
@[simp] theorem transfer_loopSites (d : Bool) (t : Addr) : (transfer d t s).loopSites = s.loopSites := by cases d <;> rfl
@[simp] theorem transfer_insvc (d : Bool) (t : Addr) : (transfer d t s).insvc = s.insvc := by cases d <;> rfl
@[simp] theorem transfer_power (d : Bool) (t : Addr) : (transfer d t s).power = s.power := by cases d <;> rfl
@[simp] theorem transfer_sleepArmed (d : Bool) (t : Addr) : (transfer d t s).sleepArmed = s.sleepArmed := by cases d <;> rfl
@[simp] theorem transfer_icache (d : Bool) (t : Addr) : (transfer d t s).icache = s.icache := by cases d <;> rfl
@[simp] theorem transfer_lags (d : Bool) (t : Addr) : (transfer d t s).lags = s.lags := by cases d <;> rfl
@[simp] theorem transfer_sstatLag (d : Bool) (t : Addr) : (transfer d t s).sstatLag = s.sstatLag := by cases d <;> rfl
@[simp] theorem transfer_tick (d : Bool) (t : Addr) : (transfer d t s).tick = s.tick := by cases d <;> rfl
@[simp] theorem transfer_events (d : Bool) (t : Addr) : (transfer d t s).events = s.events := by cases d <;> rfl
@[simp] theorem transfer_text (d : Bool) (t : Addr) : (transfer d t s).text = s.text := by cases d <;> rfl
@[simp] theorem transfer_others (d : Bool) (t : Addr) : (transfer d t s).others = s.others := by cases d <;> rfl

/-! ### `pcPush` -/

@[simp] theorem pcPush_cfg (v : Addr) : (pcPush v s).cfg = s.cfg := by unfold pcPush; split <;> [rfl; (split <;> rfl)]
@[simp] theorem pcPush_pc (v : Addr) : (pcPush v s).pc = s.pc := by unfold pcPush; split <;> [rfl; (split <;> rfl)]
@[simp] theorem pcPush_mem (v : Addr) : (pcPush v s).mem = s.mem := by unfold pcPush; split <;> [rfl; (split <;> rfl)]
@[simp] theorem pcPush_dagPri (v : Addr) : (pcPush v s).dagPri = s.dagPri := by unfold pcPush; split <;> [rfl; (split <;> rfl)]
@[simp] theorem pcPush_dagSec (v : Addr) : (pcPush v s).dagSec = s.dagSec := by unfold pcPush; split <;> [rfl; (split <;> rfl)]
@[simp] theorem pcPush_dataPri (v : Addr) : (pcPush v s).dataPri = s.dataPri := by unfold pcPush; split <;> [rfl; (split <;> rfl)]
@[simp] theorem pcPush_dataSec (v : Addr) : (pcPush v s).dataSec = s.dataSec := by unfold pcPush; split <;> [rfl; (split <;> rfl)]
@[simp] theorem pcPush_ijpg (v : Addr) : (pcPush v s).ijpg = s.ijpg := by unfold pcPush; split <;> [rfl; (split <;> rfl)]
@[simp] theorem pcPush_iopg (v : Addr) : (pcPush v s).iopg = s.iopg := by unfold pcPush; split <;> [rfl; (split <;> rfl)]
@[simp] theorem pcPush_cntr (v : Addr) : (pcPush v s).cntr = s.cntr := by unfold pcPush; split <;> [rfl; (split <;> rfl)]
@[simp] theorem pcPush_ccode (v : Addr) : (pcPush v s).ccode = s.ccode := by unfold pcPush; split <;> [rfl; (split <;> rfl)]
@[simp] theorem pcPush_stacka (v : Addr) : (pcPush v s).stacka = s.stacka := by unfold pcPush; split <;> [rfl; (split <;> rfl)]
@[simp] theorem pcPush_stackp (v : Addr) : (pcPush v s).stackp = s.stackp := by unfold pcPush; split <;> [rfl; (split <;> rfl)]
@[simp] theorem pcPush_lpstacka (v : Addr) : (pcPush v s).lpstacka = s.lpstacka := by unfold pcPush; split <;> [rfl; (split <;> rfl)]
@[simp] theorem pcPush_lpstackp (v : Addr) : (pcPush v s).lpstackp = s.lpstackp := by unfold pcPush; split <;> [rfl; (split <;> rfl)]
@[simp] theorem pcPush_astat (v : Addr) : (pcPush v s).astat = s.astat := by unfold pcPush; split <;> [rfl; (split <;> rfl)]
@[simp] theorem pcPush_mstat (v : Addr) : (pcPush v s).mstat = s.mstat := by unfold pcPush; split <;> [rfl; (split <;> rfl)]
@[simp] theorem pcPush_icntl (v : Addr) : (pcPush v s).icntl = s.icntl := by unfold pcPush; split <;> [rfl; (split <;> rfl)]
@[simp] theorem pcPush_imask (v : Addr) : (pcPush v s).imask = s.imask := by unfold pcPush; split <;> [rfl; (split <;> rfl)]
@[simp] theorem pcPush_lpstk (v : Addr) : (pcPush v s).lpstk = s.lpstk := by unfold pcPush; split <;> [rfl; (split <;> rfl)]
@[simp] theorem pcPush_stsstk (v : Addr) : (pcPush v s).stsstk = s.stsstk := by unfold pcPush; split <;> [rfl; (split <;> rfl)]
@[simp] theorem pcPush_lpLost (v : Addr) : (pcPush v s).lpLost = s.lpLost := by unfold pcPush; split <;> [rfl; (split <;> rfl)]
@[simp] theorem pcPush_stsLost (v : Addr) : (pcPush v s).stsLost = s.stsLost := by unfold pcPush; split <;> [rfl; (split <;> rfl)]
@[simp] theorem pcPush_db (v : Addr) : (pcPush v s).db = s.db := by unfold pcPush; split <;> [rfl; (split <;> rfl)]
@[simp] theorem pcPush_slotSites (v : Addr) : (pcPush v s).slotSites = s.slotSites := by unfold pcPush; split <;> [rfl; (split <;> rfl)]
@[simp] theorem pcPush_popSites (v : Addr) : (pcPush v s).popSites = s.popSites := by unfold pcPush; split <;> [rfl; (split <;> rfl)]
@[simp] theorem pcPush_loopSites (v : Addr) : (pcPush v s).loopSites = s.loopSites := by unfold pcPush; split <;> [rfl; (split <;> rfl)]
@[simp] theorem pcPush_insvc (v : Addr) : (pcPush v s).insvc = s.insvc := by unfold pcPush; split <;> [rfl; (split <;> rfl)]
@[simp] theorem pcPush_power (v : Addr) : (pcPush v s).power = s.power := by unfold pcPush; split <;> [rfl; (split <;> rfl)]
@[simp] theorem pcPush_sleepArmed (v : Addr) : (pcPush v s).sleepArmed = s.sleepArmed := by unfold pcPush; split <;> [rfl; (split <;> rfl)]
@[simp] theorem pcPush_icache (v : Addr) : (pcPush v s).icache = s.icache := by unfold pcPush; split <;> [rfl; (split <;> rfl)]
@[simp] theorem pcPush_lags (v : Addr) : (pcPush v s).lags = s.lags := by unfold pcPush; split <;> [rfl; (split <;> rfl)]
@[simp] theorem pcPush_sstatLag (v : Addr) : (pcPush v s).sstatLag = s.sstatLag := by unfold pcPush; split <;> [rfl; (split <;> rfl)]
@[simp] theorem pcPush_tick (v : Addr) : (pcPush v s).tick = s.tick := by unfold pcPush; split <;> [rfl; (split <;> rfl)]
@[simp] theorem pcPush_events (v : Addr) : (pcPush v s).events = s.events := by unfold pcPush; split <;> [rfl; (split <;> rfl)]
@[simp] theorem pcPush_text (v : Addr) : (pcPush v s).text = s.text := by unfold pcPush; split <;> [rfl; (split <;> rfl)]
@[simp] theorem pcPush_others (v : Addr) : (pcPush v s).others = s.others := by unfold pcPush; split <;> [rfl; (split <;> rfl)]

/-! ### `lpPush` -/

@[simp] theorem lpPush_cfg (r : LoopRec) : (lpPush r s).cfg = s.cfg := by unfold lpPush; split <;> [rfl; (split <;> rfl)]
@[simp] theorem lpPush_pc (r : LoopRec) : (lpPush r s).pc = s.pc := by unfold lpPush; split <;> [rfl; (split <;> rfl)]
@[simp] theorem lpPush_mem (r : LoopRec) : (lpPush r s).mem = s.mem := by unfold lpPush; split <;> [rfl; (split <;> rfl)]
@[simp] theorem lpPush_dagPri (r : LoopRec) : (lpPush r s).dagPri = s.dagPri := by unfold lpPush; split <;> [rfl; (split <;> rfl)]
@[simp] theorem lpPush_dagSec (r : LoopRec) : (lpPush r s).dagSec = s.dagSec := by unfold lpPush; split <;> [rfl; (split <;> rfl)]
@[simp] theorem lpPush_dataPri (r : LoopRec) : (lpPush r s).dataPri = s.dataPri := by unfold lpPush; split <;> [rfl; (split <;> rfl)]
@[simp] theorem lpPush_dataSec (r : LoopRec) : (lpPush r s).dataSec = s.dataSec := by unfold lpPush; split <;> [rfl; (split <;> rfl)]
@[simp] theorem lpPush_ijpg (r : LoopRec) : (lpPush r s).ijpg = s.ijpg := by unfold lpPush; split <;> [rfl; (split <;> rfl)]
@[simp] theorem lpPush_iopg (r : LoopRec) : (lpPush r s).iopg = s.iopg := by unfold lpPush; split <;> [rfl; (split <;> rfl)]
@[simp] theorem lpPush_cntr (r : LoopRec) : (lpPush r s).cntr = s.cntr := by unfold lpPush; split <;> [rfl; (split <;> rfl)]
@[simp] theorem lpPush_ccode (r : LoopRec) : (lpPush r s).ccode = s.ccode := by unfold lpPush; split <;> [rfl; (split <;> rfl)]
@[simp] theorem lpPush_stacka (r : LoopRec) : (lpPush r s).stacka = s.stacka := by unfold lpPush; split <;> [rfl; (split <;> rfl)]
@[simp] theorem lpPush_stackp (r : LoopRec) : (lpPush r s).stackp = s.stackp := by unfold lpPush; split <;> [rfl; (split <;> rfl)]
@[simp] theorem lpPush_lpstacka (r : LoopRec) : (lpPush r s).lpstacka = s.lpstacka := by unfold lpPush; split <;> [rfl; (split <;> rfl)]
@[simp] theorem lpPush_lpstackp (r : LoopRec) : (lpPush r s).lpstackp = s.lpstackp := by unfold lpPush; split <;> [rfl; (split <;> rfl)]
@[simp] theorem lpPush_astat (r : LoopRec) : (lpPush r s).astat = s.astat := by unfold lpPush; split <;> [rfl; (split <;> rfl)]
@[simp] theorem lpPush_mstat (r : LoopRec) : (lpPush r s).mstat = s.mstat := by unfold lpPush; split <;> [rfl; (split <;> rfl)]
@[simp] theorem lpPush_icntl (r : LoopRec) : (lpPush r s).icntl = s.icntl := by unfold lpPush; split <;> [rfl; (split <;> rfl)]
@[simp] theorem lpPush_imask (r : LoopRec) : (lpPush r s).imask = s.imask := by unfold lpPush; split <;> [rfl; (split <;> rfl)]
@[simp] theorem lpPush_pcstk (r : LoopRec) : (lpPush r s).pcstk = s.pcstk := by unfold lpPush; split <;> [rfl; (split <;> rfl)]
@[simp] theorem lpPush_stsstk (r : LoopRec) : (lpPush r s).stsstk = s.stsstk := by unfold lpPush; split <;> [rfl; (split <;> rfl)]
@[simp] theorem lpPush_pcLost (r : LoopRec) : (lpPush r s).pcLost = s.pcLost := by unfold lpPush; split <;> [rfl; (split <;> rfl)]
@[simp] theorem lpPush_stsLost (r : LoopRec) : (lpPush r s).stsLost = s.stsLost := by unfold lpPush; split <;> [rfl; (split <;> rfl)]
@[simp] theorem lpPush_pcstklvl (r : LoopRec) : (lpPush r s).pcstklvl = s.pcstklvl := by unfold lpPush; split <;> [rfl; (split <;> rfl)]
@[simp] theorem lpPush_db (r : LoopRec) : (lpPush r s).db = s.db := by unfold lpPush; split <;> [rfl; (split <;> rfl)]
@[simp] theorem lpPush_slotSites (r : LoopRec) : (lpPush r s).slotSites = s.slotSites := by unfold lpPush; split <;> [rfl; (split <;> rfl)]
@[simp] theorem lpPush_popSites (r : LoopRec) : (lpPush r s).popSites = s.popSites := by unfold lpPush; split <;> [rfl; (split <;> rfl)]
@[simp] theorem lpPush_loopSites (r : LoopRec) : (lpPush r s).loopSites = s.loopSites := by unfold lpPush; split <;> [rfl; (split <;> rfl)]
@[simp] theorem lpPush_insvc (r : LoopRec) : (lpPush r s).insvc = s.insvc := by unfold lpPush; split <;> [rfl; (split <;> rfl)]
@[simp] theorem lpPush_power (r : LoopRec) : (lpPush r s).power = s.power := by unfold lpPush; split <;> [rfl; (split <;> rfl)]
@[simp] theorem lpPush_sleepArmed (r : LoopRec) : (lpPush r s).sleepArmed = s.sleepArmed := by unfold lpPush; split <;> [rfl; (split <;> rfl)]
@[simp] theorem lpPush_icache (r : LoopRec) : (lpPush r s).icache = s.icache := by unfold lpPush; split <;> [rfl; (split <;> rfl)]
@[simp] theorem lpPush_lags (r : LoopRec) : (lpPush r s).lags = s.lags := by unfold lpPush; split <;> [rfl; (split <;> rfl)]
@[simp] theorem lpPush_sstatLag (r : LoopRec) : (lpPush r s).sstatLag = s.sstatLag := by unfold lpPush; split <;> [rfl; (split <;> rfl)]
@[simp] theorem lpPush_tick (r : LoopRec) : (lpPush r s).tick = s.tick := by unfold lpPush; split <;> [rfl; (split <;> rfl)]
@[simp] theorem lpPush_events (r : LoopRec) : (lpPush r s).events = s.events := by unfold lpPush; split <;> [rfl; (split <;> rfl)]
@[simp] theorem lpPush_text (r : LoopRec) : (lpPush r s).text = s.text := by unfold lpPush; split <;> [rfl; (split <;> rfl)]
@[simp] theorem lpPush_others (r : LoopRec) : (lpPush r s).others = s.others := by unfold lpPush; split <;> [rfl; (split <;> rfl)]

/-! ### `stsPush` -/

@[simp] theorem stsPush_cfg (e : StatusEntry) : (stsPush e s).cfg = s.cfg := by unfold stsPush; split <;> [rfl; (split <;> rfl)]
@[simp] theorem stsPush_pc (e : StatusEntry) : (stsPush e s).pc = s.pc := by unfold stsPush; split <;> [rfl; (split <;> rfl)]
@[simp] theorem stsPush_mem (e : StatusEntry) : (stsPush e s).mem = s.mem := by unfold stsPush; split <;> [rfl; (split <;> rfl)]
@[simp] theorem stsPush_dagPri (e : StatusEntry) : (stsPush e s).dagPri = s.dagPri := by unfold stsPush; split <;> [rfl; (split <;> rfl)]
@[simp] theorem stsPush_dagSec (e : StatusEntry) : (stsPush e s).dagSec = s.dagSec := by unfold stsPush; split <;> [rfl; (split <;> rfl)]
@[simp] theorem stsPush_dataPri (e : StatusEntry) : (stsPush e s).dataPri = s.dataPri := by unfold stsPush; split <;> [rfl; (split <;> rfl)]
@[simp] theorem stsPush_dataSec (e : StatusEntry) : (stsPush e s).dataSec = s.dataSec := by unfold stsPush; split <;> [rfl; (split <;> rfl)]
@[simp] theorem stsPush_ijpg (e : StatusEntry) : (stsPush e s).ijpg = s.ijpg := by unfold stsPush; split <;> [rfl; (split <;> rfl)]
@[simp] theorem stsPush_iopg (e : StatusEntry) : (stsPush e s).iopg = s.iopg := by unfold stsPush; split <;> [rfl; (split <;> rfl)]
@[simp] theorem stsPush_cntr (e : StatusEntry) : (stsPush e s).cntr = s.cntr := by unfold stsPush; split <;> [rfl; (split <;> rfl)]
@[simp] theorem stsPush_ccode (e : StatusEntry) : (stsPush e s).ccode = s.ccode := by unfold stsPush; split <;> [rfl; (split <;> rfl)]
@[simp] theorem stsPush_stacka (e : StatusEntry) : (stsPush e s).stacka = s.stacka := by unfold stsPush; split <;> [rfl; (split <;> rfl)]
@[simp] theorem stsPush_stackp (e : StatusEntry) : (stsPush e s).stackp = s.stackp := by unfold stsPush; split <;> [rfl; (split <;> rfl)]
@[simp] theorem stsPush_lpstacka (e : StatusEntry) : (stsPush e s).lpstacka = s.lpstacka := by unfold stsPush; split <;> [rfl; (split <;> rfl)]
@[simp] theorem stsPush_lpstackp (e : StatusEntry) : (stsPush e s).lpstackp = s.lpstackp := by unfold stsPush; split <;> [rfl; (split <;> rfl)]
@[simp] theorem stsPush_astat (e : StatusEntry) : (stsPush e s).astat = s.astat := by unfold stsPush; split <;> [rfl; (split <;> rfl)]
@[simp] theorem stsPush_mstat (e : StatusEntry) : (stsPush e s).mstat = s.mstat := by unfold stsPush; split <;> [rfl; (split <;> rfl)]
@[simp] theorem stsPush_icntl (e : StatusEntry) : (stsPush e s).icntl = s.icntl := by unfold stsPush; split <;> [rfl; (split <;> rfl)]
@[simp] theorem stsPush_imask (e : StatusEntry) : (stsPush e s).imask = s.imask := by unfold stsPush; split <;> [rfl; (split <;> rfl)]
@[simp] theorem stsPush_pcstk (e : StatusEntry) : (stsPush e s).pcstk = s.pcstk := by unfold stsPush; split <;> [rfl; (split <;> rfl)]
@[simp] theorem stsPush_lpstk (e : StatusEntry) : (stsPush e s).lpstk = s.lpstk := by unfold stsPush; split <;> [rfl; (split <;> rfl)]
@[simp] theorem stsPush_pcLost (e : StatusEntry) : (stsPush e s).pcLost = s.pcLost := by unfold stsPush; split <;> [rfl; (split <;> rfl)]
@[simp] theorem stsPush_lpLost (e : StatusEntry) : (stsPush e s).lpLost = s.lpLost := by unfold stsPush; split <;> [rfl; (split <;> rfl)]
@[simp] theorem stsPush_pcstklvl (e : StatusEntry) : (stsPush e s).pcstklvl = s.pcstklvl := by unfold stsPush; split <;> [rfl; (split <;> rfl)]
@[simp] theorem stsPush_db (e : StatusEntry) : (stsPush e s).db = s.db := by unfold stsPush; split <;> [rfl; (split <;> rfl)]
@[simp] theorem stsPush_slotSites (e : StatusEntry) : (stsPush e s).slotSites = s.slotSites := by unfold stsPush; split <;> [rfl; (split <;> rfl)]
@[simp] theorem stsPush_popSites (e : StatusEntry) : (stsPush e s).popSites = s.popSites := by unfold stsPush; split <;> [rfl; (split <;> rfl)]
@[simp] theorem stsPush_loopSites (e : StatusEntry) : (stsPush e s).loopSites = s.loopSites := by unfold stsPush; split <;> [rfl; (split <;> rfl)]
@[simp] theorem stsPush_insvc (e : StatusEntry) : (stsPush e s).insvc = s.insvc := by unfold stsPush; split <;> [rfl; (split <;> rfl)]
@[simp] theorem stsPush_power (e : StatusEntry) : (stsPush e s).power = s.power := by unfold stsPush; split <;> [rfl; (split <;> rfl)]
@[simp] theorem stsPush_sleepArmed (e : StatusEntry) : (stsPush e s).sleepArmed = s.sleepArmed := by unfold stsPush; split <;> [rfl; (split <;> rfl)]
@[simp] theorem stsPush_icache (e : StatusEntry) : (stsPush e s).icache = s.icache := by unfold stsPush; split <;> [rfl; (split <;> rfl)]
@[simp] theorem stsPush_lags (e : StatusEntry) : (stsPush e s).lags = s.lags := by unfold stsPush; split <;> [rfl; (split <;> rfl)]
@[simp] theorem stsPush_sstatLag (e : StatusEntry) : (stsPush e s).sstatLag = s.sstatLag := by unfold stsPush; split <;> [rfl; (split <;> rfl)]
@[simp] theorem stsPush_tick (e : StatusEntry) : (stsPush e s).tick = s.tick := by unfold stsPush; split <;> [rfl; (split <;> rfl)]
@[simp] theorem stsPush_events (e : StatusEntry) : (stsPush e s).events = s.events := by unfold stsPush; split <;> [rfl; (split <;> rfl)]
@[simp] theorem stsPush_text (e : StatusEntry) : (stsPush e s).text = s.text := by unfold stsPush; split <;> [rfl; (split <;> rfl)]
@[simp] theorem stsPush_others (e : StatusEntry) : (stsPush e s).others = s.others := by unfold stsPush; split <;> [rfl; (split <;> rfl)]

/-! ### `setModes` -/

@[simp] theorem setModes_cfg (m : ModeSet) (v : Bool) : (setModes m v s).cfg = s.cfg := by unfold setModes; dsimp only; split <;> rfl
@[simp] theorem setModes_pc (m : ModeSet) (v : Bool) : (setModes m v s).pc = s.pc := by unfold setModes; dsimp only; split <;> rfl
@[simp] theorem setModes_mem (m : ModeSet) (v : Bool) : (setModes m v s).mem = s.mem := by unfold setModes; dsimp only; split <;> rfl
@[simp] theorem setModes_dagPri (m : ModeSet) (v : Bool) : (setModes m v s).dagPri = s.dagPri := by unfold setModes; dsimp only; split <;> rfl
@[simp] theorem setModes_dagSec (m : ModeSet) (v : Bool) : (setModes m v s).dagSec = s.dagSec := by unfold setModes; dsimp only; split <;> rfl
@[simp] theorem setModes_dataPri (m : ModeSet) (v : Bool) : (setModes m v s).dataPri = s.dataPri := by unfold setModes; dsimp only; split <;> rfl
@[simp] theorem setModes_dataSec (m : ModeSet) (v : Bool) : (setModes m v s).dataSec = s.dataSec := by unfold setModes; dsimp only; split <;> rfl
@[simp] theorem setModes_ijpg (m : ModeSet) (v : Bool) : (setModes m v s).ijpg = s.ijpg := by unfold setModes; dsimp only; split <;> rfl
@[simp] theorem setModes_iopg (m : ModeSet) (v : Bool) : (setModes m v s).iopg = s.iopg := by unfold setModes; dsimp only; split <;> rfl
@[simp] theorem setModes_cntr (m : ModeSet) (v : Bool) : (setModes m v s).cntr = s.cntr := by unfold setModes; dsimp only; split <;> rfl
@[simp] theorem setModes_ccode (m : ModeSet) (v : Bool) : (setModes m v s).ccode = s.ccode := by unfold setModes; dsimp only; split <;> rfl
@[simp] theorem setModes_stacka (m : ModeSet) (v : Bool) : (setModes m v s).stacka = s.stacka := by unfold setModes; dsimp only; split <;> rfl
@[simp] theorem setModes_stackp (m : ModeSet) (v : Bool) : (setModes m v s).stackp = s.stackp := by unfold setModes; dsimp only; split <;> rfl
@[simp] theorem setModes_lpstacka (m : ModeSet) (v : Bool) : (setModes m v s).lpstacka = s.lpstacka := by unfold setModes; dsimp only; split <;> rfl
@[simp] theorem setModes_lpstackp (m : ModeSet) (v : Bool) : (setModes m v s).lpstackp = s.lpstackp := by unfold setModes; dsimp only; split <;> rfl
@[simp] theorem setModes_astat (m : ModeSet) (v : Bool) : (setModes m v s).astat = s.astat := by unfold setModes; dsimp only; split <;> rfl
@[simp] theorem setModes_imask (m : ModeSet) (v : Bool) : (setModes m v s).imask = s.imask := by unfold setModes; dsimp only; split <;> rfl
@[simp] theorem setModes_irptl (m : ModeSet) (v : Bool) : (setModes m v s).irptl = s.irptl := by unfold setModes; dsimp only; split <;> rfl
@[simp] theorem setModes_pcstk (m : ModeSet) (v : Bool) : (setModes m v s).pcstk = s.pcstk := by unfold setModes; dsimp only; split <;> rfl
@[simp] theorem setModes_lpstk (m : ModeSet) (v : Bool) : (setModes m v s).lpstk = s.lpstk := by unfold setModes; dsimp only; split <;> rfl
@[simp] theorem setModes_stsstk (m : ModeSet) (v : Bool) : (setModes m v s).stsstk = s.stsstk := by unfold setModes; dsimp only; split <;> rfl
@[simp] theorem setModes_pcLost (m : ModeSet) (v : Bool) : (setModes m v s).pcLost = s.pcLost := by unfold setModes; dsimp only; split <;> rfl
@[simp] theorem setModes_lpLost (m : ModeSet) (v : Bool) : (setModes m v s).lpLost = s.lpLost := by unfold setModes; dsimp only; split <;> rfl
@[simp] theorem setModes_stsLost (m : ModeSet) (v : Bool) : (setModes m v s).stsLost = s.stsLost := by unfold setModes; dsimp only; split <;> rfl
@[simp] theorem setModes_pcstklvl (m : ModeSet) (v : Bool) : (setModes m v s).pcstklvl = s.pcstklvl := by unfold setModes; dsimp only; split <;> rfl
@[simp] theorem setModes_stkoverflow (m : ModeSet) (v : Bool) : (setModes m v s).stkoverflow = s.stkoverflow := by unfold setModes; dsimp only; split <;> rfl
@[simp] theorem setModes_db (m : ModeSet) (v : Bool) : (setModes m v s).db = s.db := by unfold setModes; dsimp only; split <;> rfl
@[simp] theorem setModes_slotSites (m : ModeSet) (v : Bool) : (setModes m v s).slotSites = s.slotSites := by unfold setModes; dsimp only; split <;> rfl
@[simp] theorem setModes_popSites (m : ModeSet) (v : Bool) : (setModes m v s).popSites = s.popSites := by unfold setModes; dsimp only; split <;> rfl
@[simp] theorem setModes_loopSites (m : ModeSet) (v : Bool) : (setModes m v s).loopSites = s.loopSites := by unfold setModes; dsimp only; split <;> rfl
@[simp] theorem setModes_insvc (m : ModeSet) (v : Bool) : (setModes m v s).insvc = s.insvc := by unfold setModes; dsimp only; split <;> rfl
@[simp] theorem setModes_power (m : ModeSet) (v : Bool) : (setModes m v s).power = s.power := by unfold setModes; dsimp only; split <;> rfl
@[simp] theorem setModes_sleepArmed (m : ModeSet) (v : Bool) : (setModes m v s).sleepArmed = s.sleepArmed := by unfold setModes; dsimp only; split <;> rfl
@[simp] theorem setModes_icache (m : ModeSet) (v : Bool) : (setModes m v s).icache = s.icache := by unfold setModes; dsimp only; split <;> rfl
@[simp] theorem setModes_sstatLag (m : ModeSet) (v : Bool) : (setModes m v s).sstatLag = s.sstatLag := by unfold setModes; dsimp only; split <;> rfl
@[simp] theorem setModes_tick (m : ModeSet) (v : Bool) : (setModes m v s).tick = s.tick := by unfold setModes; dsimp only; split <;> rfl
@[simp] theorem setModes_events (m : ModeSet) (v : Bool) : (setModes m v s).events = s.events := by unfold setModes; dsimp only; split <;> rfl
@[simp] theorem setModes_text (m : ModeSet) (v : Bool) : (setModes m v s).text = s.text := by unfold setModes; dsimp only; split <;> rfl
@[simp] theorem setModes_others (m : ModeSet) (v : Bool) : (setModes m v s).others = s.others := by unfold setModes; dsimp only; split <;> rfl

/-! ### `forgetText` -/

@[simp] theorem forgetText_cfg (a : Addr) : (forgetText a s).cfg = s.cfg := rfl
@[simp] theorem forgetText_pc (a : Addr) : (forgetText a s).pc = s.pc := rfl
@[simp] theorem forgetText_mem (a : Addr) : (forgetText a s).mem = s.mem := rfl
@[simp] theorem forgetText_dagPri (a : Addr) : (forgetText a s).dagPri = s.dagPri := rfl
@[simp] theorem forgetText_dagSec (a : Addr) : (forgetText a s).dagSec = s.dagSec := rfl
@[simp] theorem forgetText_dataPri (a : Addr) : (forgetText a s).dataPri = s.dataPri := rfl
@[simp] theorem forgetText_dataSec (a : Addr) : (forgetText a s).dataSec = s.dataSec := rfl
@[simp] theorem forgetText_ijpg (a : Addr) : (forgetText a s).ijpg = s.ijpg := rfl
@[simp] theorem forgetText_iopg (a : Addr) : (forgetText a s).iopg = s.iopg := rfl
@[simp] theorem forgetText_cntr (a : Addr) : (forgetText a s).cntr = s.cntr := rfl
@[simp] theorem forgetText_ccode (a : Addr) : (forgetText a s).ccode = s.ccode := rfl
@[simp] theorem forgetText_stacka (a : Addr) : (forgetText a s).stacka = s.stacka := rfl
@[simp] theorem forgetText_stackp (a : Addr) : (forgetText a s).stackp = s.stackp := rfl
@[simp] theorem forgetText_lpstacka (a : Addr) : (forgetText a s).lpstacka = s.lpstacka := rfl
@[simp] theorem forgetText_lpstackp (a : Addr) : (forgetText a s).lpstackp = s.lpstackp := rfl
@[simp] theorem forgetText_astat (a : Addr) : (forgetText a s).astat = s.astat := rfl
@[simp] theorem forgetText_mstat (a : Addr) : (forgetText a s).mstat = s.mstat := rfl
@[simp] theorem forgetText_icntl (a : Addr) : (forgetText a s).icntl = s.icntl := rfl
@[simp] theorem forgetText_imask (a : Addr) : (forgetText a s).imask = s.imask := rfl
@[simp] theorem forgetText_irptl (a : Addr) : (forgetText a s).irptl = s.irptl := rfl
@[simp] theorem forgetText_pcstk (a : Addr) : (forgetText a s).pcstk = s.pcstk := rfl
@[simp] theorem forgetText_lpstk (a : Addr) : (forgetText a s).lpstk = s.lpstk := rfl
@[simp] theorem forgetText_stsstk (a : Addr) : (forgetText a s).stsstk = s.stsstk := rfl
@[simp] theorem forgetText_pcLost (a : Addr) : (forgetText a s).pcLost = s.pcLost := rfl
@[simp] theorem forgetText_lpLost (a : Addr) : (forgetText a s).lpLost = s.lpLost := rfl
@[simp] theorem forgetText_stsLost (a : Addr) : (forgetText a s).stsLost = s.stsLost := rfl
@[simp] theorem forgetText_pcstklvl (a : Addr) : (forgetText a s).pcstklvl = s.pcstklvl := rfl
@[simp] theorem forgetText_stkoverflow (a : Addr) : (forgetText a s).stkoverflow = s.stkoverflow := rfl
@[simp] theorem forgetText_db (a : Addr) : (forgetText a s).db = s.db := rfl
@[simp] theorem forgetText_insvc (a : Addr) : (forgetText a s).insvc = s.insvc := rfl
@[simp] theorem forgetText_power (a : Addr) : (forgetText a s).power = s.power := rfl
@[simp] theorem forgetText_sleepArmed (a : Addr) : (forgetText a s).sleepArmed = s.sleepArmed := rfl
@[simp] theorem forgetText_icache (a : Addr) : (forgetText a s).icache = s.icache := rfl
@[simp] theorem forgetText_lags (a : Addr) : (forgetText a s).lags = s.lags := rfl
@[simp] theorem forgetText_sstatLag (a : Addr) : (forgetText a s).sstatLag = s.sstatLag := rfl
@[simp] theorem forgetText_tick (a : Addr) : (forgetText a s).tick = s.tick := rfl
@[simp] theorem forgetText_events (a : Addr) : (forgetText a s).events = s.events := rfl
@[simp] theorem forgetText_text (a : Addr) : (forgetText a s).text = s.text := rfl
@[simp] theorem forgetText_others (a : Addr) : (forgetText a s).others = s.others := rfl

/-! ### `storeText` -/

@[simp] theorem storeText_cfg (a : Addr) (w : PWord) : (storeText a w s).cfg = s.cfg := rfl
@[simp] theorem storeText_pc (a : Addr) (w : PWord) : (storeText a w s).pc = s.pc := rfl
@[simp] theorem storeText_dagPri (a : Addr) (w : PWord) : (storeText a w s).dagPri = s.dagPri := rfl
@[simp] theorem storeText_dagSec (a : Addr) (w : PWord) : (storeText a w s).dagSec = s.dagSec := rfl
@[simp] theorem storeText_dataPri (a : Addr) (w : PWord) : (storeText a w s).dataPri = s.dataPri := rfl
@[simp] theorem storeText_dataSec (a : Addr) (w : PWord) : (storeText a w s).dataSec = s.dataSec := rfl
@[simp] theorem storeText_ijpg (a : Addr) (w : PWord) : (storeText a w s).ijpg = s.ijpg := rfl
@[simp] theorem storeText_iopg (a : Addr) (w : PWord) : (storeText a w s).iopg = s.iopg := rfl
@[simp] theorem storeText_cntr (a : Addr) (w : PWord) : (storeText a w s).cntr = s.cntr := rfl
@[simp] theorem storeText_ccode (a : Addr) (w : PWord) : (storeText a w s).ccode = s.ccode := rfl
@[simp] theorem storeText_stacka (a : Addr) (w : PWord) : (storeText a w s).stacka = s.stacka := rfl
@[simp] theorem storeText_stackp (a : Addr) (w : PWord) : (storeText a w s).stackp = s.stackp := rfl
@[simp] theorem storeText_lpstacka (a : Addr) (w : PWord) : (storeText a w s).lpstacka = s.lpstacka := rfl
@[simp] theorem storeText_lpstackp (a : Addr) (w : PWord) : (storeText a w s).lpstackp = s.lpstackp := rfl
@[simp] theorem storeText_astat (a : Addr) (w : PWord) : (storeText a w s).astat = s.astat := rfl
@[simp] theorem storeText_mstat (a : Addr) (w : PWord) : (storeText a w s).mstat = s.mstat := rfl
@[simp] theorem storeText_icntl (a : Addr) (w : PWord) : (storeText a w s).icntl = s.icntl := rfl
@[simp] theorem storeText_imask (a : Addr) (w : PWord) : (storeText a w s).imask = s.imask := rfl
@[simp] theorem storeText_irptl (a : Addr) (w : PWord) : (storeText a w s).irptl = s.irptl := rfl
@[simp] theorem storeText_pcstk (a : Addr) (w : PWord) : (storeText a w s).pcstk = s.pcstk := rfl
@[simp] theorem storeText_lpstk (a : Addr) (w : PWord) : (storeText a w s).lpstk = s.lpstk := rfl
@[simp] theorem storeText_stsstk (a : Addr) (w : PWord) : (storeText a w s).stsstk = s.stsstk := rfl
@[simp] theorem storeText_pcLost (a : Addr) (w : PWord) : (storeText a w s).pcLost = s.pcLost := rfl
@[simp] theorem storeText_lpLost (a : Addr) (w : PWord) : (storeText a w s).lpLost = s.lpLost := rfl
@[simp] theorem storeText_stsLost (a : Addr) (w : PWord) : (storeText a w s).stsLost = s.stsLost := rfl
@[simp] theorem storeText_pcstklvl (a : Addr) (w : PWord) : (storeText a w s).pcstklvl = s.pcstklvl := rfl
@[simp] theorem storeText_stkoverflow (a : Addr) (w : PWord) : (storeText a w s).stkoverflow = s.stkoverflow := rfl
@[simp] theorem storeText_db (a : Addr) (w : PWord) : (storeText a w s).db = s.db := rfl
@[simp] theorem storeText_insvc (a : Addr) (w : PWord) : (storeText a w s).insvc = s.insvc := rfl
@[simp] theorem storeText_power (a : Addr) (w : PWord) : (storeText a w s).power = s.power := rfl
@[simp] theorem storeText_sleepArmed (a : Addr) (w : PWord) : (storeText a w s).sleepArmed = s.sleepArmed := rfl
@[simp] theorem storeText_icache (a : Addr) (w : PWord) : (storeText a w s).icache = s.icache := rfl
@[simp] theorem storeText_lags (a : Addr) (w : PWord) : (storeText a w s).lags = s.lags := rfl
@[simp] theorem storeText_sstatLag (a : Addr) (w : PWord) : (storeText a w s).sstatLag = s.sstatLag := rfl
@[simp] theorem storeText_tick (a : Addr) (w : PWord) : (storeText a w s).tick = s.tick := rfl
@[simp] theorem storeText_events (a : Addr) (w : PWord) : (storeText a w s).events = s.events := rfl
@[simp] theorem storeText_text (a : Addr) (w : PWord) : (storeText a w s).text = s.text := rfl
@[simp] theorem storeText_others (a : Addr) (w : PWord) : (storeText a w s).others = s.others := rfl

/-! ### `noteText` -/

@[simp] theorem noteText_cfg (f : Fetched) : (noteText f s).cfg = s.cfg := by cases f <;> rfl
@[simp] theorem noteText_pc (f : Fetched) : (noteText f s).pc = s.pc := by cases f <;> rfl
@[simp] theorem noteText_mem (f : Fetched) : (noteText f s).mem = s.mem := by cases f <;> rfl
@[simp] theorem noteText_dagPri (f : Fetched) : (noteText f s).dagPri = s.dagPri := by cases f <;> rfl
@[simp] theorem noteText_dagSec (f : Fetched) : (noteText f s).dagSec = s.dagSec := by cases f <;> rfl
@[simp] theorem noteText_dataPri (f : Fetched) : (noteText f s).dataPri = s.dataPri := by cases f <;> rfl
@[simp] theorem noteText_dataSec (f : Fetched) : (noteText f s).dataSec = s.dataSec := by cases f <;> rfl
@[simp] theorem noteText_ijpg (f : Fetched) : (noteText f s).ijpg = s.ijpg := by cases f <;> rfl
@[simp] theorem noteText_iopg (f : Fetched) : (noteText f s).iopg = s.iopg := by cases f <;> rfl
@[simp] theorem noteText_cntr (f : Fetched) : (noteText f s).cntr = s.cntr := by cases f <;> rfl
@[simp] theorem noteText_ccode (f : Fetched) : (noteText f s).ccode = s.ccode := by cases f <;> rfl
@[simp] theorem noteText_stacka (f : Fetched) : (noteText f s).stacka = s.stacka := by cases f <;> rfl
@[simp] theorem noteText_stackp (f : Fetched) : (noteText f s).stackp = s.stackp := by cases f <;> rfl
@[simp] theorem noteText_lpstacka (f : Fetched) : (noteText f s).lpstacka = s.lpstacka := by cases f <;> rfl
@[simp] theorem noteText_lpstackp (f : Fetched) : (noteText f s).lpstackp = s.lpstackp := by cases f <;> rfl
@[simp] theorem noteText_astat (f : Fetched) : (noteText f s).astat = s.astat := by cases f <;> rfl
@[simp] theorem noteText_mstat (f : Fetched) : (noteText f s).mstat = s.mstat := by cases f <;> rfl
@[simp] theorem noteText_icntl (f : Fetched) : (noteText f s).icntl = s.icntl := by cases f <;> rfl
@[simp] theorem noteText_imask (f : Fetched) : (noteText f s).imask = s.imask := by cases f <;> rfl
@[simp] theorem noteText_irptl (f : Fetched) : (noteText f s).irptl = s.irptl := by cases f <;> rfl
@[simp] theorem noteText_pcstk (f : Fetched) : (noteText f s).pcstk = s.pcstk := by cases f <;> rfl
@[simp] theorem noteText_lpstk (f : Fetched) : (noteText f s).lpstk = s.lpstk := by cases f <;> rfl
@[simp] theorem noteText_stsstk (f : Fetched) : (noteText f s).stsstk = s.stsstk := by cases f <;> rfl
@[simp] theorem noteText_pcLost (f : Fetched) : (noteText f s).pcLost = s.pcLost := by cases f <;> rfl
@[simp] theorem noteText_lpLost (f : Fetched) : (noteText f s).lpLost = s.lpLost := by cases f <;> rfl
@[simp] theorem noteText_stsLost (f : Fetched) : (noteText f s).stsLost = s.stsLost := by cases f <;> rfl
@[simp] theorem noteText_pcstklvl (f : Fetched) : (noteText f s).pcstklvl = s.pcstklvl := by cases f <;> rfl
@[simp] theorem noteText_stkoverflow (f : Fetched) : (noteText f s).stkoverflow = s.stkoverflow := by cases f <;> rfl
@[simp] theorem noteText_db (f : Fetched) : (noteText f s).db = s.db := by cases f <;> rfl
@[simp] theorem noteText_insvc (f : Fetched) : (noteText f s).insvc = s.insvc := by cases f <;> rfl
@[simp] theorem noteText_power (f : Fetched) : (noteText f s).power = s.power := by cases f <;> rfl
@[simp] theorem noteText_sleepArmed (f : Fetched) : (noteText f s).sleepArmed = s.sleepArmed := by cases f <;> rfl
@[simp] theorem noteText_icache (f : Fetched) : (noteText f s).icache = s.icache := by cases f <;> rfl
@[simp] theorem noteText_lags (f : Fetched) : (noteText f s).lags = s.lags := by cases f <;> rfl
@[simp] theorem noteText_sstatLag (f : Fetched) : (noteText f s).sstatLag = s.sstatLag := by cases f <;> rfl
@[simp] theorem noteText_tick (f : Fetched) : (noteText f s).tick = s.tick := by cases f <;> rfl
@[simp] theorem noteText_events (f : Fetched) : (noteText f s).events = s.events := by cases f <;> rfl
@[simp] theorem noteText_text (f : Fetched) : (noteText f s).text = s.text := by cases f <;> rfl
@[simp] theorem noteText_others (f : Fetched) : (noteText f s).others = s.others := by cases f <;> rfl

/-! ### The fields the updates change -/

@[simp] theorem forgetText_slotSites (a : Addr) : (forgetText a s).slotSites = s.slotSites.filter (· ≠ a) := rfl
@[simp] theorem forgetText_loopSites (a : Addr) : (forgetText a s).loopSites = s.loopSites.filter (fun l => l.site ≠ a) := rfl
@[simp] theorem forgetText_popSites (a : Addr) : (forgetText a s).popSites = s.popSites.filter (· ≠ a) := rfl
@[simp] theorem storeText_mem (a : Addr) (w : PWord) : (storeText a w s).mem = s.mem.writeWord a w := rfl
@[simp] theorem storeText_slotSites (a : Addr) (w : PWord) : (storeText a w s).slotSites = s.slotSites.filter (· ≠ a) := rfl
@[simp] theorem storeText_loopSites (a : Addr) (w : PWord) :
    (storeText a w s).loopSites = s.loopSites.filter (fun l => l.site ≠ a) := rfl
@[simp] theorem storeText_popSites (a : Addr) (w : PWord) : (storeText a w s).popSites = s.popSites.filter (· ≠ a) := rfl
@[simp] theorem noteText_other_popSites (n : WordCount) :
    (noteText (.other n) s).popSites = s.popSites.filter (· ≠ s.pc) := rfl
@[simp] theorem noteText_core_popSites (i : Instr) :
    (noteText (.core i) s).popSites =
      if isPopLoop i then s.pc :: s.popSites.filter (· ≠ s.pc) else s.popSites.filter (· ≠ s.pc) := rfl
@[simp] theorem noteText_other_slotSites (n : WordCount) :
    (noteText (.other n) s).slotSites = s.slotSites.filter (· ≠ s.pc) := rfl
@[simp] theorem noteText_other_loopSites (n : WordCount) :
    (noteText (.other n) s).loopSites = s.loopSites.filter (fun l => l.site ≠ s.pc) := rfl
@[simp] theorem noteText_core_slotSites (i : Instr) :
    (noteText (.core i) s).slotSites =
      if isDelayedBranch i then s.pc :: s.slotSites.filter (· ≠ s.pc) else s.slotSites.filter (· ≠ s.pc) := rfl
@[simp] theorem noteText_core_loopSites (i : Instr) :
    (noteText (.core i) s).loopSites = loopSiteOf i s.pc ++ s.loopSites.filter (fun l => l.site ≠ s.pc) := rfl
@[simp] theorem latch_irptl (n : BitVec 4) : (latch n s).irptl = s.irptl ||| bit n := rfl
@[simp] theorem clearLatch_irptl (n : BitVec 4) : (clearLatch n s).irptl = s.irptl &&& ~~~bit n := rfl
@[simp] theorem raiseStackInterrupt_irptl : (raiseStackInterrupt s).irptl = s.irptl ||| bit s.cfg.stackIrq := rfl
@[simp] theorem openLag_lags (r : LagReg) (o : Reg16) (k : Nat) :
    (openLag r o k s).lags = { reg := r, old := o, left := k } :: s.lags := rfl
@[simp] theorem beginInstr_lags : (beginInstr s).lags = agedLags s.lags := rfl
@[simp] theorem beginInstr_sstatLag : (beginInstr s).sstatLag = agedSstat s.sstatLag := rfl
@[simp] theorem beginInstr_icache : (beginInstr s).icache = agedCache s.icache := rfl
@[simp] theorem beginInstr_tick : (beginInstr s).tick = s.tick + 1 := rfl
@[simp] theorem beginStep_tick : (beginStep s).tick = s.tick + 1 := rfl
@[simp] theorem writeMstatLate_mstat (m : Reg16) : (writeMstatLate m s).mstat = m := rfl
@[simp] theorem writeModes_mstat (k : Reg16) (v : Bool) : (writeModes k v s).mstat = setBits k v s.mstat := rfl
@[simp] theorem advance_pc (n : WordCount) : (advance n s).pc = s.pc + wordsOf n := rfl
@[simp] theorem loadStackRegs_stacka (a : Addr) : (loadStackRegs a s).stacka = lowOf a := rfl
@[simp] theorem loadStackRegs_stackp (a : Addr) : (loadStackRegs a s).stackp = pageOf a := rfl
@[simp] theorem loadStatus_astat (e : StatusEntry) : (loadStatus e s).astat = e.astat := rfl
@[simp] theorem loadStatus_mstat (e : StatusEntry) : (loadStatus e s).mstat = e.mstat := rfl
@[simp] theorem loadLoopEnd_lpstacka (r : LoopRec) : (loadLoopEnd r s).lpstacka = lowOf r.last := rfl
@[simp] theorem loadLoopEnd_lpstackp (r : LoopRec) :
    (loadLoopEnd r s).lpstackp = BitVec.ofBool r.forever ++ 0#7 ++ pageOf r.last := rfl
@[simp] theorem loadLoopEnd_cntr (r : LoopRec) : (loadLoopEnd r s).cntr = r.count := rfl
@[simp] theorem transfer_pc (d : Bool) (t : Addr) : (transfer d t s).pc = if d then s.pc + 1 else t := by cases d <;> rfl
@[simp] theorem transfer_db (d : Bool) (t : Addr) :
    (transfer d t s).db = if d then some { remaining := .two, target := t } else s.db := by cases d <;> rfl

end Sys2Proof.Machine
end

