-- ==== Sys2Proof/Laws/Sequencing.lean ====
section
/-! SUPPORT. What the sequencing function can answer: one lemma for each way an instruction ends. -/

namespace Sys2Proof.Machine

open Sys2Proof.Safety

variable {s t : State}

/-! ### In sequence -/

/-- A one-word instruction in sequence. -/
theorem seqNext_one (h : SeqReady s) : seqNext .one s = .next (inSequence s) := by
  unfold seqNext inSequence
  cases hdb : s.db with
  | some d =>
    obtain ⟨r, tgt⟩ := d
    cases r <;> rfl
  | none =>
    have hl : s.lpLost = false := by simpa [SeqReady, hdb] using h
    cases hlp : s.lpstk with
    | nil => simp [hl]
    | cons top rest =>
      by_cases he : top.last = s.pc <;> simp [hl, twoWordsAtEnd, he]

/-- A one-word instruction that is not ready to be sequenced: the loop hardware has no defined record. -/
theorem seqNext_one_lost (hdb : s.db = none) (hl : s.lpLost = true) : seqNext .one s = .fault (.loopEndUnspecified s.pc) := by
  simp [seqNext, hdb, hl]

/-- A two-word instruction outside delay slots, away from the active loop end. -/
theorem seqNext_two (hdb : s.db = none) (hl : s.lpLost = false)
    (he : ∀ top ∈ s.lpstk.head?, top.last ≠ s.pc ∧ top.last ≠ s.pc + 1) : seqNext .two s = .next (advance .two s) := by
  unfold seqNext
  cases hlp : s.lpstk with
  | nil => simp [hdb, hl]
  | cons top rest =>
    obtain ⟨h1, h2⟩ := he top (by simp [hlp])
    have hw : twoWordsAtEnd .two s.pc top.last = false := by simpa [twoWordsAtEnd] using ⟨h1, h2⟩
    simp [hdb, hl, hw, h1]

/-- Whatever is in sequence leaves everything alone but the program counter, the delayed branch, the loop stacks and the window
of `SSTAT`. -/
theorem seqNext_frame {n : WordCount} (h : seqNext n s = .next t) :
    ∃ pc lpstk db sstatLag, t = { s with pc := pc, lpstk := lpstk, db := db, sstatLag := sstatLag } := by
  unfold seqNext at h
  split at h
  · split at h
    · injection h with h
      exact ⟨_, s.lpstk, _, s.sstatLag, h.symm⟩
    · injection h with h
      exact ⟨_, s.lpstk, _, s.sstatLag, h.symm⟩
    · injection h with h
      exact ⟨_, s.lpstk, _, s.sstatLag, h.symm⟩
    · cases h
  · split at h
    · cases h
    · split at h
      · injection h with h
        exact ⟨_, s.lpstk, s.db, s.sstatLag, h.symm⟩
      · split at h
        · cases h
        · split at h
          · injection h with h
            subst h
            unfold loopEnd
            split
            · exact ⟨_, _, s.db, s.sstatLag, rfl⟩
            · exact ⟨_, _, s.db, _, rfl⟩
          · injection h with h
            exact ⟨_, s.lpstk, s.db, s.sstatLag, h.symm⟩

/-! ### Branches -/

/-- No record on the loop stacks and no loop of the program text ends at the program counter. -/
theorem endsNoLoop_iff : EndsNoLoop s ↔ (∀ r ∈ s.lpstk, r.last ≠ s.pc) ∧ ∀ l ∈ textLoops s, l.last ≠ s.pc := by
  simp [endsLoop, EndsNoLoop]

/-- `transfer` in the words of the statements. -/
theorem transfer_eq_branched (delayed : Bool) (a : Addr) (s : State) : transfer delayed a s = branched delayed a s := by
  cases delayed <;> simp [transfer, branched]

/-- A branch that the loop hardware allows. -/
theorem branchTo_ready {k : BranchKind} {n : WordCount} {delayed : Bool} (a : Addr) (h : BranchReady k n delayed s) :
    branchTo k n delayed a s = .next (branched delayed a s) := by
  obtain ⟨hdb, hl, hcall, hend⟩ := h
  rw [← transfer_eq_branched delayed a s]
  have hc : (decide (k = .call) && endsLoop s.pc s) = false := by
    by_cases hk : k = .call
    · simp [show endsLoop s.pc s = false from hcall hk]
    · simp [hk]
  unfold branchTo
  cases hlp : s.lpstk with
  | nil => simp [hdb, hl, hc]
  | cons top rest =>
    obtain ⟨h1, h2, h3⟩ := hend top (by simp [hlp])
    have hd : (delayed && (decide (top.last = s.pc) || decide (top.last = s.pc + 1) || decide (top.last = s.pc + 2))) = false := by
      cases delayed with
      | false => rfl
      | true =>
        obtain ⟨a1, a2, a3⟩ := h1 rfl
        simpa using ⟨⟨a1, a2⟩, a3⟩
    have hw : twoWordsAtEnd n s.pc top.last = false := by
      cases n with
      | one => simp [twoWordsAtEnd]
      | two =>
        obtain ⟨a1, a2⟩ := h2 rfl
        simpa [twoWordsAtEnd] using ⟨a1, a2⟩
    simp only [hdb, hl, hw, hc, Bool.false_eq_true, if_false]
    rw [if_neg (by simpa using hd)]
    split
    · rename_i he
      obtain ⟨hk, hf⟩ := h3 he
      simp [hk, hf]
    · rfl

/-- A branch answers a next state only by transferring control, outside delay slots. -/
theorem branchTo_next {k : BranchKind} {n : WordCount} {delayed : Bool} {a : Addr} (h : branchTo k n delayed a s = .next t) :
    s.db = none ∧ s.lpLost = false ∧ t = branched delayed a s := by
  unfold branchTo at h
  cases hdb : s.db with
  | some d => simp [hdb] at h
  | none =>
    have ht := transfer_eq_branched delayed a s
    simp only [hdb] at h
    split at h
    · cases h
    · rename_i hl
      have hl' : s.lpLost = false := by simpa using hl
      split at h
      · cases h
      · split at h
        · injection h with h
          exact ⟨rfl, hl', by rw [← h, ht]⟩
        · split at h
          · cases h
          · split at h
            · cases h
            · split at h
              · split at h
                · injection h with h
                  exact ⟨rfl, hl', by rw [← h, ht]⟩
                · cases h
              · injection h with h
                exact ⟨rfl, hl', by rw [← h, ht]⟩

/-! ### Conditions -/

/-- Evaluating a condition changes at most the counter and opens at most the counter's window. -/
theorem evalCond_frame (c : Cond) (s : State) : ∃ cntr lags, (evalCond c s).2 = { s with cntr := cntr, lags := lags } := by
  cases c <;> first
    | exact ⟨s.cntr, s.lags, rfl⟩
    | skip
  simp only [evalCond, testCounter, openLag]
  split <;> exact ⟨_, _, rfl⟩

theorem ifCond_true {c : Cond} {n : WordCount} {taken : State → Result} (h : (evalCond c s).1 = true) :
    ifCond c n s taken = taken (evalCond c s).2 := by
  simp [ifCond, h]

theorem ifCond_false {c : Cond} {n : WordCount} {taken : State → Result} (h : (evalCond c s).1 = false) :
    ifCond c n s taken = seqNext n (evalCond c s).2 := by
  simp [ifCond, h]

end Sys2Proof.Machine
end

