-- ==== Sys2Proof/Laws/Stacks.lean ====
section
/-! SUPPORT. What each stack operation, interrupt entry and the return from it can do: one lemma for each operation. -/

namespace Sys2Proof.Machine

open Sys2Proof.Safety

variable {s t : State}

/-! ### The PC stack -/

/-- The water-mark check after the PC stack became `stk`. -/
theorem levelCheck_stack (stk : List Addr) (mark : Nat) (s : State) :
    levelCheck mark { s with pcstk := stk } = withPcStack stk mark s := by
  by_cases h : stk.length = mark <;> by_cases h' : s.icntl.getLsbD 10 = true <;>
    simp [levelCheck, withPcStack, raiseIf, spillFill, h, h', lvlClear, drawBit]

/-- `pcPush`: lost, overflowing, or with room. -/
theorem pcPush_cases (v : Addr) (s : State) :
    (s.pcLost = true ∧ pcPush v s = raiseIf (drawBit .lostLevel s) { s with pcstklvl := drawBit .pcLevel s }) ∨
    (s.pcLost = false ∧ 33 ≤ s.pcstk.length ∧
      pcPush v s =
        raiseStackInterrupt { s with pcstk := [], pcLost := true, stkoverflow := true, pcstklvl := drawBit .pcLevel s }) ∨
    (PcRoom s ∧ pcPush v s = withPcStack (v :: s.pcstk) s.cfg.pcHighWater s) := by
  unfold pcPush
  split
  · exact .inl ⟨by assumption, rfl⟩
  · rename_i hl
    split
    · exact .inr (.inl ⟨by simpa using hl, by simpa [pcDepth] using ‹_›, rfl⟩)
    · exact .inr (.inr ⟨⟨by simpa using hl, Nat.lt_of_not_le ‹_›⟩, levelCheck_stack _ _ s⟩)

theorem pcPush_of_room (v : Addr) (h : PcRoom s) : pcPush v s = withPcStack (v :: s.pcstk) s.cfg.pcHighWater s := by
  rcases pcPush_cases v s with ⟨hl, -⟩ | ⟨-, hf, -⟩ | ⟨-, he⟩
  · simp [h.1] at hl
  · have := h.2
    omega
  · exact he

theorem pcPush_of_full (v : Addr) (hl : s.pcLost = false) (hf : 33 ≤ s.pcstk.length) :
    pcPush v s =
      raiseStackInterrupt { s with pcstk := [], pcLost := true, stkoverflow := true, pcstklvl := drawBit .pcLevel s } := by
  simp [pcPush, hl, pcDepth, hf]

/-- `pcPop`: lost, empty, or an address. -/
theorem pcPop_cases (i : Instr) (s : State) :
    (s.pcLost = true ∧ pcPop i s = .error (.pcStackUnspecified i s.pc)) ∨
    (s.pcLost = false ∧ s.pcstk = [] ∧ pcPop i s = .error (.pcStackUnderflow i s.pc)) ∨
    (s.pcLost = false ∧ ∃ v rest, s.pcstk = v :: rest ∧ pcPop i s = .ok (v, withPcStack rest s.cfg.pcLowWater s)) := by
  unfold pcPop
  split
  · exact .inl ⟨by assumption, rfl⟩
  · rename_i hl
    have hl' : s.pcLost = false := by simpa using hl
    split
    · exact .inr (.inl ⟨hl', by assumption, rfl⟩)
    · exact .inr (.inr ⟨hl', _, _, by assumption, by rw [levelCheck_stack]⟩)

theorem pcPop_of_cons (i : Instr) {v : Addr} {rest : List Addr} (hl : s.pcLost = false) (h : s.pcstk = v :: rest) :
    pcPop i s = .ok (v, withPcStack rest s.cfg.pcLowWater s) := by
  rcases pcPop_cases i s with ⟨hl', -⟩ | ⟨-, he, -⟩ | ⟨-, v', rest', he, hp⟩
  · simp [hl] at hl'
  · simp [h] at he
  · rw [h] at he
    cases he
    exact hp

/-! ### The loop stacks -/

/-- `lpPush`: lost, overflowing, or with room. -/
theorem lpPush_cases (r : LoopRec) (s : State) :
    (s.lpLost = true ∧ lpPush r s = s) ∨
    (s.lpLost = false ∧ 8 ≤ s.lpstk.length ∧
      lpPush r s = raiseStackInterrupt { s with lpstk := [], lpLost := true, stkoverflow := true }) ∨
    (LoopRoom s ∧ lpPush r s = { s with lpstk := r :: s.lpstk }) := by
  unfold lpPush
  split
  · exact .inl ⟨by assumption, rfl⟩
  · rename_i hl
    split
    · exact .inr (.inl ⟨by simpa using hl, by simpa [lpDepth] using ‹_›, rfl⟩)
    · exact .inr (.inr ⟨⟨by simpa using hl, Nat.lt_of_not_le ‹_›⟩, rfl⟩)

theorem lpPush_of_room (r : LoopRec) (h : LoopRoom s) : lpPush r s = { s with lpstk := r :: s.lpstk } := by
  rcases lpPush_cases r s with ⟨hl, -⟩ | ⟨-, hf, -⟩ | ⟨-, he⟩
  · simp [h.1] at hl
  · have := h.2
    omega
  · exact he

theorem lpPush_of_full (r : LoopRec) (hl : s.lpLost = false) (hf : 8 ≤ s.lpstk.length) :
    lpPush r s = raiseStackInterrupt { s with lpstk := [], lpLost := true, stkoverflow := true } := by
  simp [lpPush, hl, lpDepth, hf]

/-- `lpPop`: lost, empty, or a record. -/
theorem lpPop_cases (i : Instr) (s : State) :
    (s.lpLost = true ∧ lpPop i s = .error (.loopStackUnspecified i s.pc)) ∨
    (s.lpLost = false ∧ s.lpstk = [] ∧ lpPop i s = .error (.loopStackUnderflow i s.pc)) ∨
    (s.lpLost = false ∧ ∃ r rest, s.lpstk = r :: rest ∧ lpPop i s = .ok (r, { s with lpstk := rest })) := by
  unfold lpPop
  split
  · exact .inl ⟨by assumption, rfl⟩
  · rename_i hl
    have hl' : s.lpLost = false := by simpa using hl
    split
    · exact .inr (.inl ⟨hl', by assumption, rfl⟩)
    · exact .inr (.inr ⟨hl', _, _, by assumption, rfl⟩)

theorem lpPop_of_cons (i : Instr) {r : LoopRec} {rest : List LoopRec} (hl : s.lpLost = false) (h : s.lpstk = r :: rest) :
    lpPop i s = .ok (r, { s with lpstk := rest }) := by
  simp [lpPop, hl, h]

/-! ### The status stack -/

/-- `stsPush`: lost, overflowing, or with room. -/
theorem stsPush_cases (e : StatusEntry) (s : State) :
    (s.stsLost = true ∧ stsPush e s = raiseIf (drawBit .lostStatus s) s) ∨
    (s.stsLost = false ∧ 16 ≤ s.stsstk.length ∧
      stsPush e s = raiseStackInterrupt { s with stsstk := [], stsLost := true, stkoverflow := true }) ∨
    (StsRoom s ∧ stsPush e s = { s with stsstk := e :: s.stsstk }) := by
  unfold stsPush
  split
  · exact .inl ⟨by assumption, rfl⟩
  · rename_i hl
    split
    · exact .inr (.inl ⟨by simpa using hl, by simpa [stsDepth] using ‹_›, rfl⟩)
    · exact .inr (.inr ⟨⟨by simpa using hl, Nat.lt_of_not_le ‹_›⟩, rfl⟩)

theorem stsPush_of_room (e : StatusEntry) (h : StsRoom s) : stsPush e s = { s with stsstk := e :: s.stsstk } := by
  rcases stsPush_cases e s with ⟨hl, -⟩ | ⟨-, hf, -⟩ | ⟨-, he⟩
  · simp [h.1] at hl
  · have := h.2
    omega
  · exact he

/-- `stsPop`: lost, empty, or an entry. -/
theorem stsPop_cases (i : Instr) (s : State) :
    (s.stsLost = true ∧ stsPop i s = .error (.statusStackUnspecified i s.pc)) ∨
    (s.stsLost = false ∧ s.stsstk = [] ∧ stsPop i s = .error (.statusStackUnderflow i s.pc)) ∨
    (s.stsLost = false ∧ ∃ e rest, s.stsstk = e :: rest ∧ stsPop i s = .ok (e, { s with stsstk := rest })) := by
  unfold stsPop
  split
  · exact .inl ⟨by assumption, rfl⟩
  · rename_i hl
    have hl' : s.stsLost = false := by simpa using hl
    split
    · exact .inr (.inl ⟨hl', by assumption, rfl⟩)
    · exact .inr (.inr ⟨hl', _, _, by assumption, rfl⟩)

theorem stsPop_of_cons (i : Instr) {e : StatusEntry} {rest : List StatusEntry} (hl : s.stsLost = false) (h : s.stsstk = e :: rest) :
    stsPop i s = .ok (e, { s with stsstk := rest }) := by
  simp [stsPop, hl, h]

/-! ### The return from an interrupt -/

theorem leaveInterrupt_of_cons (i : Instr) {v : Addr} {rest : List Addr} {e : StatusEntry} {es : List StatusEntry}
    (hp : s.pcLost = false) (h : s.pcstk = v :: rest) (hs : s.stsLost = false) (h' : s.stsstk = e :: es) :
    leaveInterrupt i s =
      .ok (v, writeMstatLate e.mstat
        { withPcStack rest s.cfg.pcLowWater s with stsstk := es, astat := e.astat, insvc := s.insvc.tail }) := by
  rw [leaveInterrupt, pcPop_of_cons i hp h]
  simp only
  rw [stsPop_of_cons i (s := withPcStack rest s.cfg.pcLowWater s) (e := e) (rest := es) hs h']
  rfl

end Sys2Proof.Machine
end

