-- ==== Sys2Proof/Laws/Text.lean ====
section
/-! SUPPORT. What the program text holds, and what the check over a program finds. -/

namespace Sys2Proof.Machine

variable {s t : State} {a : Addr}

/-- What it is for memory to hold an instruction of a kind. -/
theorem holdsKind_iff {kind : Instr → Bool} {c : Coding} {m : Memory} :
    holdsKind kind c m a = true ↔ ∃ i, instrAt c m a = some (.core i) ∧ kind i = true := by
  unfold holdsKind
  split <;> simp_all

/-- A delayed branch of the text has executed there, or the program declares one. -/
theorem mem_branchPlaces :
    a ∈ branchPlaces s ↔
      a ∈ s.slotSites ∨ a ∈ s.text ∧ ∃ i, instrAt s.cfg.coding s.mem a = some (.core i) ∧ isDelayedBranch i = true := by
  rw [branchPlaces, List.mem_append, List.mem_filter, holdsKind_iff]

/-- A `POP LOOP` of the text has executed there, or the program declares one. -/
theorem mem_popPlaces :
    a ∈ popPlaces s ↔ a ∈ s.popSites ∨ a ∈ s.text ∧ ∃ b, instrAt s.cfg.coding s.mem a = some (.core (.popLoop b)) := by
  rw [popPlaces, List.mem_append, List.mem_filter, holdsKind_iff]
  have h : ∀ i, isPopLoop i = true ↔ ∃ b, i = .popLoop b := by
    intro i
    cases i <;> simp [isPopLoop]
  simp only [h]
  constructor
  · rintro (hp | ⟨ht, _, hi, b, rfl⟩)
    · exact .inl hp
    · exact .inr ⟨ht, b, hi⟩
  · rintro (hp | ⟨ht, b, hi⟩)
    · exact .inl hp
    · exact .inr ⟨ht, _, hi, b, rfl⟩

/-- `DO UNTIL` is the one instruction that makes a loop of the text. -/
theorem mem_loopSiteOf {i : Instr} {l : LoopSite} :
    l ∈ loopSiteOf i a ↔ ∃ imm term, i = .doUntil imm term ∧ l = { site := a, last := loopLast a imm } := by
  cases i <;> simp [loopSiteOf]

/-- The `DO UNTIL` of a loop of the text has executed, or the program declares it. -/
theorem mem_textLoops {l : LoopSite} :
    l ∈ textLoops s ↔
      l ∈ s.loopSites ∨
        l.site ∈ s.text ∧
          ∃ imm term, instrAt s.cfg.coding s.mem l.site = some (.core (.doUntil imm term)) ∧ l.last = loopLast l.site imm := by
  have h : ∀ b, l ∈ loopPlace s.cfg.coding s.mem b ↔
      b = l.site ∧ ∃ imm term, instrAt s.cfg.coding s.mem b = some (.core (.doUntil imm term)) ∧ l.last = loopLast b imm := by
    intro b
    unfold loopPlace
    split
    · rename_i i hi
      simp only [mem_loopSiteOf, hi, Option.some.injEq, Fetched.core.injEq]
      constructor
      · rintro ⟨imm, term, rfl, rfl⟩
        exact ⟨rfl, imm, term, rfl, rfl⟩
      · rintro ⟨rfl, imm, term, rfl, hl⟩
        exact ⟨imm, term, rfl, by rw [← hl]⟩
    · simp [*]
    · simp [*]
  simp only [textLoops, List.mem_append, List.mem_flatMap, h]
  constructor
  · rintro (hl | ⟨b, hb, rfl, hx⟩)
    · exact .inl hl
    · exact .inr ⟨hb, hx⟩
  · rintro (hl | ⟨hb, hx⟩)
    · exact .inl hl
    · exact .inr ⟨_, hb, rfl, hx⟩

/-- The places of the text depend on the program and on what has executed of it, on nothing else. -/
theorem branchPlaces_congr (h1 : t.slotSites = s.slotSites) (h2 : t.text = s.text) (h3 : t.cfg = s.cfg) (h4 : t.mem = s.mem) :
    branchPlaces t = branchPlaces s := by
  rw [branchPlaces, h1, h2, h3, h4, branchPlaces]

theorem textLoops_congr (h1 : t.loopSites = s.loopSites) (h2 : t.text = s.text) (h3 : t.cfg = s.cfg) (h4 : t.mem = s.mem) :
    textLoops t = textLoops s := by
  rw [textLoops, h1, h2, h3, h4, textLoops]

theorem popPlaces_congr (h1 : t.popSites = s.popSites) (h2 : t.text = s.text) (h3 : t.cfg = s.cfg) (h4 : t.mem = s.mem) :
    popPlaces t = popPlaces s := by
  rw [popPlaces, h1, h2, h3, h4, popPlaces]

theorem insideLoop_congr (h1 : t.lpstk = s.lpstk) (h2 : textLoops t = textLoops s) (h3 : popPlaces t = popPlaces s) :
    insideLoop a t = insideLoop a s := by
  rw [insideLoop, insideTextLoop, h1, h2, h3, insideLoop, insideTextLoop]

/-- Where a return may not stand, in the words of R157: inside a loop on the loop stacks, or inside one of the text no line of which is
a `POP LOOP`. -/
theorem insideLoop_iff :
    insideLoop a s = true ↔
      (∃ r ∈ s.lpstk, a - r.start ≤ r.last - r.start) ∨
        ∃ l ∈ textLoops s, l.site ≠ a ∧ a - (l.site + 1) ≤ l.last - (l.site + 1) ∧
          ∀ b ∈ popPlaces s, ¬b - (l.site + 1) ≤ l.last - (l.site + 1) := by
  simp [insideLoop, insideTextLoop, within, and_assoc]

/-- What the check over a program reports is the problem of a place of the text. -/
theorem programProblem_some {r : Refusal} (h : programProblem s = some (a, r)) :
    a ∈ s.text ∧ ∃ f, instrAt s.cfg.coding s.mem a = some f ∧ placeProblem f a s = some r := by
  obtain ⟨b, hb, h⟩ := List.exists_of_findSome?_eq_some h
  split at h
  · cases h
  · rename_i f hf
    obtain ⟨r', hr, he⟩ := Option.map_eq_some_iff.mp h
    cases he
    exact ⟨hb, f, hf, hr⟩

/-- A program that passes the check has no place with a problem. -/
theorem programProblem_none {f : Fetched} (h : programProblem s = none) (ha : a ∈ s.text)
    (hf : instrAt s.cfg.coding s.mem a = some f) : placeProblem f a s = none := by
  have h := List.findSome?_eq_none_iff.mp h a ha
  simpa [hf] using h

end Sys2Proof.Machine
end

