-- ==== Sys2Proof/Tests/Slice0.lean ====
section
/-! SUPPORT. Tests of the definitions: ill-formed terms, one word for each row of the opcode table, one or two steps for each
instruction, and states that meet the hypotheses of the statements.

The expected results are those of the hand-derived vectors of `spec/95_test_vectors.md` (named in each docstring) or are worked out from
the rule named. The words are worked out from the table of `Sys2Proof/Decode.lean`, the model's own numbering (log entry 1). -/

namespace Sys2Proof.Tests

open Sys2Proof.Machine Sys2Proof.Safety

/-! ### A small state -/

/-- The parameters of some DSP, all of them within what R7 and N21 allow. -/
def cfg0 : DspConfig where
  coding := .numbering
  hasSlowIdle := true
  hasSleep := true
  emulation := false
  stackIrq := 3
  timerIrq := 14
  vectors := Vector.replicate 16 0x000040
  pcHighWater := 20
  pcLowWater := 5
  lvlClear := .level
  mstatPopLatency := 1

/-- The state after reset, with the parameters above and the program counter at 0x000100. -/
def s0 : State := { State.reset with cfg := cfg0, pc := 0x000100 }

/-- A loop of three instructions that ends at 0x000103. -/
def loop103 : LoopRec where
  start := 0x000101
  last := 0x000103
  forever := false
  count := 5
  openCount := false

/-- A field of the next state. -/
def get {α : Type} (f : State → α) : Result → Option α
  | .next t => some (f t)
  | .fault _ => none
  | .refused _ => none

def faultOf : Result → Option Fault
  | .fault f => some f
  | .next _ => none
  | .refused _ => none

def refusalOf : Result → Option Refusal
  | .refused r => some r
  | .next _ => none
  | .fault _ => none

/-! ### Ill-formed terms (R94, R103, R110) -/

def noModes : ModeSet where
  secReg := false
  bitRev := false
  avLatch := false
  arSat := false
  mMode := false
  timer := false
  secDag := false
  int := false

theorem test_wf_loop_offset_zero : (Instr.doUntil 0 .ce).problem = some .loopOffsetZero := by decide
theorem test_wf_push_pc_loop : (Instr.pushPc .loop).problem = some .pcWithLoop := by decide
theorem test_wf_pop_pc_loop : (Instr.popPc .loop).problem = some .pcWithLoop := by decide
theorem test_wf_ena_nothing : (Instr.ena noModes).problem = some .noMode := by decide
theorem test_wf_dis_nothing : (Instr.dis noModes).problem = some .noMode := by decide
theorem test_wf_accepts : (Instr.doUntil 4095 .ce).WellFormed ∧ (Instr.ena { noModes with int := true }).WellFormed := by decide

/-! ### One word for each row -/

theorem test_decode_doUntil : decode [0x040FFF#24] = .ok (.core (.doUntil 4095 .ce), []) := by decide
theorem test_decode_jumpRel13 : decode [0x0B1FF0#24] = .ok (.core (.jumpRel13 .ac 0x1FF0 true), []) := by decide
theorem test_decode_callRel16 : decode [0x0D8000#24] = .ok (.core (.callRel16 0x8000 true), []) := by decide
theorem test_decode_jumpRel16 : decode [0x107FFF#24] = .ok (.core (.jumpRel16 0x7FFF false), []) := by decide
theorem test_decode_lcall : decode [0x14000F#24, 0xABCDEF#24] = .ok (.core (.lcall .always 0xABCDEF), []) := by decide
theorem test_decode_ljump : decode [0x180001#24, 0xFF0000#24, 7] = .ok (.core (.ljump .ne 0xFF0000), [7]) := by decide
theorem test_decode_callInd : decode [0x1C0085#24] = .ok (.core (.callInd .eq 5 true), []) := by decide
theorem test_decode_jumpInd : decode [0x20007C#24] = .ok (.core (.jumpInd .always 4 false), []) := by decide
theorem test_decode_rti : decode [0x24002F#24] = .ok (.core (.rti .always false true), []) := by decide
theorem test_decode_rts : decode [0x280010#24] = .ok (.core (.rts .eq true), []) := by decide
theorem test_decode_pushPc : decode [0x2C0001#24] = .ok (.core (.pushPc .sts), []) := by decide
theorem test_decode_popPc : decode [0x300000#24] = .ok (.core (.popPc .alone), []) := by decide
theorem test_decode_pushLoop : decode [0x340001#24] = .ok (.core (.pushLoop true), []) := by decide
theorem test_decode_popLoop : decode [0x380000#24] = .ok (.core (.popLoop false), []) := by decide
theorem test_decode_pushSts : decode [0x3C0000#24] = .ok (.core .pushSts, []) := by decide
theorem test_decode_popSts : decode [0x400000#24] = .ok (.core .popSts, []) := by decide
theorem test_decode_flushCache : decode [0x440000#24] = .ok (.core .flushCache, []) := by decide
theorem test_decode_setint : decode [0x48000C#24] = .ok (.core (.setint 12), []) := by decide
theorem test_decode_clrint : decode [0x4C0005#24] = .ok (.core (.clrint 5), []) := by decide
theorem test_decode_nop : decode [0x500000#24] = .ok (.core .nop, []) := by decide
theorem test_decode_idle : decode [0x540000#24] = .ok (.core .idle, []) := by decide
theorem test_decode_idleDiv : decode [0x58000F#24] = .ok (.core (.idleDiv 15), []) := by decide
theorem test_decode_ena : decode [0x5C0080#24] = .ok (.core (.ena { noModes with int := true }), []) := by decide
theorem test_decode_dis :
    decode [0x600041#24] = .ok (.core (.dis { noModes with secReg := true, secDag := true }), []) := by decide
theorem test_decode_other : decode [0xF80000#24] = .ok (.other .one, []) ∧ decode [0xFC0000#24, 1] = .ok (.other .two, []) := by
  decide
theorem test_decode_refuses :
    decode [0x000000#24] = .error .reservedOpcode ∧ decode [0x500001#24] = .error .reservedBits ∧
    decode [0x2C0003#24] = .error .reservedPartner ∧ decode [0x14000F#24] = .error .secondWordMissing := by decide
theorem test_decodeTableWord : decodeTableWord 48 0xABCDEF14000F = some (.lcall .always 0xABCDEF) := by decide

/-! ### Loops (L-1, L-4, L-5, L-7, L-9, L-13, L-14) -/

/-- L-1. -/
theorem test_doUntil_record :
    get State.lpstk (exec (.doUntil 3 .ce) { s0 with cntr := 0x000F }) =
      some [{ start := 0x000101, last := 0x000103, forever := false, count := 0x000F, openCount := false }] := by decide
/-- L-4, and the next instruction stands at `pc + 1`. -/
theorem test_doUntil_far :
    get (fun t => (t.pc, t.lpstk.map LoopRec.last)) (exec (.doUntil 4095 .forever) s0) = some (0x000101, [0x0010FF]) := by decide
/-- L-2: the second pass starts at the loop begin. -/
theorem test_loop_turns :
    get (fun t => (t.pc, t.lpstk.map LoopRec.count)) (exec .nop { s0 with pc := 0x000103, lpstk := [loop103] }) =
      some (0x000101, [4]) := by decide
/-- L-1: after the last pass the record is gone and `CNTR` as it was. -/
theorem test_loop_ends :
    get (fun t => (t.pc, t.lpstk, t.cntr))
      (exec .nop { s0 with pc := 0x000103, cntr := 15, lpstk := [{ loop103 with count := 1 }] }) =
      some (0x000104, [], 15) := by decide
/-- L-9. -/
theorem test_doUntil_ninth :
    get (fun t => (t.stkoverflow, t.irptl)) (exec (.doUntil 3 .forever) { s0 with lpstk := List.replicate 8 loop103 }) =
      some (true, 0x0008) := by decide

/-! ### Jumps and calls (T-1 to T-16, L-13, L-14) -/

/-- T-2. -/
theorem test_jumpRel13_back : get State.pc (exec (.jumpRel13 .always 0x1000 false) { s0 with pc := 0x001000 }) = some 0 := by decide
/-- T-3, D4. -/
theorem test_jumpRel13_wraps :
    get State.pc (exec (.jumpRel13 .always 0x1FFF false) { s0 with pc := 0 }) = some 0xFFFFFF := by decide
/-- C-1. -/
theorem test_notCe_taken :
    get (fun t => (t.pc, t.cntr)) (exec (.jumpRel13 .notCe 4 false) { s0 with pc := 0x000010, cntr := 5 }) =
      some (0x000014, 4) := by decide
/-- C-3. -/
theorem test_notCe_not_taken :
    get (fun t => (t.pc, t.cntr)) (exec (.jumpRel13 .notCe 4 false) { s0 with pc := 0x000010, cntr := 1 }) =
      some (0x000011, 0) := by decide
/-- T-6. -/
theorem test_jumpRel16_back : get State.pc (exec (.jumpRel16 0x8000 false) { s0 with pc := 0x010000 }) = some 0x008000 := by decide
/-- L-14: the record stays. -/
theorem test_jumpRel16_leaves_infinite_loop :
    get (fun t => (t.pc, t.lpstk.length))
      (exec (.jumpRel16 0x0010 false) { s0 with pc := 0x000103, lpstk := [{ loop103 with forever := true }] }) =
      some (0x000113, 1) := by decide
/-- T-9: the return address wraps, and the first slot is next. -/
theorem test_callRel16_delayed :
    get (fun t => (t.pc, t.pcstk, t.db)) (exec (.callRel16 0x0010 true) { s0 with pc := 0xFFFFFE }) =
      some (0xFFFFFF, [0x000001], some { remaining := .two, target := 0x00000E }) := by decide
/-- L-13. -/
theorem test_callRel16_at_loop_end :
    refusalOf (exec (.callRel16 0x0010 false) { s0 with pc := 0x000103, lpstk := [loop103] }) = some .branchAtLoopEnd := by decide
/-- T-10. -/
theorem test_lcall :
    get (fun t => (t.pc, t.pcstk)) (exec (.lcall .always 0xABCDEF) { s0 with pc := 0x00FFFE }) =
      some (0xABCDEF, [0x010000]) := by decide
/-- T-11, with a condition the model defines: nothing is pushed and two words are passed. -/
theorem test_lcall_not_taken :
    get (fun t => (t.pc, t.pcstk)) (exec (.lcall .notCe 0xABCDEF) { s0 with cntr := 1 }) = some (0x000102, []) := by decide
/-- T-12. -/
theorem test_ljump : get (fun t => (t.pc, t.pcstk)) (exec (.ljump .always 0xFF0000) s0) = some (0xFF0000, []) := by decide
/-- T-15: the secondary bank. -/
theorem test_callInd :
    get (fun t => (t.pc, t.pcstk, t.db))
      (exec (.callInd .always 5 true)
        { s0 with
          pc := 0x000500
          mstat := 0x0040
          dagPri := { State.zeroDag with i := Vector.replicate 8 0x0600 }
          dagSec := { State.zeroDag with i := Vector.replicate 8 0x0700 } }) =
      some (0x000501, [0x000503], some { remaining := .two, target := 0x000700 }) := by decide
/-- T-14. -/
theorem test_jumpInd :
    get State.pc (exec (.jumpInd .always 4 false)
      { s0 with ijpg := 0x12, dagPri := { State.zeroDag with i := Vector.replicate 8 0x3456 } }) = some 0x123456 := by decide
/-- T-17: a fresh index register is seen at once. -/
theorem test_jumpInd_fresh :
    get State.pc (exec (.jumpInd .always 4 false) (beginInstr (writeReg (.i 4) 0x0800 s0))) = some 0x000800 := by decide

/-! ### Returns (R-1 to R-7) -/

/-- R-1. -/
theorem test_rts :
    get (fun t => (t.pc, t.pcstk)) (exec (.rts .always false) { s0 with pcstk := [0x000203, 0x000050] }) =
      some (0x000203, [0x000050]) := by decide
/-- R-3. -/
theorem test_rts_empty : faultOf (exec (.rts .always false) s0) = some (.pcStackUnderflow (.rts .always false) 0x000100) := by decide
/-- R-4. -/
theorem test_rti :
    get (fun t => (t.pc, t.astat, t.mstat, t.pcstk.length + t.stsstk.length, t.insvc))
      (exec (.rti .always false false)
        { s0 with pcstk := [0x000402], stsstk := [{ astat := 0x0011, mstat := 0 }], insvc := [14], mstat := 0x0041 }) =
      some (0x000402, 0x0011, 0, 0, []) := by decide
/-- R-7. -/
theorem test_rti_empty :
    faultOf (exec (.rti .always false false) { s0 with pcstk := [0x000402] }) =
      some (.statusStackUnderflow (.rti .always false false) 0x000100) := by decide

/-! ### PUSH and POP (K-1 to K-15) -/

/-- K-1. -/
theorem test_pushPc :
    get State.pcstk (exec (.pushPc .alone) { s0 with stacka := 0x3521, stackp := 0x02 }) = some [0x023521] := by decide
/-- K-14. -/
theorem test_pushPc_sts :
    get (fun t => (t.pcstk, t.stsstk)) (exec (.pushPc .sts) { s0 with stacka := 0x0022, stackp := 0x05, astat := 1, mstat := 2 }) =
      some ([0x050022], [{ astat := 1, mstat := 2 }]) := by decide
/-- K-3. -/
theorem test_popPc :
    get (fun t => (t.stacka, t.stackp, t.pcstk)) (exec (.popPc .alone) { s0 with pcstk := [0x023521] }) =
      some (0x3521, 0x02, []) := by decide
/-- R214: the pair. -/
theorem test_popPc_sts :
    get (fun t => (t.stacka, t.astat, t.mstat))
      (exec (.popPc .sts) { s0 with pcstk := [0x023521], stsstk := [{ astat := 0x0055, mstat := 0x0041 }] }) =
      some (0x3521, 0x0055, 0x0041) := by decide
/-- K-8. -/
theorem test_pushLoop :
    get State.lpstk (exec (.pushLoop false)
      { s0 with stacka := 0x0045, stackp := 0x03, lpstacka := 0x004C, lpstackp := 0x8003, cntr := 9 }) =
      some [{ start := 0x030045, last := 0x03004C, forever := true, count := 9, openCount := false }] := by decide
/-- K-10. -/
theorem test_pushLoop_reserved :
    refusalOf (exec (.pushLoop false) { s0 with lpstackp := 0x0103 }) = some .lpstackpReservedBits := by decide
/-- L-10, L-11. -/
theorem test_popLoop :
    get (fun t => (t.stacka, t.stackp, t.lpstacka, t.lpstackp, t.cntr))
      (exec (.popLoop false) { s0 with lpstk := [{ loop103 with count := 4, forever := true }] }) =
      some (0x0101, 0, 0x0103, 0x8000, 4) := by decide
/-- U5. -/
theorem test_popLoop_empty : faultOf (exec (.popLoop false) s0) = some (.loopStackUnderflow (.popLoop false) 0x000100) := by decide
/-- K-11. -/
theorem test_pushSts :
    get State.stsstk (exec .pushSts { s0 with astat := 0x0055, mstat := 0x0041 }) = some [{ astat := 0x0055, mstat := 0x0041 }] := by
  decide
/-- K-18: right after the push `STSSTKEMPTY` (bit 6) reads as 0. -/
theorem test_pushSts_sstat : get (fun t => readReg .sstat (beginInstr t)) (exec .pushSts s0) = some 0x0011 := by decide
/-- K-12. -/
theorem test_popSts :
    get (fun t => (t.astat, t.mstat, t.stsstk)) (exec .popSts { s0 with stsstk := [{ astat := 0x0055, mstat := 0x0041 }] }) =
      some (0x0055, 0x0041, []) := by decide

/-! ### Cache, interrupt bits, idle, modes (M-1 to M-16) -/

/-- M-1. -/
theorem test_setint : get State.irptl (exec (.setint 12) s0) = some 0x1000 := by decide
/-- M-2. -/
theorem test_clrint : get State.irptl (exec (.clrint 12) { s0 with irptl := 0x1100 }) = some 0x0100 := by decide
/-- M-10. -/
theorem test_nop : get State.pc (exec .nop s0) = some 0x000101 := by decide
/-- B-1: in the second slot the next address is the target. -/
theorem test_nop_in_slot :
    get (fun t => (t.pc, t.db)) (exec .nop { s0 with db := some { remaining := .one, target := 0x000018 } }) =
      some (0x000018, none) := by decide
/-- M-11, R305: the flush starts the six-instruction window. -/
theorem test_flushCache :
    get State.icache (exec .flushCache { s0 with icache := [{ addr := 9, word := 1, left := none }] }) =
      some [{ addr := 9, word := 1, left := some 6 }] := by decide
/-- M-12. -/
theorem test_idle : get (fun t => (t.power, t.pc)) (exec .idle s0) = some (.idle, 0x000101) := by decide
/-- M-16. -/
theorem test_idle_sleeps : get State.power (exec .idle { s0 with sleepArmed := true }) = some .sleep := by decide
/-- M-15. -/
theorem test_idleDiv_absent :
    refusalOf (exec (.idleDiv 4) { s0 with cfg := { cfg0 with hasSlowIdle := false } }) = some .noSlowIdle := by decide
theorem test_idleDiv : get State.power (exec (.idleDiv 4) s0) = some (.slowIdle 4) := by decide
/-- M-5. -/
theorem test_ena :
    get State.mstat (exec (.ena { noModes with arSat := true, mMode := true, avLatch := true, secReg := true }) s0) =
      some 0x001D := by decide
/-- M-8. -/
theorem test_ena_int :
    get (fun t => (t.icntl, t.mstat)) (exec (.ena { noModes with int := true }) { s0 with icntl := 0x0010 }) =
      some (0x0030, 0) := by decide
/-- M-7. -/
theorem test_dis_all :
    get (fun t => (t.mstat, t.icntl))
      (exec (.dis
        { secReg := true, bitRev := true, avLatch := true, arSat := true, mMode := true, timer := true, secDag := true, int := true })
        { s0 with mstat := 0x007F, icntl := 0x0030 }) = some (0, 0x0010) := by decide

/-! ### Interrupts (I-1, I-3, I-8 to I-11) and the step -/

/-- Two interrupts latched and enabled. -/
def pending : State := { s0 with pc := 0x000300, icntl := 0x0020, imask := 0x4100, irptl := 0x4100, astat := 1, mstat := 2 }

/-- I-1. -/
theorem test_entry :
    get (fun t => (t.pc, t.pcstk, t.stsstk, t.irptl, t.insvc)) (step pending) =
      some (0x000040, [0x000300], [{ astat := 1, mstat := 2 }], 0x4000, [8]) := by decide
/-- I-3. -/
theorem test_entry_nests :
    get State.insvc (step { pending with icntl := 0x0030, insvc := [14], irptl := 0x0100 }) = some [8, 14] := by decide
/-- I-9. -/
theorem test_entry_waits : accepted { s0 with insvc := [8], irptl := 1 } = none := by decide
/-- I-8. -/
theorem test_entry_nonmaskable : accepted { s0 with irptl := 1 } = some 0 := by decide
/-- I-10. -/
theorem test_entry_held : accepted { pending with db := some { remaining := .one, target := 0 } } = none := by decide
/-- I-11. -/
theorem test_event_lost : (takeEvent (.source 8) s0).irptl = 0 := by decide
/-- A word placed in memory is fetched, decoded and executed. -/
theorem test_step_runs : get State.irptl (step (s0.withFetchWord 24 0x48000C)) = some 0x1000 := by decide
/-- R132: the step notes a delayed branch that is not taken, and its slot stays bound across an interrupt. -/
theorem test_step_notes_slot :
    get State.slotSites (step ({ s0 with cntr := 1 }.withFetchWord 24 0x0BC004)) = some [0x000100] := by decide
theorem test_entry_keeps_slots :
    get State.slotSites (step { pending with slotSites := [0x0002FF] }) = some [0x0002FF] := by decide
/-- R160: `PUSH LOOP` in the last seven lines of a loop of the program text, after its record was popped. -/
theorem test_step_push_loop_near_end :
    refusalOf (step ({ s0 with loopSites := [{ site := 0x0000F0, last := 0x000100 }] }.withFetchWord 24 0x340000)) =
      some .stackOpNearLoopEnd := by decide
/-- The state with the word placed at `a`, as a place of the program text. -/
def place (a : Addr) (w : Nat) (s : State) : State := { s with pc := a }.withFetchWord 24 w

/-- A delayed `JUMP` and two positions behind it `IDLE`: the jump has not executed (R111, R132). -/
def idleBehindJump : State := place 0x000100 0x540000 (place 0x0000FE 0x0BC004 s0)

/-- `DO UNTIL` and `PUSH PC` in its last line: the loop was never armed (R111, R157). -/
def pushInLoop : State := place 0x000100 0x2C0000 (place 0x0000F0 0x041010 s0)

/-- Two `DO UNTIL` with one end (R157). -/
def oneEnd : State := place 0x000100 0x041003 (place 0x0000F0 0x041013 s0)

/-- `DO UNTIL` and `CALL` in its last line, and `RTS` there (R157). -/
def callInLoop : State := place 0x000100 0x0C0010 (place 0x0000F0 0x041010 s0)
def rtsInLoop : State := place 0x000100 0x28000F (place 0x0000F0 0x041010 s0)

/-- The same with a `POP LOOP` among the lines of the loop. -/
def rtsBehindPop : State := place 0x000100 0x28000F (place 0x0000F4 0x380000 (place 0x0000F0 0x041010 s0))

theorem test_step_declared_places :
    [idleBehindJump, pushInLoop, oneEnd, callInLoop, rtsInLoop, rtsBehindPop].map (fun s => refusalOf (step s)) =
      [some .barredInDelaySlot, some .stackOpNearLoopEnd, some .sharedLoopEnd, some .branchAtLoopEnd, some .returnInsideLoop,
        none] := by decide
theorem test_step_rts_behind_pop : get State.pc (step { rtsBehindPop with pcstk := [0x000203] }) = some 0x000203 := by decide
theorem test_program_check :
    [idleBehindJump, pushInLoop, oneEnd, callInLoop, rtsInLoop, rtsBehindPop].map programProblem =
      [some (0x000100, .barredInDelaySlot), some (0x000100, .stackOpNearLoopEnd), some (0x000100, .sharedLoopEnd),
        some (0x000100, .branchAtLoopEnd), some (0x000100, .returnInsideLoop), none] := by decide
/-- B-8. -/
theorem test_step_idle_in_slot :
    refusalOf (step ({ s0 with db := some { remaining := .two, target := 0 } }.withFetchWord 24 0x540000)) =
      some .barredInDelaySlot := by decide

/-! ### Witnesses: for each statement with hypotheses, states and operands that meet them, clause by clause -/

/-- An outer loop whose end is far from the states below. -/
def outer : LoopRec := { loop103 with last := 0x000208 }

def entry0 : StatusEntry where
  astat := 0x0055
  mstat := 0x0041

/-- A full PC stack, full loop stacks and a full status stack. -/
def pcFull : List Addr := List.replicate 33 0x000203
def lpFull : List LoopRec := List.replicate 8 outer
def stsFull : List StatusEntry := List.replicate 16 entry0

theorem witness_CcodeLagsByOneInstruction :
    let s := { s0 with ccode := 9, lags := [{ reg := .ccode, old := 1, left := 0 }, { reg := .cntrTest, old := 1, left := 1 }] }
    ∀ g ∈ s.lags, g.reg = .ccode → g.left = 0 := by decide

theorem witness_NotCeTestsThenDecrements : ∀ v ∈ [1#16, 2#16, 0xFFFF#16],
    let s := { s0 with cntr := v }
    NoWindow .cntrTest s ∧ s.cntr ≠ 0 := by
  intro v hv
  simp only [List.mem_cons, List.not_mem_nil, or_false] at hv
  rcases hv with rfl | rfl | rfl <;> exact ⟨rfl, by decide⟩

theorem witness_NotCeLoopTurns : ∀ p ∈ [(1, 0), (2, 1), (65535, 65534)],
    let s := { s0 with cntr := BitVec.ofNat 16 p.1 }
    NoWindow .cntrTest s ∧ p.1 < 65536 ∧ s.cntr = BitVec.ofNat 16 p.1 ∧ p.2 < p.1 := by
  intro p hp
  simp only [List.mem_cons, List.not_mem_nil, or_false] at hp
  rcases hp with rfl | rfl | rfl <;> exact ⟨rfl, by omega, rfl, by omega⟩

theorem witness_DoUntilArmsLoop : ∀ imm ∈ [1#12, 4095#12],
    let s := { s0 with lpstk := List.replicate 7 outer }
    imm ≠ 0 ∧ s.db = none ∧ LoopRoom s := by
  intro imm hi
  simp only [List.mem_cons, List.not_mem_nil, or_false] at hi
  rcases hi with rfl | rfl <;> exact ⟨by decide, rfl, ⟨rfl, by decide⟩⟩

/-- One state for each clause: an infinite loop, a count of 2, a count of 1. -/
theorem witness_LoopEndAction :
    ∀ top ∈ [{ loop103 with forever := true, count := 1 }, { loop103 with count := 2 }, { loop103 with count := 1 }],
      let s := { s0 with pc := 0x000103, lpstk := top :: [outer] }
      s.db = none ∧ s.lpLost = false ∧ s.lpstk = top :: [outer] ∧ top.last = s.pc ∧ top.openCount = false ∧
      ((top.forever = true ∨ top.count ≠ 1) ∨ top.forever = false ∧ top.count = 1) := by decide

theorem witness_CountedLoopPasses : ∀ p ∈ [(1#12, 2), (4095#12, 65535)],
    let s := { s0 with cntr := BitVec.ofNat 16 p.2, lpstk := List.replicate 7 outer }
    p.1 ≠ 0 ∧ 2 ≤ p.2 ∧ p.2 < 65536 ∧ s.cntr = BitVec.ofNat 16 p.2 ∧ s.db = none ∧ LoopRoom s ∧ NoWindow .cntrPush s := by
  unfold NoWindow LoopRoom
  decide

theorem witness_InfiniteLoopPasses :
    let s := { s0 with cntr := 1, lpstk := [outer] }
    1#12 ≠ 0 ∧ s.db = none ∧ LoopRoom s ∧ NoWindow .cntrPush s := by
  unfold NoWindow LoopRoom
  decide

/-- The inner record is compared, the outer one, which ends here, is not (L-17). -/
theorem witness_OnlyTopLoopEnds :
    let s := { s0 with pc := 0x000208, lpstk := [loop103, outer] }
    s.db = none ∧ s.lpLost = false ∧ NotAtLoopEnd s := by
  unfold NotAtLoopEnd
  decide

/-- The end of an outer loop, and of a loop of the program text alone, where a call is refused. -/
theorem witness_BranchesAtLoopEnd_call :
    (let s := { s0 with pc := 0x000208, lpstk := [loop103, outer] };
      s.db = none ∧ s.lpLost = false ∧ s.lpstk = loop103 :: [outer] ∧ evalCond .always s = (true, s) ∧
      ∃ q ∈ s.lpstk, q.last = s.pc) ∧
    (let s := { s0 with pc := 0x000120, lpstk := [loop103], loopSites := [{ site := 0x000110, last := 0x000120 }] };
      s.db = none ∧ s.lpLost = false ∧ s.lpstk = loop103 :: [] ∧ evalCond .always s = (true, s) ∧
      ∃ l ∈ textLoops s, l.last = s.pc) :=
  ⟨⟨rfl, rfl, rfl, rfl, by decide⟩, ⟨rfl, rfl, rfl, rfl, by decide⟩⟩

/-- The loop end at the branch, for both terminators and after a test of the counter, and one and two words behind it with no
other loop ending at the branch. -/
theorem witness_BranchesAtLoopEnd : ∀ p ∈ [(0x000103#24, true), (0x000103, false), (0x000102, false), (0x000101, false)],
    let top := { loop103 with forever := p.2 }
    let s := { s0 with pc := p.1, lpstk := [top, outer], cntr := 2 }
    s.db = none ∧ s.lpLost = false ∧ s.lpstk = top :: [outer] ∧ (evalCond .notCe s).1 = true ∧
    (top.last = s.pc ∨ endsLoop s.pc s = false ∧ (top.last = s.pc + 1 ∨ top.last = s.pc + 2)) := by
  intro p hp
  simp only [List.mem_cons, List.not_mem_nil, or_false] at hp
  rcases hp with rfl | rfl | rfl | rfl <;> exact ⟨rfl, rfl, rfl, by decide, by decide⟩

/-- A return outside the loop whose end is its first or second slot. -/
theorem witness_BranchesAtLoopEnd_return : ∀ pc ∈ [0x000102#24, 0x000101],
    let top := { loop103 with start := 0x000103 }
    let s := { s0 with pc := pc, lpstk := [top], pcstk := [0x000203], stsstk := [entry0] }
    s.db = none ∧ s.lpLost = false ∧ s.lpstk = top :: [] ∧ evalCond .always s = (true, s) ∧ insideLoop s.pc s = false ∧
    (top.last = s.pc + 1 ∨ top.last = s.pc + 2) ∧ s.pcLost = false ∧ s.pcstk ≠ [] ∧ s.stsLost = false ∧ s.stsstk ≠ [] := by
  intro pc hp
  simp only [List.mem_cons, List.not_mem_nil, or_false] at hp
  rcases hp with rfl | rfl <;> exact ⟨rfl, rfl, rfl, rfl, by decide⟩

/-- At the end of an infinite loop without `(DB)`, and three words before a loop end with it. -/
theorem witness_JumpRel13Taken :
    (let s := { s0 with pc := 0x000103, cntr := 2, lpstk := [{ loop103 with forever := true }] };
      (evalCond .notCe s).1 = true ∧ BranchReady .jump .one false s) ∧
    (let s := { s0 with pc := 0x000100, lpstk := [loop103] };
      (evalCond .always s).1 = true ∧ BranchReady .jump .one true s) := by
  unfold BranchReady EndsNoLoop
  decide

theorem witness_Rel16BranchesTaken : ∀ db ∈ [true, false],
    let s := { s0 with pc := 0x000100, lpstk := [loop103], pcstk := List.replicate 32 0x000203 }
    BranchReady .jump .one db s ∧ BranchReady .call .one db s ∧ PcRoom s := by
  unfold BranchReady EndsNoLoop PcRoom
  decide

theorem witness_LongJumpTaken :
    let s := { s0 with pc := 0x000101, cntr := 2, lpstk := [loop103] }
    (evalCond .notCe s).1 = true ∧ BranchReady .jump .two false s := by
  unfold BranchReady EndsNoLoop
  decide

theorem witness_IndirectJumpTaken : ∀ db ∈ [true, false],
    let s := { s0 with cntr := 2, mstat := 0x0040, lags := [{ reg := .ijpg, old := 7, left := 1 }] }
    (evalCond .notCe s).1 = true ∧ NoWindow .mstat s ∧ BranchReady .jump .one db s := by
  unfold BranchReady EndsNoLoop NoWindow
  decide

theorem witness_LongCallTaken :
    let s := { s0 with pc := 0x000101, lpstk := [loop103], pcstk := List.replicate 32 0x000203 }
    (evalCond .always s).1 = true ∧ PcRoom s ∧ BranchReady .call .two false s := by
  unfold BranchReady EndsNoLoop PcRoom
  decide

theorem witness_IndirectCallTaken : ∀ db ∈ [true, false],
    let s := { s0 with cntr := 2, mstat := 0x0040, lags := [{ reg := .ireg false 5, old := 7, left := 1 }] }
    (evalCond .notCe s).1 = true ∧ PcRoom s ∧ NoWindow .mstat s ∧ NoWindow .ijpg s ∧
    NoWindow (.ireg (s.mstat.getLsbD 6) 5) s ∧ BranchReady .call .one db s := by
  unfold BranchReady EndsNoLoop PcRoom NoWindow
  decide

theorem witness_IndirectTargetAfterLoad :
    let s := { s0 with ijpg := 0x12, mstat := 0x0040 }
    NoWindow .mstat s ∧ NoWindow .ijpg s ∧ NoWindow (.ireg (s.mstat.getLsbD 6) 7) s := by
  unfold NoWindow
  decide

/-- A false condition, outside a loop and at the end of one; for the long forms away from it. -/
theorem witness_NotTakenIsNop :
    (let s := { s0 with pc := 0x000103, cntr := 1, lpstk := [loop103] };
      (evalCond .notCe s).1 = false ∧ ∃ u, exec .nop (evalCond .notCe s).2 = .next u) ∧
    (let s := { s0 with pc := 0x000101, cntr := 1, lpstk := [loop103] };
      (evalCond .notCe s).1 = false ∧ s.db = none ∧ s.lpLost = false ∧
      ∀ top ∈ s.lpstk.head?, top.last ≠ s.pc ∧ top.last ≠ s.pc + 1) :=
  ⟨⟨by decide, _, rfl⟩, by decide⟩

/-- A call inside a loop to a subroutine outside it (R159). -/
theorem witness_CallThenReturn :
    let s := { s0 with pc := 0x000102, lpstk := [loop103] }
    PcRoom s ∧ BranchReady .call .one false s ∧ insideLoop (s.pc + (0x0100#16).signExtend 24) s = false := by
  unfold BranchReady EndsNoLoop PcRoom
  decide

theorem witness_DelaySlotsThenTarget : BranchReady .jump .one true { s0 with lpstk := [loop103] } := by
  unfold BranchReady EndsNoLoop
  decide

theorem witness_RtsTaken : ∀ db ∈ [true, false],
    let s := { s0 with pc := 0x000650, cntr := 2, pcstk := [0x000303], lpstk := [loop103] }
    (evalCond .notCe s).1 = true ∧ s.pcLost = false ∧ s.pcstk = 0x000303 :: [] ∧ insideLoop s.pc s = false ∧
    BranchReady .ret .one db s := by
  unfold BranchReady EndsNoLoop
  decide

theorem witness_RtiTaken : ∀ db ∈ [true, false], ∀ ss ∈ [true, false],
    let s := { s0 with pc := 0x0001C4, pcstk := [0x000123], stsstk := [entry0], insvc := [14] }
    (evalCond .always s).1 = true ∧ (ss = true → s.cfg.emulation = false) ∧ s.pcLost = false ∧
    s.pcstk = 0x000123 :: [] ∧ s.stsLost = false ∧ s.stsstk = entry0 :: [] ∧ insideLoop s.pc s = false ∧
    BranchReady .ret .one db s := by
  intro db _ ss _
  exact ⟨rfl, fun _ => rfl, rfl, rfl, rfl, rfl, rfl, rfl, rfl, nofun, fun _ h => nomatch h⟩

/-- Both stacks empty; the status stack alone empty; each lost. -/
theorem witness_ReturnStops_empty :
    (insideLoop s0.pc s0 = false ∧ s0.cfg.emulation = false ∧ s0.pcLost = false ∧ s0.pcstk = []) ∧
    (let s := { s0 with pcLost := true };
      insideLoop s.pc s = false ∧ s.cfg.emulation = false ∧ s.pcLost = true) ∧
    (let s := { s0 with pcstk := [0x000203] };
      insideLoop s.pc s = false ∧ s.cfg.emulation = false ∧ s.pcLost = false ∧ s.stsLost = false ∧
      s.pcstk = 0x000203 :: [] ∧ s.stsstk = []) ∧
    (let s := { s0 with pcstk := [0x000203], stsLost := true };
      insideLoop s.pc s = false ∧ s.cfg.emulation = false ∧ s.pcLost = false ∧ s.pcstk = 0x000203 :: [] ∧
      s.stsLost = true) := by decide

/-- The first and the last address of a loop below another record. -/
theorem witness_ReturnStops_inside : ∀ a ∈ [0x000101#24, 0x000103#24],
    let s := { s0 with pc := a, lpstk := [{ outer with start := 0x000200 }, loop103] }
    (∃ r ∈ s.lpstk, s.pc - r.start ≤ r.last - r.start) ∧ s.cfg.emulation = false := by
  intro a ha
  simp only [List.mem_cons, List.not_mem_nil, or_false] at ha
  rcases ha with rfl | rfl <;> exact ⟨by decide, rfl⟩

/-- The last line of a loop of the program text that was never armed. -/
theorem witness_ReturnStops_declared :
    rtsInLoop.lpstk = [] ∧ rtsInLoop.loopSites = [] ∧ rtsInLoop.cfg.emulation = false ∧ popPlaces rtsInLoop = [] ∧
    textLoops rtsInLoop = [{ site := 0x0000F0, last := 0x000100 }] ∧ 0x0000F0 ≠ rtsInLoop.pc ∧
    rtsInLoop.pc - (0x0000F0 + 1) ≤ 0x000100 - (0x0000F0 + 1) := by decide

/-- The first line of a loop whose `DO UNTIL` has executed, with a `POP LOOP` behind it. -/
theorem witness_ReturnStops_executed :
    let s := { s0 with loopSites := [{ site := 0x0000FF, last := 0x000103 }], popSites := [0x000104] }
    popPlaces s = [0x000104] ∧ textLoops s = [{ site := 0x0000FF, last := 0x000103 }] ∧ 0x0000FF ≠ s.pc ∧
    s.pc - (0x0000FF + 1) ≤ 0x000103 - (0x0000FF + 1) ∧ ¬0x000104#24 - (0x0000FF + 1) ≤ 0x000103 - (0x0000FF + 1) := by decide

theorem witness_ReturnStops_emulation :
    let s := { s0 with cfg := { cfg0 with emulation := true } }
    s.cfg.emulation = true := by decide

/-- Depths 0, one below the high-water mark, 32 and 33. -/
theorem witness_PcStackPush : ∀ n ∈ [0, 19, 32, 33],
    let s := { s0 with pcstk := List.replicate n 0x000203, icntl := 0x0400 }
    s.pcLost = false ∧ (s.pcstk.length < 33 ∨ s.pcstk.length = 33) ∧
    (n = 19 → s.pcstk.length + 1 = s.cfg.pcHighWater) ∧ (n = 0 → s.pcstk.length + 1 ≠ s.cfg.pcHighWater) := by decide

theorem witness_PcStackPop :
    (s0.pcLost = false ∧ s0.pcstk = []) ∧
    (∀ n ∈ [0, 5, 32],
      let s := { s0 with pcstk := 0x000203 :: List.replicate n 0x000050, cfg := { cfg0 with lvlClear := .sticky } }
      s.pcLost = false ∧ s.pcstk = 0x000203 :: List.replicate n 0x000050 ∧ (List.replicate n 0x000050#24).length < 33 ∧
      (n = 5 → (List.replicate n 0x000050#24).length = s.cfg.pcLowWater) ∧
      (n = 0 → (List.replicate n 0x000050#24).length ≠ s.cfg.pcLowWater)) := by decide

/-- Depths 0, 7 and 8 of the loop stacks. -/
theorem witness_LoopStackPushPop :
    (s0.lpLost = false ∧ s0.lpstk = []) ∧
    (let s := { s0 with lpstk := loop103 :: List.replicate 6 outer };
      s.lpLost = false ∧ s.lpstk.length < 8 ∧ s.lpstk = loop103 :: List.replicate 6 outer ∧ (List.replicate 6 outer).length < 8) ∧
    (let s := { s0 with lpstk := lpFull };
      s.lpLost = false ∧ s.lpstk.length = 8) := by decide

/-- Depths 0, 15 and 16 of the status stack. -/
theorem witness_StatusStackPushPop :
    (s0.stsLost = false ∧ s0.stsstk = []) ∧
    (let s := { s0 with stsstk := entry0 :: List.replicate 14 entry0 };
      s.stsLost = false ∧ s.stsstk.length < 16 ∧ s.stsstk = entry0 :: List.replicate 14 entry0) ∧
    (let s := { s0 with stsstk := stsFull };
      s.stsLost = false ∧ s.stsstk.length = 16) := by decide

/-- All three stacks full, away from a loop end. -/
theorem witness_OverflowIsReported :
    let s :=
      { s0 with
        pcstk := pcFull
        lpstk := lpFull
        stsstk := stsFull
        lpstackp := 0x80FF
        loopSites := [{ site := 0x000100, last := 0x000103 }] }
    s.db = none ∧ s.lpLost = false ∧ NotAtLoopEnd s ∧ s.pcLost = false ∧ s.pcstk.length = 33 ∧
    EndsNoLoop s ∧ (∀ top ∈ s.lpstk.head?, top.last ≠ s.pc + 1) ∧ s.lpstk.length = 8 ∧ 1#12 ≠ 0 ∧ lpstackpReserved s = 0 ∧
    s.stsLost = false ∧ s.stsstk.length = 16 := by
  unfold NotAtLoopEnd EndsNoLoop
  decide

theorem witness_PushPopPcEffect :
    let s := { s0 with pcstk := 0x023521 :: List.replicate 31 0x000203, lpstk := [loop103] }
    SeqReady s ∧ PcRoom s ∧ s.pcLost = false ∧ s.pcstk = 0x023521 :: List.replicate 31 0x000203 := by
  unfold SeqReady PcRoom
  decide

theorem witness_PushLoopEffect :
    ({ s0 with lpstackp := 0x4000 }).lpstackp.extractLsb' 8 7 ≠ 0 ∧
    (let s := { s0 with lpstackp := 0x80FF, lpstk := List.replicate 7 outer };
      s.lpstackp.extractLsb' 8 7 = 0 ∧ LoopRoom s) := by
  unfold LoopRoom
  decide

theorem witness_PopLoopEffect :
    let s := { s0 with lpstk := loop103 :: List.replicate 7 outer }
    s.lpLost = false ∧ s.lpstk = loop103 :: List.replicate 7 outer := by decide

theorem witness_PushPopStsEffect :
    let s := { s0 with stsstk := entry0 :: List.replicate 14 entry0 }
    SeqReady s ∧ StsRoom s ∧ s.stsLost = false ∧ s.stsstk = entry0 :: List.replicate 14 entry0 := by
  unfold SeqReady StsRoom
  decide

theorem witness_StackPairEffects :
    let s := { s0 with pcstk := [0x023521], lpstk := [loop103], stsstk := [entry0], lpstackp := 0x8003 }
    SeqReady s ∧ PcRoom s ∧ StsRoom s ∧ LoopRoom s ∧ s.lpstackp.extractLsb' 8 7 = 0 ∧
    s.pcLost = false ∧ s.pcstk = 0x023521 :: [] ∧ s.stsLost = false ∧ s.stsstk = entry0 :: [] ∧ s.lpLost = false ∧
    s.lpstk = loop103 :: [] := by
  unfold SeqReady PcRoom StsRoom LoopRoom
  decide

theorem witness_LoopRecordRoundTrip :
    let s := { s0 with lpstk := loop103 :: List.replicate 7 outer, lags := [{ reg := .cntrPush, old := 9, left := 1 }] }
    s.db = none ∧ s.lpLost = false ∧ s.lpstk = loop103 :: List.replicate 7 outer ∧ (List.replicate 7 outer).length < 8 ∧
    loop103.openCount = false ∧ (∀ g ∈ s.lags, g.reg = .cntrPush → g.left ≤ 1) ∧
    ∀ q ∈ s.lpstk, q.last ≠ s.pc ∧ q.last ≠ s.pc + 1 ∧ q.last ≠ s.pc + 2 := by decide

theorem witness_PopUnderflowFaults :
    (s0.pcLost = false ∧ s0.pcstk = [] ∧ s0.lpLost = false ∧ s0.lpstk = [] ∧ s0.stsLost = false ∧ s0.stsstk = []) ∧
    (let s := { s0 with pcLost := true, lpLost := true, stsLost := true, stkoverflow := true };
      s.pcLost = true ∧ s.lpLost = true ∧ s.stsLost = true) := by decide

/-- The first stack of a pair good, the second empty or lost. -/
theorem witness_PopUnderflowFaults_pairs :
    (let s := { s0 with pcstk := [0x000203] };
      s.pcLost = false ∧ s.pcstk ≠ [] ∧ s.stsLost = false ∧ s.stsstk = [] ∧ s.lpLost = false ∧ s.lpstk = []) ∧
    (let s := { s0 with pcstk := [0x000203], stsLost := true, lpLost := true };
      s.pcLost = false ∧ s.pcstk ≠ [] ∧ s.stsLost = true ∧ s.lpLost = true) ∧
    (let s := { s0 with lpstk := [loop103] };
      s.lpLost = false ∧ s.lpstk ≠ [] ∧ s.stsLost = false ∧ s.stsstk = []) ∧
    (let s := { s0 with lpstk := [loop103], stsLost := true };
      s.lpLost = false ∧ s.lpstk ≠ [] ∧ s.stsLost = true) := by decide

/-- Every form answers a next state, and every stack is full for the last clauses. -/
theorem witness_SstatLagsByOneInstruction :
    let s := { s0 with pcstk := pcFull, stsstk := stsFull, lpstk := lpFull, lpstackp := 0x80FF }
    s.db = none ∧ s.pcLost = false ∧ s.lpLost = false ∧ s.stsLost = false ∧ (∀ r ∈ s.lpstk, r.last ≠ s.pc) ∧
    s.lpstackp.setWidth 8 ++ s.lpstacka ≠ s.pc ∧ s.pcstk.length = 33 ∧ s.stsstk.length = 16 ∧
    s.lpstackp.extractLsb' 8 7 = 0 ∧ s.lpstk.length = 8 ∧
    ∀ i ∈ [Instr.pushPc .alone, .popPc .alone, .pushPc .sts, .popPc .sts, .pushSts, .popSts, .pushLoop false, .popLoop false,
      .pushLoop true, .popLoop true], get (fun u => (lostBits u).getLsbD 7) (exec i s) = some false := by decide

/-- Ready to go on: in a slot (where a lost loop stack does not matter), at a loop end, elsewhere. -/
theorem witness_NopEffect :
    ∀ s ∈ [{ s0 with db := some { remaining := .two, target := 0 }, lpLost := true },
      { s0 with pc := 0x000103, lpstk := [loop103] }, s0], SeqReady s := by
  unfold SeqReady
  decide

theorem witness_FlushCacheEmpties : SeqReady { s0 with icache := [{ addr := 9, word := 1, left := none }] } := .inr rfl

theorem witness_SetintClrintEffect : SeqReady { s0 with irptl := 0x1100 } := .inr rfl

theorem witness_ModeControlEffect : SeqReady { s0 with mstat := 0x0041, icntl := 0x0020 } := .inr rfl

theorem witness_IdleEffect :
    (let s := { s0 with sleepArmed := true };
      SeqReady s ∧ s.cfg.hasSleep = true ∧ s.sleepArmed = true) ∧
    SeqReady s0 ∧ ¬(s0.cfg.hasSleep = true ∧ s0.sleepArmed = true) := by
  unfold SeqReady
  decide

theorem witness_SlowIdleEffect :
    (SeqReady s0 ∧ s0.cfg.hasSlowIdle = true) ∧
    (let s := { s0 with cfg := { cfg0 with hasSlowIdle := false } };
      SeqReady s ∧ s.cfg.hasSlowIdle = false) := by
  unfold SeqReady
  decide

theorem witness_ModeControlHasNoLatency :
    ({ noModes with secDag := true }).secDag = true ∧
    (∃ u, exec (.ena { noModes with secDag := true }) (writeReg .mstat 0x0041 s0) = .next u) ∧
    ∃ u, exec (.dis { noModes with secDag := true }) (writeReg .mstat 0x0041 s0) = .next u :=
  ⟨rfl, ⟨_, rfl⟩, ⟨_, rfl⟩⟩

theorem witness_AcceptedInterrupt :
    NoWindow .icntl pending ∧ NoWindow .imask pending ∧ NoWindow .irptl pending ∧ accepted pending = some 8 ∧
    accepted s0 = none := by
  unfold NoWindow
  decide

/-- An entry from the running state, and one that wakes an idle core. -/
theorem witness_InterruptEntry :
    ∀ s ∈ [{ pending with events := [[.source 2]], imask := 0x0004, pcstk := List.replicate 32 0x000203 },
      { pending with power := .idle, imask := 0x0004, events := [[.source 2]], stsstk := List.replicate 15 entry0 }],
      accepted (takeEvents s) = some 2 ∧ s.power ≠ .sleep ∧ PcRoom (takeEvents s) ∧ StsRoom (takeEvents s) := by
  unfold PcRoom StsRoom
  decide

theorem witness_RtiUndoesEntry :
    let s := { pending with pcstk := List.replicate 32 0x000203, stsstk := List.replicate 15 entry0, lpstk := [loop103] }
    PcRoom s ∧ StsRoom s ∧ s.db = none ∧ s.lpLost = false ∧ insideLoop (vector s.cfg 14) s = false := by
  unfold PcRoom StsRoom
  decide

/-- All sixteen interrupts in service, each above the one it suspended. -/
def deepest : State := { s0 with insvc := irqNumbers, stsstk := stsFull, pcstk := pcFull, lpstk := lpFull }

theorem witness_NestingBound : Inv deepest where
  memory := rfl
  pcBound := by decide
  lpBound := by decide
  stsBound := by decide
  pcLostEmpty := by decide
  lpLostEmpty := by decide
  stsLostEmpty := by decide
  lostFlag := by decide
  nesting := by decide
  slotsRun := by decide
  slotSitesOnce := by decide
  loopSitesOnce := by decide
  popSitesOnce := by decide

theorem witness_IdleLeftOnlyByEntry :
    ({ s0 with power := .idle }).power = .idle ∧ (∃ d, ({ s0 with power := .slowIdle 4 }).power = .slowIdle d) ∧
    ({ s0 with power := .sleep }).power = .sleep := ⟨rfl, ⟨4, rfl⟩, rfl⟩

theorem witness_EventsLatchOrAreLost :
    (s0.icntl.getLsbD 5 = false ∧ 15#4 ≠ 0 ∧ s0.mstat.getLsbD 5 = false) ∧
    (({ s0 with icntl := 0x0020 }).icntl.getLsbD 5 = true ∧ ({ s0 with mstat := 0x0020 }).mstat.getLsbD 5 = true) := by decide

/-- A one-word and a two-word instruction. -/
theorem witness_StepRunsDecodedInstruction :
    (let s := s0.withFetchWord 24 0x48000C;
      s.power = .running ∧ accepted (takeEvents s) = none ∧ (takeEvents s).icache = [] ∧
      (takeEvents s).mem.readWord 0x000100 = some 0x48000C ∧
      decodeBy (takeEvents s).cfg.coding [0x48000C#24] = .ok (.core (.setint 12), []) ∧ admission (.setint 12) (takeEvents s) = none) ∧
    (let s := s0.withFetchWord 48 0xABCDEF14000F;
      accepted (takeEvents s) = none ∧ (takeEvents s).mem.readWord 0x000100 = some 0x14000F ∧
      (takeEvents s).mem.readWord 0x000101 = some 0xABCDEF ∧
      decodeBy (takeEvents s).cfg.coding [0x14000F#24, 0xABCDEF#24] = .ok (.core (.lcall .always 0xABCDEF), []) ∧
      admission (.lcall .always 0xABCDEF) (takeEvents s) = none) := by decide

theorem witness_PlacedInstructionIsFetched :
    decodeTableWord 24 0x48000C = some (.setint 12) ∧ decodeTableWord 48 0xABCDEF14000F = some (.lcall .always 0xABCDEF) := by decide

/-- One state for each clause: an ill-formed term, a barred instruction in a slot of a taken branch, and `PUSH PC` at the active loop
end. -/
theorem witness_ForbiddenPlacesRefused :
    (fetch (s0.withFetchWord 24 0x040000) = .ok (.core (.doUntil 0 .ce)) ∧ (Instr.doUntil 0 .ce).problem = some .loopOffsetZero) ∧
    (let s := { s0 with db := some { remaining := .one, target := 0 } }.withFetchWord 24 0x540000;
      fetch s = .ok (.core .idle) ∧ Instr.idle.problem = none ∧ s.db ≠ none ∧ barredInSlot .idle = true) ∧
    (let s := { s0 with pc := 0x000103, lpstk := [loop103] }.withFetchWord 24 0x2C0000;
      fetch s = .ok (.core (.pushPc .alone)) ∧ isStackOp (.pushPc .alone) = true ∧ s.db = none ∧ s.slotSites = [] ∧
      loop103 ∈ s.lpstk ∧ s.pc - loop103.start ≤ loop103.last - loop103.start ∧
      loop103.last = s.pc + BitVec.ofNat 24 0) := by decide

/-- Both positions behind a delayed branch that was not taken, and the second for a two-word instruction of another chapter. -/
theorem witness_ForbiddenPlacesRefused_slots : ∀ d ∈ [0x0000FF#24, 0x0000FE#24],
    (let s := { s0 with slotSites := [d] }.withFetchWord 24 0x540000;
      fetch s = .ok (.core .idle) ∧ s.db = none ∧ (s.pc - 1 ∈ s.slotSites ∨ s.pc - 2 ∈ s.slotSites) ∧
      barredInSlot .idle = true) ∧
    (let s := { s0 with slotSites := [0x0000FE], others := [[]] }.withFetchWord 48 0x000001FC0000;
      fetch s = .ok (.other .two) ∧ s.others ≠ [] ∧ s.pc - 2 ∈ s.slotSites) := by
  intro d hd
  simp only [List.mem_cons, List.not_mem_nil, or_false] at hd
  rcases hd with rfl | rfl <;> decide

/-- The last line of a loop of the program text whose record is not on the stacks, and of the loop a `PUSH LOOP` arms (R160). -/
theorem witness_ForbiddenPlacesRefused_popped :
    (let s := { s0 with loopSites := [{ site := 0x0000F0, last := 0x000100 }] }.withFetchWord 24 0x2C0000;
      fetch s = .ok (.core (.pushPc .alone)) ∧ s.lpstk = [] ∧
      (∃ l ∈ s.loopSites, l.site + 1 = 0x0000F1 ∧ l.last = 0x000100) ∧ s.pc - 0x0000F1 ≤ 0x000100 - 0x0000F1 ∧
      0x000100#24 = s.pc + BitVec.ofNat 24 0) ∧
    (let s := { s0 with stacka := 0x00F1, lpstacka := 0x0100 }.withFetchWord 24 0x340000;
      fetch s = .ok (.core (.pushLoop false)) ∧ s.stackp ++ s.stacka = 0x0000F1#24 ∧
      s.lpstackp.setWidth 8 ++ s.lpstacka = 0x000100#24 ∧ s.pc - 0x0000F1 ≤ 0x000100 - 0x0000F1 ∧
      0x000100#24 = s.pc + BitVec.ofNat 24 0) := by decide

/-- A second loop that ends at 0x000103, by `DO UNTIL` and by `PUSH LOOP`. -/
theorem witness_ForbiddenPlacesRefused_shared :
    (let s := { s0 with lpstk := [outer, loop103] }.withFetchWord 24 0x041003;
      fetch s = .ok (.core (.doUntil 3 .forever)) ∧ s.db = none ∧ s.slotSites = [] ∧
      ∃ r ∈ s.lpstk, r.last = s.pc + (3#12).setWidth 24) ∧
    (let s := { s0 with pc := 0x000300, lpstk := [outer, loop103], lpstacka := 0x0103 }.withFetchWord 24 0x340000;
      fetch s = .ok (.core (.pushLoop false)) ∧ s.db = none ∧ s.slotSites = [] ∧ nearLoopEnd (.pushLoop false) s = false ∧
      ∃ r ∈ s.lpstk, r.last = s.lpstackp.setWidth 8 ++ s.lpstacka) := by decide

/-- The same three places by the declared program text, no branch and no `DO UNTIL` having executed. -/
theorem witness_ForbiddenPlacesRefused_declared :
    (let s := idleBehindJump;
      fetch s = .ok (.core .idle) ∧ s.slotSites = [] ∧ s.pc - 2 ∈ s.text ∧
      instrAt s.cfg.coding s.mem (s.pc - 2) = some (.core (.jumpRel13 .notCe 4 true)) ∧
      s.icache = [] ∧ s.db = none ∧ { s with others := [[]] }.others ≠ [] ∧
      s.lpLost = false ∧ s.cfg.emulation = false ∧ conditionOf .idle = .always ∧
      programProblem { s with others := [[]] } = some (0x000100, .barredInDelaySlot)) ∧
    (let s := pushInLoop;
      fetch s = .ok (.core (.pushPc .alone)) ∧ s.loopSites = [] ∧ s.lpstk = [] ∧ 0x0000F0 ∈ s.text ∧
      instrAt s.cfg.coding s.mem 0x0000F0 = some (.core (.doUntil 0x010 .forever)) ∧
      0x000100#24 = 0x0000F0 + (0x010#12).setWidth 24 ∧ s.pc - 0x0000F1 ≤ 0x000100 - 0x0000F1) ∧
    (let s := oneEnd;
      fetch s = .ok (.core (.doUntil 3 .forever)) ∧ s.loopSites = [] ∧ s.lpstk = [] ∧ 0x0000F0 ∈ s.text ∧ 0x0000F0 ≠ s.pc ∧
      instrAt s.cfg.coding s.mem 0x0000F0 = some (.core (.doUntil 0x013 .forever)) ∧
      s.pc + (3#12).setWidth 24 = 0x0000F0 + (0x013#12).setWidth 24) := by decide

theorem witness_ForbiddenPlacesRefused_six_before :
    let s :=
      { s0 with
        mem := [0x2C0000#24, 0x500000, 0x500000, 0x500000, 0x500000, 0x500000].zipIdx.foldl
          (fun m p => Memory.writeWord m (0x000100 + BitVec.ofNat 24 p.2) p.1) []
        lpstk := [{ loop103 with start := 0x000100, last := 0x000106 }] }
    fetch s = .ok (.core (.pushPc .alone)) ∧ (∃ r ∈ s.lpstk, r.start = 0x000100 ∧ r.last = 0x000106) ∧
    s.pc - 0x000100 ≤ 0x000106 - 0x000100 ∧ 0x000106#24 = s.pc + BitVec.ofNat 24 6 ∧
    (∀ j, j < 6 → ∃ w, s.mem.readWord (s.pc + BitVec.ofNat 24 j) = some w ∧ lengthBy s.cfg.coding w = .one) := by
  refine ⟨by decide, by decide, by decide, by decide, fun j hj => ?_⟩
  have h : j = 0 ∨ j = 1 ∨ j = 2 ∨ j = 3 ∨ j = 4 ∨ j = 5 := by omega
  rcases h with rfl | rfl | rfl | rfl | rfl | rfl <;> exact ⟨_, rfl, by decide⟩

theorem witness_StoredWordIsFetchedOldOrNew :
    let s := s0.withFetchWord 24 0x500000
    s.mem.readWord 0x000100 = some 0x500000 ∧ staleWords 0x000100 s = [] ∧ s.mem.wf = true := by decide

/-- A next state from each group of instructions. -/
theorem witness_InstructionFrame :
    let s := { s0 with cntr := 5, pcstk := [0x023521], lpstk := [outer], stsstk := [entry0] }
    ∀ i ∈ [Instr.doUntil 3 .ce, .jumpRel13 .notCe 4 false, .callRel16 4 true, .lcall .always 9, .jumpInd .always 4 false,
      .rti .always false false, .rts .always true, .pushPc .sts, .popPc .loop, .pushLoop true, .popLoop true, .pushSts, .popSts,
      .flushCache, .setint 3, .clrint 3, .nop, .idle, .idleDiv 4, .ena { noModes with int := true }, .dis noModes],
      (get State.pc (exec i s)).isSome = true := by decide

/-- A next state that differs in `ASTAT`, `MSTAT` and the interrupts in service, and one that differs in `CNTR`. -/
theorem witness_RegisterWriters :
    get (fun t => (t.astat, t.mstat, t.insvc))
      (exec (.rti .always false false) { s0 with pcstk := [0x000402], stsstk := [entry0], insvc := [14] }) =
      some (0x0055, 0x0041, []) ∧
    get State.cntr (exec (.jumpRel13 .notCe 4 false) { s0 with cntr := 2 }) = some 1 := by decide

/-- A step of a state that meets the invariant. -/
theorem witness_StepKeepsInv : (∃ t, step (s0.withFetchWord 24 0x48000C) = .next t) ∧ Inv (s0.withFetchWord 24 0x48000C) :=
  ⟨⟨_, rfl⟩,
    { memory := withFetchWord_memory_wf _ _ _ rfl
      pcBound := by decide
      lpBound := by decide
      stsBound := by decide
      pcLostEmpty := by decide
      lpLostEmpty := by decide
      stsLostEmpty := by decide
      lostFlag := by decide
      nesting := List.Pairwise.nil
      slotsRun := by decide
      slotSitesOnce := by decide
      loopSitesOnce := by decide
      popSitesOnce := by decide }⟩

theorem witness_DecodeOfEncode : (Instr.doUntil 4095 .forever).WellFormed ∧ (Instr.pushPc .sts).WellFormed := by decide

theorem witness_EncodeOfDecode : decode [0x14000F#24, 0xABCDEF#24, 7] = .ok (.core (.lcall .always 0xABCDEF), [7]) := by decide

end Sys2Proof.Tests
end

