-- ==== Sys2Proof/Proofs/SlowIdle.lean ====
section
/-! Slow Idle (`00_scope.md` R9, R231): how `IDLE (imm4)` executes on a DSP without Slow Idle and on one that has it. -/

namespace Sys2Proof.Machine

open Sys2Proof.Safety

variable {s : State}

theorem exec_idleDiv (d : BitVec 4) (s : State) : exec (.idleDiv d) s = execIdleDiv d s := rfl

/-- The sequencer does not look at the power state. -/
@[simp] theorem seqReady_withPower (p : Power) : SeqReady { s with power := p } ↔ SeqReady s := Iff.rfl

theorem execIdleDiv_without_slowIdle (d : BitVec 4) (h : s.cfg.hasSlowIdle = false) :
    execIdleDiv d s = .refused .noSlowIdle := by
  simp [execIdleDiv, h]

theorem execIdleDiv_with_slowIdle (d : BitVec 4) (h : s.cfg.hasSlowIdle = true) :
    execIdleDiv d s = seqNext .one { s with power := .slowIdle d } := by
  simp [execIdleDiv, h]

/-- Settles O40: without Slow Idle the form is refused; with it the new power state is sequenced as one word (`seqNext_one`). -/
theorem slowIdleEffect : Obligations.SlowIdleEffect := by
  intro s d hready
  rw [exec_idleDiv]
  constructor
  · intro hwithout
    exact execIdleDiv_without_slowIdle d hwithout
  · intro hwith
    rw [execIdleDiv_with_slowIdle d hwith]
    exact seqNext_one ((seqReady_withPower _).2 hready)

end Sys2Proof.Machine
end

section
/-! PC-relative branches (`30_encoding.md` R95, R96; `42_jumps_and_calls.md` R170 to R173): what evaluating the condition and pushing
the return address keep of what the loop hardware looks at, and where the taken branches go. -/

namespace Sys2Proof.Machine

open Sys2Proof.Safety

variable {s t : State} {k : BranchKind} {n : WordCount} {delayed : Bool}

theorem exec_jumpRel13 (c : Cond) (imm : BitVec 13) (db : Bool) (s : State) :
    exec (.jumpRel13 c imm db) s = execJumpRel13 c imm db s := rfl

theorem exec_callRel16 (imm : BitVec 16) (db : Bool) (s : State) :
    exec (.callRel16 imm db) s = execCallRel16 imm db s := rfl

theorem exec_jumpRel16 (imm : BitVec 16) (db : Bool) (s : State) :
    exec (.jumpRel16 imm db) s = execJumpRel16 imm db s := rfl

/-! ### What the loop hardware looks at -/

/-- Whether a branch is allowed depends on its place, a pending delayed branch and the loops, on nothing else. -/
theorem branchReady_congr (hdb : t.db = s.db) (hlost : t.lpLost = s.lpLost) (hpc : t.pc = s.pc) (hstk : t.lpstk = s.lpstk)
    (htext : textLoops t = textLoops s) : BranchReady k n delayed t ↔ BranchReady k n delayed s := by
  simp only [BranchReady, endsNoLoop_iff, hdb, hlost, hpc, hstk, htext]

@[simp] theorem evalCond_pc (c : Cond) (s : State) : (evalCond c s).2.pc = s.pc := by
  obtain ⟨cntr, lags, h⟩ := evalCond_frame c s
  rw [h]

/-- The evaluation of its condition neither allows nor forbids a branch. -/
@[simp] theorem branchReady_evalCond (c : Cond) : BranchReady k n delayed (evalCond c s).2 ↔ BranchReady k n delayed s := by
  obtain ⟨cntr, lags, h⟩ := evalCond_frame c s
  rw [h]
  exact branchReady_congr rfl rfl rfl rfl rfl

/-! ### The push of a call -/

@[simp] theorem returnAddress_one (pc : Addr) (delayed : Bool) :
    returnAddress pc .one delayed = if delayed then pc + 3 else pc + 1 := rfl

/-- The push of a call neither allows nor forbids it, whatever the PC stack holds. -/
@[simp] theorem branchReady_callPush (m : WordCount) (d : Bool) :
    BranchReady k n delayed (callPush m d s) ↔ BranchReady k n delayed s := by
  unfold callPush
  exact branchReady_congr (by simp) (by simp) (by simp) (by simp) (textLoops_congr (by simp) (by simp) (by simp) (by simp))

/-- With room, the push of a call adds its return address (R173) and opens a window on `SSTAT` (R302). -/
theorem callPush_of_room (n : WordCount) (d : Bool) (h : PcRoom s) :
    ∃ w, callPush n d s =
      { withPcStack (returnAddress s.pc n d :: s.pcstk) s.cfg.pcHighWater s with sstatLag := w } := by
  rw [callPush, pcPush_of_room _ h]
  exact ⟨_, rfl⟩

/-! ### The obligations -/

/-- Settles O10: the condition, once true, hands over to `branchTo` in a state at the same place with the same loops. -/
theorem jumpRel13Taken : Obligations.JumpRel13Taken := by
  intro s c imm db htrue hready
  rw [exec_jumpRel13, execJumpRel13, ifCond_true htrue, branchTo_ready _ ((branchReady_evalCond c).2 hready), evalCond_pc,
    target13]

/-- Settles O11: the jump is `branchTo` itself, the call is `branchTo` behind the push of its return address. -/
theorem rel16BranchesTaken : Obligations.Rel16BranchesTaken := by
  intro s imm db
  constructor
  · intro hready
    rw [exec_jumpRel16, execJumpRel16, branchTo_ready _ hready, target16]
  · intro hroom hready
    obtain ⟨w, hpush⟩ := callPush_of_room .one db hroom
    refine ⟨w, ?_⟩
    rw [exec_callRel16, execCallRel16, branchTo_ready _ ((branchReady_callPush .one db).2 hready), hpush, target16,
      returnAddress_one]
    rfl

end Sys2Proof.Machine
end

section
/-! The encoding (`30_encoding.md` R92 to R103; log entry 1): the operands of a first word are laid out without overlap from bit 0
up, so packing and unpacking them are inverse to each other; encoder and decoder are so row by row. -/

namespace Sys2Proof

/-! ### Layouts of the operands -/

variable {p : BitVec 18} {f g : FirstWord} {i : Instr}

theorem ifZeroAbove_eq_ok {k : Nat} :
    ifZeroAbove k p f = .ok g ↔ f = g ∧ ∀ j, k ≤ j → j < 18 → p.getLsbD j = false := by
  have hzero : p >>> k = 0 ↔ ∀ j, k ≤ j → j < 18 → p.getLsbD j = false := by
    constructor
    · intro h j hkj hj
      have hbit := congrArg (fun x => x.getLsbD (j - k)) h
      simpa [show k + (j - k) = j by omega] using hbit
    · exact shift_eq_zero p
  by_cases h : p >>> k = 0
  · simp only [ifZeroAbove, h, if_true, Except.ok.injEq]
    exact ⟨fun hfg => ⟨hfg, hzero.1 h⟩, And.left⟩
  · simp only [ifZeroAbove, h, if_false, reduceCtorEq, false_iff, not_and]
    exact fun _ hall => h (hzero.2 hall)

/-- A field alone: what is packed is unpacked. -/
theorem unpack_field {n : Nat} (v : BitVec n) (hn : n ≤ 18) :
    (fieldAt 0 v).extractLsb' 0 n = v ∧ ∀ j, n ≤ j → j < 18 → (fieldAt 0 v).getLsbD j = false := by
  constructor
  · simpa using extract_field 0#18 v (by omega) (by simp)
  · intro j hj _
    simp [-BitVec.getLsbD_eq_getElem, getLsbD_fieldAt, hj]

/-- A field alone: what is unpacked packs to the same operands. -/
theorem pack_field {n : Nat} (hzero : ∀ j, n ≤ j → j < 18 → p.getLsbD j = false) : fieldAt 0 (p.extractLsb' 0 n) = p := by
  refine BitVec.eq_of_getLsbD_eq fun j hj => ?_
  rcases Nat.lt_or_ge j n with h | h
  · simp [-BitVec.getLsbD_eq_getElem, getLsbD_fieldAt, hj, h]
  · simp [-BitVec.getLsbD_eq_getElem, getLsbD_fieldAt, hzero j h hj, Nat.not_lt.2 h]

/-- A field and a bit above it. -/
theorem unpack_bit_field {n : Nat} (b : Bool) (v : BitVec n) (hn : n < 18) :
    (bitAt n b ||| fieldAt 0 v).extractLsb' 0 n = v ∧ (bitAt n b ||| fieldAt 0 v).getLsbD n = b ∧
      ∀ j, n + 1 ≤ j → j < 18 → (bitAt n b ||| fieldAt 0 v).getLsbD j = false := by
  refine ⟨extract_field _ v (by omega) fun j hj => ?_, ?_, fun j hj _ => ?_⟩
  · simp [-BitVec.getLsbD_eq_getElem, getLsbD_bitAt, show j ≠ n by omega]
  · simp [-BitVec.getLsbD_eq_getElem, getLsbD_bitAt, getLsbD_fieldAt, hn]
  · simp [-BitVec.getLsbD_eq_getElem, getLsbD_bitAt, getLsbD_fieldAt, show j ≠ n by omega, show n ≤ j by omega]

theorem pack_bit_field {n : Nat} (hzero : ∀ j, n + 1 ≤ j → j < 18 → p.getLsbD j = false) :
    bitAt n (p.getLsbD n) ||| fieldAt 0 (p.extractLsb' 0 n) = p := by
  refine BitVec.eq_of_getLsbD_eq fun j hj => ?_
  rcases Nat.lt_trichotomy j n with h | rfl | h
  · simp [-BitVec.getLsbD_eq_getElem, getLsbD_bitAt, getLsbD_fieldAt, hj, h, Nat.ne_of_lt h]
  · simp [-BitVec.getLsbD_eq_getElem, getLsbD_bitAt, getLsbD_fieldAt, hj]
  · simp [-BitVec.getLsbD_eq_getElem, getLsbD_bitAt, getLsbD_fieldAt, hzero j h hj, show j ≠ n by omega, show ¬j < n by omega]

/-- Two fields and a bit above them. -/
theorem unpack_bit_field_field {m n : Nat} (b : Bool) (u : BitVec m) (v : BitVec n) (hn : n + m < 18) :
    let x := bitAt (n + m) b ||| fieldAt n u ||| fieldAt 0 v
    x.extractLsb' 0 n = v ∧ x.extractLsb' n m = u ∧ x.getLsbD (n + m) = b ∧
      ∀ j, n + m + 1 ≤ j → j < 18 → x.getLsbD j = false := by
  refine ⟨extract_field _ v (by omega) fun j hj => ?_, ?_, ?_, fun j hj _ => ?_⟩
  · simp [-BitVec.getLsbD_eq_getElem, getLsbD_bitAt, getLsbD_fieldAt, show j ≠ n + m by omega, show ¬n ≤ j by omega]
  · rw [BitVec.or_assoc, BitVec.or_comm (fieldAt n u), ← BitVec.or_assoc]
    refine extract_field _ u (by omega) fun j hj => ?_
    simp [-BitVec.getLsbD_eq_getElem, getLsbD_bitAt, getLsbD_fieldAt, show j ≠ m by omega]
  · simp [-BitVec.getLsbD_eq_getElem, getLsbD_bitAt, getLsbD_fieldAt, hn]
  · simp [-BitVec.getLsbD_eq_getElem, getLsbD_bitAt, getLsbD_fieldAt, show j ≠ n + m by omega, show m ≤ j - n by omega,
      show n ≤ j by omega]

theorem pack_bit_field_field {k m n : Nat} (hk : k = n + m) (hzero : ∀ j, k + 1 ≤ j → j < 18 → p.getLsbD j = false) :
    bitAt k (p.getLsbD k) ||| fieldAt n (p.extractLsb' n m) ||| fieldAt 0 (p.extractLsb' 0 n) = p := by
  subst hk
  refine BitVec.eq_of_getLsbD_eq fun j hj => ?_
  rcases Nat.lt_trichotomy j (n + m) with h | rfl | h
  · rcases Nat.lt_or_ge j n with hjn | hjn
    · simp [-BitVec.getLsbD_eq_getElem, getLsbD_bitAt, getLsbD_fieldAt, hj, hjn, show j ≠ n + m by omega, show ¬n ≤ j by omega]
    · simp [-BitVec.getLsbD_eq_getElem, getLsbD_bitAt, getLsbD_fieldAt, hj, show j ≠ n + m by omega, hjn,
        show j - n < m by omega]
  · simp [-BitVec.getLsbD_eq_getElem, getLsbD_bitAt, getLsbD_fieldAt, hj]
  · simp [-BitVec.getLsbD_eq_getElem, getLsbD_bitAt, getLsbD_fieldAt, hzero j h hj, show j ≠ n + m by omega, show ¬j < n by omega,
      show ¬j - n < m by omega]

/-- A field and two bits above it, the operands of `RTI`. -/
theorem unpack_bit_bit_field {n : Nat} (a b : Bool) (v : BitVec n) (hn : n + 1 < 18) :
    let x := bitAt (n + 1) a ||| bitAt n b ||| fieldAt 0 v
    x.extractLsb' 0 n = v ∧ x.getLsbD n = b ∧ x.getLsbD (n + 1) = a ∧
      ∀ j, n + 2 ≤ j → j < 18 → x.getLsbD j = false := by
  refine ⟨extract_field _ v (by omega) fun j hj => ?_, ?_, ?_, fun j hj _ => ?_⟩
  · simp [-BitVec.getLsbD_eq_getElem, getLsbD_bitAt, show j ≠ n by omega, show j ≠ n + 1 by omega]
  · simp [-BitVec.getLsbD_eq_getElem, getLsbD_bitAt, getLsbD_fieldAt, show n < 18 by omega]
  · simp [-BitVec.getLsbD_eq_getElem, getLsbD_bitAt, getLsbD_fieldAt, hn]
  · simp [-BitVec.getLsbD_eq_getElem, getLsbD_bitAt, getLsbD_fieldAt, show j ≠ n by omega, show j ≠ n + 1 by omega,
      show n ≤ j by omega]

theorem pack_bit_bit_field {n : Nat} (hzero : ∀ j, n + 2 ≤ j → j < 18 → p.getLsbD j = false) :
    bitAt (n + 1) (p.getLsbD (n + 1)) ||| bitAt n (p.getLsbD n) ||| fieldAt 0 (p.extractLsb' 0 n) = p := by
  refine BitVec.eq_of_getLsbD_eq fun j hj => ?_
  rcases Nat.lt_trichotomy j n with h | rfl | h
  · simp [-BitVec.getLsbD_eq_getElem, getLsbD_bitAt, getLsbD_fieldAt, hj, h, show j ≠ n by omega, show j ≠ n + 1 by omega]
  · simp [-BitVec.getLsbD_eq_getElem, getLsbD_bitAt, getLsbD_fieldAt, hj]
  · rcases Nat.eq_or_lt_of_le h with rfl | h'
    · simp [-BitVec.getLsbD_eq_getElem, getLsbD_bitAt, getLsbD_fieldAt, hj]
    · simp [-BitVec.getLsbD_eq_getElem, getLsbD_bitAt, getLsbD_fieldAt, hzero j h' hj, show j ≠ n by omega, show j ≠ n + 1 by omega,
        show ¬j < n by omega]

/-- A bit alone. -/
theorem unpack_bit (b : Bool) :
    (bitAt 0 b).getLsbD 0 = b ∧ ∀ j, 1 ≤ j → j < 18 → (bitAt 0 b).getLsbD j = false := by
  refine ⟨by simp [-BitVec.getLsbD_eq_getElem, getLsbD_bitAt], fun j hj _ => ?_⟩
  simp [-BitVec.getLsbD_eq_getElem, getLsbD_bitAt, show j ≠ 0 by omega]

theorem pack_bit (hzero : ∀ j, 1 ≤ j → j < 18 → p.getLsbD j = false) : bitAt 0 (p.getLsbD 0) = p := by
  refine BitVec.eq_of_getLsbD_eq fun j hj => ?_
  rcases Nat.eq_zero_or_pos j with rfl | h
  · simp [-BitVec.getLsbD_eq_getElem, getLsbD_bitAt]
  · simp [-BitVec.getLsbD_eq_getElem, getLsbD_bitAt, hzero j h hj, show j ≠ 0 by omega]

theorem operands_eq_zero (hzero : ∀ j, 0 ≤ j → j < 18 → p.getLsbD j = false) : p = 0 :=
  BitVec.eq_of_getLsbD_eq fun j hj => by simp [hzero j (by omega) hj]

/-! ### Encoding, then decoding -/

/-- A one-word instruction is decoded from its operands, whatever words follow. -/
theorem decode_whole {w : PWord} (h : decodeFirst w = .ok (.whole i)) (rest : List PWord) :
    decode (w :: rest) = .ok (.core i, rest) := by
  simp [decode, h]

theorem decode_longCall {w : PWord} {c : Cond} (h : decodeFirst w = .ok (.longCall c)) (a : Addr) (rest : List PWord) :
    decode (w :: a :: rest) = .ok (.core (.lcall c a), rest) := by
  simp [decode, h]

theorem decode_longJump {w : PWord} {c : Cond} (h : decodeFirst w = .ok (.longJump c)) (a : Addr) (rest : List PWord) :
    decode (w :: a :: rest) = .ok (.core (.ljump c a), rest) := by
  simp [decode, h]

/-- Row by row, the decoder takes out of the first word what the encoder placed there. -/
theorem decode_encode (i : Instr) (rest : List PWord) : decode (encode i ++ rest) = .ok (.core i, rest) := by
  cases i with
  | doUntil imm t =>
    obtain ⟨himm, hterm, hzero⟩ := unpack_bit_field (termBit t) imm (by omega)
    refine decode_whole ?_ rest
    simp only [decodeFirst, opcodeOf_firstWord, operandsOf_firstWord, himm, hterm, termOf_termBit]
    exact ifZeroAbove_eq_ok.2 ⟨rfl, hzero⟩
  | jumpRel13 c imm db =>
    obtain ⟨himm, hcond, hdb, hzero⟩ := unpack_bit_field_field db (condCode c) imm (by omega)
    refine decode_whole ?_ rest
    simp only [decodeFirst, opcodeOf_firstWord, operandsOf_firstWord, himm, hcond, hdb, condOf_condCode]
    rfl
  | callRel16 imm db =>
    obtain ⟨himm, hdb, hzero⟩ := unpack_bit_field db imm (by omega)
    refine decode_whole ?_ rest
    simp only [decodeFirst, opcodeOf_firstWord, operandsOf_firstWord, himm, hdb]
    exact ifZeroAbove_eq_ok.2 ⟨rfl, hzero⟩
  | jumpRel16 imm db =>
    obtain ⟨himm, hdb, hzero⟩ := unpack_bit_field db imm (by omega)
    refine decode_whole ?_ rest
    simp only [decodeFirst, opcodeOf_firstWord, operandsOf_firstWord, himm, hdb]
    exact ifZeroAbove_eq_ok.2 ⟨rfl, hzero⟩
  | lcall c a =>
    obtain ⟨hcond, hzero⟩ := unpack_field (condCode c) (by omega)
    refine decode_longCall ?_ a rest
    simp only [decodeFirst, opcodeOf_firstWord, operandsOf_firstWord, hcond, condOf_condCode]
    exact ifZeroAbove_eq_ok.2 ⟨rfl, hzero⟩
  | ljump c a =>
    obtain ⟨hcond, hzero⟩ := unpack_field (condCode c) (by omega)
    refine decode_longJump ?_ a rest
    simp only [decodeFirst, opcodeOf_firstWord, operandsOf_firstWord, hcond, condOf_condCode]
    exact ifZeroAbove_eq_ok.2 ⟨rfl, hzero⟩
  | callInd c ireg db =>
    obtain ⟨hireg, hcond, hdb, hzero⟩ := unpack_bit_field_field db (condCode c) ireg (by omega)
    refine decode_whole ?_ rest
    simp only [decodeFirst, opcodeOf_firstWord, operandsOf_firstWord, hireg, hcond, hdb, condOf_condCode]
    exact ifZeroAbove_eq_ok.2 ⟨rfl, hzero⟩
  | jumpInd c ireg db =>
    obtain ⟨hireg, hcond, hdb, hzero⟩ := unpack_bit_field_field db (condCode c) ireg (by omega)
    refine decode_whole ?_ rest
    simp only [decodeFirst, opcodeOf_firstWord, operandsOf_firstWord, hireg, hcond, hdb, condOf_condCode]
    exact ifZeroAbove_eq_ok.2 ⟨rfl, hzero⟩
  | rti c db ss =>
    obtain ⟨hcond, hdb, hss, hzero⟩ := unpack_bit_bit_field ss db (condCode c) (by omega)
    refine decode_whole ?_ rest
    simp only [decodeFirst, opcodeOf_firstWord, operandsOf_firstWord, hcond, hdb, hss, condOf_condCode]
    exact ifZeroAbove_eq_ok.2 ⟨rfl, hzero⟩
  | rts c db =>
    obtain ⟨hcond, hdb, hzero⟩ := unpack_bit_field db (condCode c) (by omega)
    refine decode_whole ?_ rest
    simp only [decodeFirst, opcodeOf_firstWord, operandsOf_firstWord, hcond, hdb, condOf_condCode]
    exact ifZeroAbove_eq_ok.2 ⟨rfl, hzero⟩
  | pushPc q =>
    obtain ⟨hpartner, hzero⟩ := unpack_field (partnerCode q) (by omega)
    refine decode_whole ?_ rest
    simp only [decodeFirst, opcodeOf_firstWord, operandsOf_firstWord, hpartner, partnerOf_partnerCode]
    exact ifZeroAbove_eq_ok.2 ⟨rfl, hzero⟩
  | popPc q =>
    obtain ⟨hpartner, hzero⟩ := unpack_field (partnerCode q) (by omega)
    refine decode_whole ?_ rest
    simp only [decodeFirst, opcodeOf_firstWord, operandsOf_firstWord, hpartner, partnerOf_partnerCode]
    exact ifZeroAbove_eq_ok.2 ⟨rfl, hzero⟩
  | pushLoop sts =>
    obtain ⟨hsts, hzero⟩ := unpack_bit sts
    refine decode_whole ?_ rest
    simp only [decodeFirst, opcodeOf_firstWord, operandsOf_firstWord, hsts]
    exact ifZeroAbove_eq_ok.2 ⟨rfl, hzero⟩
  | popLoop sts =>
    obtain ⟨hsts, hzero⟩ := unpack_bit sts
    refine decode_whole ?_ rest
    simp only [decodeFirst, opcodeOf_firstWord, operandsOf_firstWord, hsts]
    exact ifZeroAbove_eq_ok.2 ⟨rfl, hzero⟩
  | pushSts => exact decode_whole rfl rest
  | popSts => exact decode_whole rfl rest
  | flushCache => exact decode_whole rfl rest
  | nop => exact decode_whole rfl rest
  | idle => exact decode_whole rfl rest
  | setint n =>
    obtain ⟨hn, hzero⟩ := unpack_field n (by omega)
    refine decode_whole ?_ rest
    simp only [decodeFirst, opcodeOf_firstWord, operandsOf_firstWord, hn]
    exact ifZeroAbove_eq_ok.2 ⟨rfl, hzero⟩
  | clrint n =>
    obtain ⟨hn, hzero⟩ := unpack_field n (by omega)
    refine decode_whole ?_ rest
    simp only [decodeFirst, opcodeOf_firstWord, operandsOf_firstWord, hn]
    exact ifZeroAbove_eq_ok.2 ⟨rfl, hzero⟩
  | idleDiv n =>
    obtain ⟨hn, hzero⟩ := unpack_field n (by omega)
    refine decode_whole ?_ rest
    simp only [decodeFirst, opcodeOf_firstWord, operandsOf_firstWord, hn]
    exact ifZeroAbove_eq_ok.2 ⟨rfl, hzero⟩
  | ena m =>
    obtain ⟨hmodes, hzero⟩ := unpack_field (modeBits m) (by omega)
    refine decode_whole ?_ rest
    simp only [decodeFirst, opcodeOf_firstWord, operandsOf_firstWord, hmodes, modesOf_modeBits]
    exact ifZeroAbove_eq_ok.2 ⟨rfl, hzero⟩
  | dis m =>
    obtain ⟨hmodes, hzero⟩ := unpack_field (modeBits m) (by omega)
    refine decode_whole ?_ rest
    simp only [decodeFirst, opcodeOf_firstWord, operandsOf_firstWord, hmodes, modesOf_modeBits]
    exact ifZeroAbove_eq_ok.2 ⟨rfl, hzero⟩

/-! ### Decoding, then encoding -/

theorem partnerCode_of_partnerOf {c : BitVec 2} {q : PcPartner} (h : partnerOf c = some q) : partnerCode q = c := by
  revert c q
  decide

/-- What a first word decodes to is encoded by that word. -/
theorem encode_decodeFirst {w : PWord} (h : decodeFirst w = .ok f) :
    match f with
    | .whole i => encode i = [w]
    | .longCall c => ∀ a, encode (.lcall c a) = [w, a]
    | .longJump c => ∀ a, encode (.ljump c a) = [w, a]
    | .other _ => True := by
  have hw : ∀ r : BitVec 6, (opcodeOf w).toNat = r.toNat → firstWord r (operandsOf w) = w := by
    intro r hr
    rw [← BitVec.eq_of_toNat_eq hr, firstWord_of_parts]
  have hlt := (opcodeOf w).isLt
  generalize hr : (opcodeOf w).toNat = r at hlt
  interval_cases r <;> simp only [decodeFirst, hr, reduceCtorEq] at h
  -- row 1
  · obtain ⟨rfl, hzero⟩ := ifZeroAbove_eq_ok.1 h
    show [firstWord 1 _] = [w]
    rw [termBit_termOf, pack_bit_field hzero, hw 1 hr]
  -- row 2
  · obtain rfl := Except.ok.inj h
    show [firstWord 2 _] = [w]
    rw [condCode_condOf, pack_bit_field_field (m := 4) (n := 13) rfl (by omega), hw 2 hr]
  -- row 3
  · obtain ⟨rfl, hzero⟩ := ifZeroAbove_eq_ok.1 h
    show [firstWord 3 _] = [w]
    rw [pack_bit_field hzero, hw 3 hr]
  -- row 4
  · obtain ⟨rfl, hzero⟩ := ifZeroAbove_eq_ok.1 h
    show [firstWord 4 _] = [w]
    rw [pack_bit_field hzero, hw 4 hr]
  -- row 5
  · obtain ⟨rfl, hzero⟩ := ifZeroAbove_eq_ok.1 h
    intro a
    show [firstWord 5 _, a] = [w, a]
    rw [condCode_condOf, pack_field hzero, hw 5 hr]
  -- row 6
  · obtain ⟨rfl, hzero⟩ := ifZeroAbove_eq_ok.1 h
    intro a
    show [firstWord 6 _, a] = [w, a]
    rw [condCode_condOf, pack_field hzero, hw 6 hr]
  -- row 7
  · obtain ⟨rfl, hzero⟩ := ifZeroAbove_eq_ok.1 h
    show [firstWord 7 _] = [w]
    rw [condCode_condOf, pack_bit_field_field (m := 4) (n := 3) rfl hzero, hw 7 hr]
  -- row 8
  · obtain ⟨rfl, hzero⟩ := ifZeroAbove_eq_ok.1 h
    show [firstWord 8 _] = [w]
    rw [condCode_condOf, pack_bit_field_field (m := 4) (n := 3) rfl hzero, hw 8 hr]
  -- row 9
  · obtain ⟨rfl, hzero⟩ := ifZeroAbove_eq_ok.1 h
    show [firstWord 9 _] = [w]
    rw [condCode_condOf, pack_bit_bit_field hzero, hw 9 hr]
  -- row 10
  · obtain ⟨rfl, hzero⟩ := ifZeroAbove_eq_ok.1 h
    show [firstWord 10 _] = [w]
    rw [condCode_condOf, pack_bit_field hzero, hw 10 hr]
  -- row 11
  · split at h
    · rename_i q hq
      obtain ⟨rfl, hzero⟩ := ifZeroAbove_eq_ok.1 h
      show [firstWord 11 _] = [w]
      rw [partnerCode_of_partnerOf hq, pack_field hzero, hw 11 hr]
    · cases h
  -- row 12
  · split at h
    · rename_i q hq
      obtain ⟨rfl, hzero⟩ := ifZeroAbove_eq_ok.1 h
      show [firstWord 12 _] = [w]
      rw [partnerCode_of_partnerOf hq, pack_field hzero, hw 12 hr]
    · cases h
  -- row 13
  · obtain ⟨rfl, hzero⟩ := ifZeroAbove_eq_ok.1 h
    show [firstWord 13 _] = [w]
    rw [pack_bit hzero, hw 13 hr]
  -- row 14
  · obtain ⟨rfl, hzero⟩ := ifZeroAbove_eq_ok.1 h
    show [firstWord 14 _] = [w]
    rw [pack_bit hzero, hw 14 hr]
  -- row 15
  · obtain ⟨rfl, hzero⟩ := ifZeroAbove_eq_ok.1 h
    show [firstWord 15 0] = [w]
    rw [← operands_eq_zero hzero, hw 15 hr]
  -- row 16
  · obtain ⟨rfl, hzero⟩ := ifZeroAbove_eq_ok.1 h
    show [firstWord 16 0] = [w]
    rw [← operands_eq_zero hzero, hw 16 hr]
  -- row 17
  · obtain ⟨rfl, hzero⟩ := ifZeroAbove_eq_ok.1 h
    show [firstWord 17 0] = [w]
    rw [← operands_eq_zero hzero, hw 17 hr]
  -- row 18
  · obtain ⟨rfl, hzero⟩ := ifZeroAbove_eq_ok.1 h
    show [firstWord 18 _] = [w]
    rw [pack_field hzero, hw 18 hr]
  -- row 19
  · obtain ⟨rfl, hzero⟩ := ifZeroAbove_eq_ok.1 h
    show [firstWord 19 _] = [w]
    rw [pack_field hzero, hw 19 hr]
  -- row 20
  · obtain ⟨rfl, hzero⟩ := ifZeroAbove_eq_ok.1 h
    show [firstWord 20 0] = [w]
    rw [← operands_eq_zero hzero, hw 20 hr]
  -- row 21
  · obtain ⟨rfl, hzero⟩ := ifZeroAbove_eq_ok.1 h
    show [firstWord 21 0] = [w]
    rw [← operands_eq_zero hzero, hw 21 hr]
  -- row 22
  · obtain ⟨rfl, hzero⟩ := ifZeroAbove_eq_ok.1 h
    show [firstWord 22 _] = [w]
    rw [pack_field hzero, hw 22 hr]
  -- row 23
  · obtain ⟨rfl, hzero⟩ := ifZeroAbove_eq_ok.1 h
    show [firstWord 23 _] = [w]
    rw [modeBits_modesOf, pack_field hzero, hw 23 hr]
  -- row 24
  · obtain ⟨rfl, hzero⟩ := ifZeroAbove_eq_ok.1 h
    show [firstWord 24 _] = [w]
    rw [modeBits_modesOf, pack_field hzero, hw 24 hr]
  -- row 62
  · obtain rfl := Except.ok.inj h
    trivial
  -- row 63
  · obtain rfl := Except.ok.inj h
    trivial

theorem encode_of_decode {ws rest : List PWord} (h : decode ws = .ok (.core i, rest)) : ws = encode i ++ rest := by
  cases ws with
  | nil => cases h
  | cons w tail =>
    simp only [decode] at h
    split at h
    · cases h
    · rename_i j hj
      have hw : encode j = [w] := encode_decodeFirst hj
      cases h
      simp [hw]
    · cases h
    · rename_i c hc
      have hw : ∀ a, encode (.lcall c a) = [w, a] := encode_decodeFirst hc
      split at h
      · cases h
      · cases h
        simp [hw]
    · rename_i c hc
      have hw : ∀ a, encode (.ljump c a) = [w, a] := encode_decodeFirst hc
      split at h
      · cases h
      · cases h
        simp [hw]
    · split at h <;> cases h

/-! ### The obligations -/

/-- Settles O58: `decode_encode`, which holds of an ill-formed term too. -/
theorem decodeOfEncode : Obligations.DecodeOfEncode := fun i rest _ => decode_encode i rest

/-- Settles O59: the operands of a decoded word pack to the word again (`encode_decodeFirst`). -/
theorem encodeOfDecode : Obligations.EncodeOfDecode := fun _ _ _ h => encode_of_decode h

/-- Settles O60: fixed words, evaluated. -/
theorem decodedWords : Obligations.DecodedWords := by
  unfold Obligations.DecodedWords
  decide

end Sys2Proof
end

section
/-! What an instruction can do, said once: the work of each instruction, which leaves a state, and how control goes on from there.
`exec_work` is the inversion lemma; what every instruction keeps or leaves alone follows from it. -/

namespace Sys2Proof.Machine

open Sys2Proof.Safety

variable {s t u : State}

/-! ### The meaning of each instruction -/

theorem exec_doUntil (imm : BitVec 12) (term : Term) (s : State) : exec (.doUntil imm term) s = execDoUntil imm term s := rfl
theorem exec_lcall (c : Cond) (a : Addr) (s : State) : exec (.lcall c a) s = execLcall c a s := rfl
theorem exec_ljump (c : Cond) (a : Addr) (s : State) : exec (.ljump c a) s = execLjump c a s := rfl
theorem exec_callInd (c : Cond) (r : BitVec 3) (db : Bool) (s : State) : exec (.callInd c r db) s = execCallInd c r db s := rfl
theorem exec_jumpInd (c : Cond) (r : BitVec 3) (db : Bool) (s : State) : exec (.jumpInd c r db) s = execJumpInd c r db s := rfl
theorem exec_rti (c : Cond) (db ss : Bool) (s : State) : exec (.rti c db ss) s = execRti c db ss s := rfl
theorem exec_rts (c : Cond) (db : Bool) (s : State) : exec (.rts c db) s = execRts c db s := rfl
theorem exec_pushPc (p : PcPartner) (s : State) : exec (.pushPc p) s = execPushPc p s := rfl
theorem exec_popPc (p : PcPartner) (s : State) : exec (.popPc p) s = execPopPc p s := rfl
theorem exec_pushLoop (sts : Bool) (s : State) : exec (.pushLoop sts) s = execPushLoop sts s := rfl
theorem exec_popLoop (sts : Bool) (s : State) : exec (.popLoop sts) s = execPopLoop sts s := rfl
theorem exec_pushSts (s : State) : exec .pushSts s = execPushSts s := rfl
theorem exec_popSts (s : State) : exec .popSts s = execPopSts s := rfl
theorem exec_flushCache (s : State) : exec .flushCache s = execFlushCache s := rfl
theorem exec_setint (n : BitVec 4) (s : State) : exec (.setint n) s = execSetint n s := rfl
theorem exec_clrint (n : BitVec 4) (s : State) : exec (.clrint n) s = execClrint n s := rfl
theorem exec_nop (s : State) : exec .nop s = execNop s := rfl
theorem exec_idle (s : State) : exec .idle s = execIdle s := rfl
theorem exec_ena (m : ModeSet) (s : State) : exec (.ena m) s = execEna m s := rfl
theorem exec_dis (m : ModeSet) (s : State) : exec (.dis m) s = execDis m s := rfl

/-! ### Pops that succeed -/

theorem pcPop_ok {i : Instr} {v : Addr} (h : pcPop i s = .ok (v, t)) :
    ∃ rest, s.pcLost = false ∧ s.pcstk = v :: rest ∧ t = withPcStack rest s.cfg.pcLowWater s := by
  rcases pcPop_cases i s with ⟨-, he⟩ | ⟨-, -, he⟩ | ⟨hl, v', rest, hs, he⟩
  · simp [he] at h
  · simp [he] at h
  · rw [he] at h
    cases h
    exact ⟨rest, hl, hs, rfl⟩

theorem lpPop_ok {i : Instr} {r : LoopRec} (h : lpPop i s = .ok (r, t)) :
    ∃ rest, s.lpLost = false ∧ s.lpstk = r :: rest ∧ t = { s with lpstk := rest } := by
  rcases lpPop_cases i s with ⟨-, he⟩ | ⟨-, -, he⟩ | ⟨hl, r', rest, hs, he⟩
  · simp [he] at h
  · simp [he] at h
  · rw [he] at h
    cases h
    exact ⟨rest, hl, hs, rfl⟩

theorem stsPop_ok {i : Instr} {e : StatusEntry} (h : stsPop i s = .ok (e, t)) :
    ∃ rest, s.stsLost = false ∧ s.stsstk = e :: rest ∧ t = { s with stsstk := rest } := by
  rcases stsPop_cases i s with ⟨-, he⟩ | ⟨-, -, he⟩ | ⟨hl, e', rest, hs, he⟩
  · simp [he] at h
  · simp [he] at h
  · rw [he] at h
    cases h
    exact ⟨rest, hl, hs, rfl⟩

/-! ### The work of an instruction -/

/-- The state `RTI` leaves before it branches, when the PC stack becomes `rest` and the status stack `es`, below the entry `e`
(R191, R262). -/
def returned (rest : List Addr) (e : StatusEntry) (es : List StatusEntry) (s : State) : State :=
  writeMstatLate e.mstat
    { withPcStack rest s.cfg.pcLowWater s with stsstk := es, astat := e.astat, insvc := s.insvc.tail }

theorem leaveInterrupt_ok {i : Instr} {v : Addr} (h : leaveInterrupt i s = .ok (v, t)) :
    ∃ rest e es, s.pcLost = false ∧ s.pcstk = v :: rest ∧ s.stsLost = false ∧ s.stsstk = e :: es ∧ t = returned rest e es s := by
  unfold leaveInterrupt at h
  split at h
  · cases h
  · rename_i v' s1 hp
    obtain ⟨rest, hl, hs, rfl⟩ := pcPop_ok hp
    split at h
    · cases h
    · rename_i e s2 he
      obtain ⟨es, hl', hs', rfl⟩ := stsPop_ok he
      cases h
      exact ⟨rest, e, es, hl, hs, hl', hs', rfl⟩

/-- The state `u` is one that the work of the instruction, all but its sequencing, can leave. A conditional form that is not taken
only evaluates its condition (R120). -/
def Work (i : Instr) (s u : State) : Prop :=
  match i with
  | .doUntil imm term => u = lagImplicit (sstat s) (lpPush (armedLoop imm term s) s)
  | .jumpRel13 c _ _ => u = (evalCond c s).2
  | .callRel16 _ db => u = callPush .one db s
  | .jumpRel16 _ _ => u = s
  | .lcall c _ => u = (evalCond c s).2 ∨ u = callPush .two false (evalCond c s).2
  | .ljump c _ => u = (evalCond c s).2
  | .callInd c _ db => u = (evalCond c s).2 ∨ u = callPush .one db (evalCond c s).2
  | .jumpInd c _ _ => u = (evalCond c s).2
  | .rti c _ _ =>
    let e := (evalCond c s).2
    u = e ∨ ∃ v rest en es, e.pcLost = false ∧ e.pcstk = v :: rest ∧ e.stsLost = false ∧ e.stsstk = en :: es ∧
      u = lagImplicit (sstat e) (returned rest en es e)
  | .rts c _ =>
    let e := (evalCond c s).2
    u = e ∨ ∃ v rest, e.pcLost = false ∧ e.pcstk = v :: rest ∧
      u = lagImplicit (sstat e) (withPcStack rest e.cfg.pcLowWater e)
  | .pushPc .alone => u = lagAllBits 0 (sstat s) (pcPush (stackAddr s) s)
  | .pushPc .sts => u = lagAllBits statusBits (sstat s) (stsPush (statusOfRegs s) (pcPush (stackAddr s) s))
  | .pushPc .loop => u = lagAllBits loopBits (sstat s) (lpPush (loopOfRegs s) (pcPush (stackAddr s) s))
  | .popPc .alone =>
    ∃ v rest, s.pcLost = false ∧ s.pcstk = v :: rest ∧
      u = lagAllBits 0 (sstat s) (loadStackRegs v (withPcStack rest s.cfg.pcLowWater s))
  | .popPc .sts =>
    ∃ v rest e es, s.pcLost = false ∧ s.pcstk = v :: rest ∧ s.stsLost = false ∧ s.stsstk = e :: es ∧
      u = lagAllBits statusBits (sstat s)
        (loadStatus e (loadStackRegs v { withPcStack rest s.cfg.pcLowWater s with stsstk := es }))
  | .popPc .loop =>
    ∃ v rest r rs, s.pcLost = false ∧ s.pcstk = v :: rest ∧ s.lpLost = false ∧ s.lpstk = r :: rs ∧
      u = lagAllBits loopBits (sstat s)
        (loadLoopEnd r (loadStackRegs v { withPcStack rest s.cfg.pcLowWater s with lpstk := rs }))
  | .pushLoop false => u = lagOverflowBit (sstat s) (lpPush (loopOfRegs s) s)
  | .pushLoop true => u = lagOverflowBit (sstat s) (stsPush (statusOfRegs s) (lpPush (loopOfRegs s) s))
  | .popLoop false =>
    ∃ r rs, s.lpLost = false ∧ s.lpstk = r :: rs ∧
      u = lagOverflowBit (sstat s) (loadLoopEnd r (loadStackRegs r.start { s with lpstk := rs }))
  | .popLoop true =>
    ∃ r rs e es, s.lpLost = false ∧ s.lpstk = r :: rs ∧ s.stsLost = false ∧ s.stsstk = e :: es ∧
      u = lagOverflowBit (sstat s)
        (loadStatus e { loadLoopEnd r (loadStackRegs r.start { s with lpstk := rs }) with stsstk := es })
  | .pushSts => u = lagOverflowBit (sstat s) (stsPush (statusOfRegs s) s)
  | .popSts =>
    ∃ e es, s.stsLost = false ∧ s.stsstk = e :: es ∧ u = lagOverflowBit (sstat s) (loadStatus e { s with stsstk := es })
  | .flushCache => u = { s with icache := s.icache.map flushLine }
  | .setint n => u = latch n s
  | .clrint n => u = clearLatch n s
  | .nop => u = s
  | .idle => u = { s with power := if s.cfg.hasSleep && s.sleepArmed then .sleep else .idle }
  | .idleDiv d => u = { s with power := .slowIdle d }
  | .ena m => u = setModes m true s
  | .dis m => u = setModes m false s

/-- How control goes on from the state `u` that the work in `s` left. -/
inductive GoesOn (s u t : State) : Prop
  /-- In sequence (R134). -/
  | inSequence (n : WordCount) (h : seqNext n u = .next t)
  /-- By a taken branch, which stands in no delay slot (R133). -/
  | branches (delayed : Bool) (a : Addr) (hdb : u.db = none) (hpower : u.power = s.power) (h : t = branched delayed a u)
  /-- At the next address, behind `DO UNTIL` and behind a `PUSH LOOP` that overflowed, which stand in no delay slot. -/
  | advances (hdb : u.db = none) (h : t = advance .one u)

/-! ### What the parts of a meaning answer -/

theorem ifCond_next {c : Cond} {n : WordCount} {taken : State → Result} (h : ifCond c n s taken = .next t) :
    (evalCond c s).1 = true ∧ taken (evalCond c s).2 = .next t ∨
      (evalCond c s).1 = false ∧ seqNext n (evalCond c s).2 = .next t := by
  cases hc : (evalCond c s).1 with
  | true => exact .inl ⟨rfl, by rwa [ifCond_true hc] at h⟩
  | false => exact .inr ⟨rfl, by rwa [ifCond_false hc] at h⟩

theorem returnBy_next {pop : State → Except Fault (Addr × State)} {db : Bool} (h : returnBy pop db s = .next t) :
    ∃ v s1, pop s = .ok (v, s1) ∧ branchTo .ret .one db v (lagImplicit (sstat s) s1) = .next t := by
  unfold returnBy at h
  split at h
  · cases h
  · split at h
    · cases h
    · exact ⟨_, _, by assumption, h⟩

theorem goesOn_of_branchTo {k : BranchKind} {n : WordCount} {delayed : Bool} {a : Addr} (hpower : u.power = s.power)
    (h : branchTo k n delayed a u = .next t) : GoesOn s u t := by
  obtain ⟨hdb, -, ht⟩ := branchTo_next h
  exact .branches delayed a hdb hpower ht

theorem goesOn_of_seqAfterLoopPush (h : seqAfterLoopPush u = .next t) : GoesOn s u t := by
  unfold seqAfterLoopPush at h
  split at h
  · rename_i hl
    simp only [Bool.and_eq_true, Option.isNone_iff_eq_none] at hl
    cases h
    exact .advances hl.2 rfl
  · exact .inSequence .one h

/-- A field other than the counter and the windows is as before the evaluation of a condition. -/
theorem evalCond_field {α : Type} {f : State → α} (hf : ∀ cntr lags, f { s with cntr := cntr, lags := lags } = f s) (c : Cond) :
    f (evalCond c s).2 = f s := by
  obtain ⟨cntr, lags, h⟩ := evalCond_frame c s
  rw [h, hf]

@[simp] theorem evalCond_cfg (c : Cond) (s : State) : (evalCond c s).2.cfg = s.cfg := evalCond_field (fun _ _ => rfl) c
@[simp] theorem evalCond_mem (c : Cond) (s : State) : (evalCond c s).2.mem = s.mem := evalCond_field (fun _ _ => rfl) c
@[simp] theorem evalCond_dagPri (c : Cond) (s : State) : (evalCond c s).2.dagPri = s.dagPri := evalCond_field (fun _ _ => rfl) c
@[simp] theorem evalCond_dagSec (c : Cond) (s : State) : (evalCond c s).2.dagSec = s.dagSec := evalCond_field (fun _ _ => rfl) c
@[simp] theorem evalCond_ijpg (c : Cond) (s : State) : (evalCond c s).2.ijpg = s.ijpg := evalCond_field (fun _ _ => rfl) c
@[simp] theorem evalCond_stacka (c : Cond) (s : State) : (evalCond c s).2.stacka = s.stacka := evalCond_field (fun _ _ => rfl) c
@[simp] theorem evalCond_stackp (c : Cond) (s : State) : (evalCond c s).2.stackp = s.stackp := evalCond_field (fun _ _ => rfl) c
@[simp] theorem evalCond_lpstacka (c : Cond) (s : State) : (evalCond c s).2.lpstacka = s.lpstacka := evalCond_field (fun _ _ => rfl) c
@[simp] theorem evalCond_lpstackp (c : Cond) (s : State) : (evalCond c s).2.lpstackp = s.lpstackp := evalCond_field (fun _ _ => rfl) c
@[simp] theorem evalCond_astat (c : Cond) (s : State) : (evalCond c s).2.astat = s.astat := evalCond_field (fun _ _ => rfl) c
@[simp] theorem evalCond_mstat (c : Cond) (s : State) : (evalCond c s).2.mstat = s.mstat := evalCond_field (fun _ _ => rfl) c
@[simp] theorem evalCond_icntl (c : Cond) (s : State) : (evalCond c s).2.icntl = s.icntl := evalCond_field (fun _ _ => rfl) c
@[simp] theorem evalCond_irptl (c : Cond) (s : State) : (evalCond c s).2.irptl = s.irptl := evalCond_field (fun _ _ => rfl) c
@[simp] theorem evalCond_pcstk (c : Cond) (s : State) : (evalCond c s).2.pcstk = s.pcstk := evalCond_field (fun _ _ => rfl) c
@[simp] theorem evalCond_lpstk (c : Cond) (s : State) : (evalCond c s).2.lpstk = s.lpstk := evalCond_field (fun _ _ => rfl) c
@[simp] theorem evalCond_stsstk (c : Cond) (s : State) : (evalCond c s).2.stsstk = s.stsstk := evalCond_field (fun _ _ => rfl) c
@[simp] theorem evalCond_pcLost (c : Cond) (s : State) : (evalCond c s).2.pcLost = s.pcLost := evalCond_field (fun _ _ => rfl) c
@[simp] theorem evalCond_lpLost (c : Cond) (s : State) : (evalCond c s).2.lpLost = s.lpLost := evalCond_field (fun _ _ => rfl) c
@[simp] theorem evalCond_stsLost (c : Cond) (s : State) : (evalCond c s).2.stsLost = s.stsLost := evalCond_field (fun _ _ => rfl) c
@[simp] theorem evalCond_pcstklvl (c : Cond) (s : State) : (evalCond c s).2.pcstklvl = s.pcstklvl := evalCond_field (fun _ _ => rfl) c
@[simp] theorem evalCond_stkoverflow (c : Cond) (s : State) : (evalCond c s).2.stkoverflow = s.stkoverflow :=
  evalCond_field (fun _ _ => rfl) c
@[simp] theorem evalCond_db (c : Cond) (s : State) : (evalCond c s).2.db = s.db := evalCond_field (fun _ _ => rfl) c
@[simp] theorem evalCond_text (c : Cond) (s : State) : (evalCond c s).2.text = s.text := evalCond_field (fun _ _ => rfl) c
@[simp] theorem evalCond_slotSites (c : Cond) (s : State) : (evalCond c s).2.slotSites = s.slotSites := evalCond_field (fun _ _ => rfl) c
@[simp] theorem evalCond_loopSites (c : Cond) (s : State) : (evalCond c s).2.loopSites = s.loopSites := evalCond_field (fun _ _ => rfl) c
@[simp] theorem evalCond_popSites (c : Cond) (s : State) : (evalCond c s).2.popSites = s.popSites := evalCond_field (fun _ _ => rfl) c
@[simp] theorem evalCond_insvc (c : Cond) (s : State) : (evalCond c s).2.insvc = s.insvc := evalCond_field (fun _ _ => rfl) c
@[simp] theorem evalCond_power (c : Cond) (s : State) : (evalCond c s).2.power = s.power := evalCond_field (fun _ _ => rfl) c
@[simp] theorem evalCond_tick (c : Cond) (s : State) : (evalCond c s).2.tick = s.tick := evalCond_field (fun _ _ => rfl) c

@[simp] theorem callPush_db (n : WordCount) (d : Bool) : (callPush n d s).db = s.db := by simp [callPush]
@[simp] theorem callPush_pc (n : WordCount) (d : Bool) : (callPush n d s).pc = s.pc := by simp [callPush]
@[simp] theorem callPush_lpLost (n : WordCount) (d : Bool) : (callPush n d s).lpLost = s.lpLost := by simp [callPush]
@[simp] theorem callPush_lpstk (n : WordCount) (d : Bool) : (callPush n d s).lpstk = s.lpstk := by simp [callPush]
@[simp] theorem callPush_power (n : WordCount) (d : Bool) : (callPush n d s).power = s.power := by simp [callPush]

/-- A conditional jump goes on from what its condition leaves, taken or not. -/
theorem goesOn_of_condJump {c : Cond} {n : WordCount} {delayed : Bool} {target : State → Addr}
    (h : ifCond c n s (fun e => branchTo .jump n delayed (target e) e) = .next t) : GoesOn s (evalCond c s).2 t := by
  rcases ifCond_next h with ⟨-, h⟩ | ⟨-, h⟩
  · exact goesOn_of_branchTo (evalCond_power c s) h
  · exact .inSequence n h

/-- A conditional call goes on from what its condition leaves, and pushes its return address if it is taken. -/
theorem goesOn_of_condCall {c : Cond} {n : WordCount} {delayed : Bool} {target : State → Addr}
    (h : ifCond c n s (fun e => branchTo .call n delayed (target e) (callPush n delayed e)) = .next t) :
    ∃ u, (u = (evalCond c s).2 ∨ u = callPush n delayed (evalCond c s).2) ∧ GoesOn s u t := by
  rcases ifCond_next h with ⟨-, h⟩ | ⟨-, h⟩
  · exact ⟨_, .inr rfl, goesOn_of_branchTo (by rw [callPush_power, evalCond_power]) h⟩
  · exact ⟨_, .inl rfl, .inSequence n h⟩

/-! ### The inversion lemma -/

/-- The next state of an instruction is what its work leaves, sequenced. -/
theorem exec_work {i : Instr} (h : exec i s = .next t) : ∃ u, Work i s u ∧ GoesOn s u t := by
  cases i with
  | doUntil imm term =>
    rw [exec_doUntil, execDoUntil] at h
    split at h
    · cases h
    · split at h
      · cases h
      · rename_i hdb
        split at h
        · cases h
        · cases h
          exact ⟨_, rfl, .advances (by simpa using hdb) rfl⟩
  | jumpRel13 c imm db =>
    rw [exec_jumpRel13, execJumpRel13] at h
    exact ⟨_, rfl, goesOn_of_condJump h⟩
  | callRel16 imm db => exact ⟨_, rfl, goesOn_of_branchTo (callPush_power _ _) h⟩
  | jumpRel16 imm db => exact ⟨_, rfl, goesOn_of_branchTo rfl h⟩
  | lcall c a =>
    rw [exec_lcall, execLcall] at h
    exact goesOn_of_condCall h
  | ljump c a =>
    rw [exec_ljump, execLjump] at h
    exact ⟨_, rfl, goesOn_of_condJump h⟩
  | callInd c r db =>
    rw [exec_callInd, execCallInd] at h
    exact goesOn_of_condCall h
  | jumpInd c r db =>
    rw [exec_jumpInd, execJumpInd] at h
    exact ⟨_, rfl, goesOn_of_condJump h⟩
  | rti c db ss =>
    rw [exec_rti, execRti] at h
    rcases ifCond_next h with ⟨-, h⟩ | ⟨-, h⟩
    · split at h
      · cases h
      · obtain ⟨v, s1, hp, h⟩ := returnBy_next h
        obtain ⟨rest, e, es, hl, hs, hl', hs', rfl⟩ := leaveInterrupt_ok hp
        exact ⟨_, .inr ⟨v, rest, e, es, hl, hs, hl', hs', rfl⟩, goesOn_of_branchTo (by simp [returned, withPcStack]) h⟩
    · exact ⟨_, .inl rfl, .inSequence .one h⟩
  | rts c db =>
    rw [exec_rts, execRts] at h
    rcases ifCond_next h with ⟨-, h⟩ | ⟨-, h⟩
    · obtain ⟨v, s1, hp, h⟩ := returnBy_next h
      obtain ⟨rest, hl, hs, rfl⟩ := pcPop_ok hp
      exact ⟨_, .inr ⟨v, rest, hl, hs, rfl⟩, goesOn_of_branchTo (by simp [withPcStack]) h⟩
    · exact ⟨_, .inl rfl, .inSequence .one h⟩
  | pushPc p =>
    cases p with
    | alone => exact ⟨_, rfl, .inSequence .one h⟩
    | sts => exact ⟨_, rfl, .inSequence .one h⟩
    | loop =>
      rw [exec_pushPc, execPushPc] at h
      split at h
      · cases h
      · split at h
        · cases h
        · exact ⟨_, rfl, goesOn_of_seqAfterLoopPush h⟩
  | popPc p =>
    rw [exec_popPc, execPopPc] at h
    split at h
    · cases h
    · rename_i v s1 hp
      obtain ⟨rest, hl, hs, rfl⟩ := pcPop_ok hp
      cases p with
      | alone => exact ⟨_, ⟨v, rest, hl, hs, rfl⟩, .inSequence .one h⟩
      | sts =>
        simp only at h
        split at h
        · cases h
        · rename_i e s2 hp'
          obtain ⟨es, hl', hs', rfl⟩ := stsPop_ok hp'
          exact ⟨_, ⟨v, rest, e, es, hl, hs, hl', hs', rfl⟩, .inSequence .one h⟩
      | loop =>
        simp only at h
        split at h
        · cases h
        · rename_i r s2 hp'
          obtain ⟨rs, hl', hs', rfl⟩ := lpPop_ok hp'
          exact ⟨_, ⟨v, rest, r, rs, hl, hs, hl', hs', rfl⟩, .inSequence .one h⟩
  | pushLoop sts =>
    rw [exec_pushLoop, execPushLoop] at h
    split at h
    · cases h
    · split at h
      · cases h
      · cases sts <;> exact ⟨_, rfl, goesOn_of_seqAfterLoopPush h⟩
  | popLoop sts =>
    rw [exec_popLoop, execPopLoop] at h
    split at h
    · cases h
    · rename_i r s1 hp
      obtain ⟨rs, hl, hs, rfl⟩ := lpPop_ok hp
      cases sts with
      | false => exact ⟨_, ⟨r, rs, hl, hs, rfl⟩, .inSequence .one h⟩
      | true =>
        simp only [if_true] at h
        split at h
        · cases h
        · rename_i e s3 hp'
          obtain ⟨es, hl', hs', rfl⟩ := stsPop_ok hp'
          exact ⟨_, ⟨r, rs, e, es, hl, hs, hl', hs', rfl⟩, .inSequence .one h⟩
  | pushSts => exact ⟨_, rfl, .inSequence .one h⟩
  | popSts =>
    rw [exec_popSts, execPopSts] at h
    split at h
    · cases h
    · rename_i e s1 hp
      obtain ⟨es, hl, hs, rfl⟩ := stsPop_ok hp
      exact ⟨_, ⟨e, es, hl, hs, rfl⟩, .inSequence .one h⟩
  | idleDiv d =>
    rw [exec_idleDiv, execIdleDiv] at h
    split at h
    · exact ⟨_, rfl, .inSequence .one h⟩
    · cases h
  | flushCache => exact ⟨_, rfl, .inSequence .one h⟩
  | setint n => exact ⟨_, rfl, .inSequence .one h⟩
  | clrint n => exact ⟨_, rfl, .inSequence .one h⟩
  | nop => exact ⟨_, rfl, .inSequence .one h⟩
  | idle => exact ⟨_, rfl, .inSequence .one h⟩
  | ena m => exact ⟨_, rfl, .inSequence .one h⟩
  | dis m => exact ⟨_, rfl, .inSequence .one h⟩

/-- Going on leaves everything alone but the program counter, the loop stacks, the delayed branch and the window of `SSTAT`. -/
theorem GoesOn.frame (h : GoesOn s u t) :
    ∃ pc lpstk db w, t = { u with pc := pc, lpstk := lpstk, db := db, sstatLag := w } := by
  cases h with
  | inSequence n h => exact seqNext_frame h
  | branches delayed a _ _ h => exact ⟨_, u.lpstk, _, u.sstatLag, h⟩
  | advances _ h => exact ⟨_, u.lpstk, u.db, u.sstatLag, h⟩

end Sys2Proof.Machine
end

section
/-! The invariant: it holds at reset and every step keeps it. The operations keep it one by one; an instruction does by `exec_work`. -/

namespace Sys2Proof.Machine

open Sys2Proof.Safety

variable {s t u : State}

/-! ### What the invariant looks at -/

/-- The part of the state the invariant speaks of. -/
def invPart (s : State) :=
  (s.mem, s.pcstk, s.lpstk, s.stsstk, s.pcLost, s.lpLost, s.stsLost, s.stkoverflow, s.insvc, s.db, s.power,
    s.slotSites, s.loopSites, s.popSites)

theorem inv_of_invPart (h : Inv s) (he : invPart t = invPart s) : Inv t := by
  simp only [invPart, Prod.mk.injEq] at he
  obtain ⟨hmem, hpc, hlp, hsts, hpcl, hlpl, hstsl, hov, hin, hdb, hpow, hslot, hloop, hpop⟩ := he
  exact
    { memory := by rw [hmem]; exact h.memory
      pcBound := by rw [hpc]; exact h.pcBound
      lpBound := by rw [hlp]; exact h.lpBound
      stsBound := by rw [hsts]; exact h.stsBound
      pcLostEmpty := by rw [hpcl, hpc]; exact h.pcLostEmpty
      lpLostEmpty := by rw [hlpl, hlp]; exact h.lpLostEmpty
      stsLostEmpty := by rw [hstsl, hsts]; exact h.stsLostEmpty
      lostFlag := by rw [hpcl, hlpl, hstsl, hov]; exact h.lostFlag
      nesting := by rw [hin]; exact h.nesting
      slotsRun := by rw [hdb, hpow]; exact h.slotsRun
      slotSitesOnce := by rw [hslot]; exact h.slotSitesOnce
      loopSitesOnce := by rw [hloop]; exact h.loopSitesOnce
      popSitesOnce := by rw [hpop]; exact h.popSitesOnce }

/-! ### The stacks -/

theorem pcPush_keeps_inv (v : Addr) (h : Inv s) : Inv (pcPush v s) := by
  rcases pcPush_cases v s with ⟨-, he⟩ | ⟨-, -, he⟩ | ⟨⟨hl, hroom⟩, he⟩
  · rw [he]
    exact inv_of_invPart h rfl
  · rw [he]
    exact { h with pcBound := Nat.zero_le _, pcLostEmpty := fun _ => rfl, lostFlag := fun _ => rfl }
  · rw [he]
    exact { h with pcBound := hroom, pcLostEmpty := fun hl' => by simp_all [withPcStack] }

theorem lpPush_keeps_inv (r : LoopRec) (h : Inv s) : Inv (lpPush r s) := by
  rcases lpPush_cases r s with ⟨-, he⟩ | ⟨-, -, he⟩ | ⟨⟨hl, hroom⟩, he⟩
  · rwa [he]
  · rw [he]
    exact { h with lpBound := Nat.zero_le _, lpLostEmpty := fun _ => rfl, lostFlag := fun _ => rfl }
  · rw [he]
    exact { h with lpBound := hroom, lpLostEmpty := fun hl' => by simp_all }

theorem stsPush_keeps_inv (e : StatusEntry) (h : Inv s) : Inv (stsPush e s) := by
  rcases stsPush_cases e s with ⟨-, he⟩ | ⟨-, -, he⟩ | ⟨⟨hl, hroom⟩, he⟩
  · rw [he]
    exact inv_of_invPart h rfl
  · rw [he]
    exact { h with stsBound := Nat.zero_le _, stsLostEmpty := fun _ => rfl, lostFlag := fun _ => rfl }
  · rw [he]
    exact { h with stsBound := hroom, stsLostEmpty := fun hl' => by simp_all }

/-- The rest of a stack is within the depth the stack is within. -/
theorem length_rest_le {α : Type} {l rest : List α} {x : α} {n : Nat} (hs : l = x :: rest) (h : l.length ≤ n) :
    rest.length ≤ n := by
  subst hs
  exact Nat.le_of_succ_le h

theorem withPcStack_keeps_inv {v : Addr} {rest : List Addr} (mark : Nat) (hl : s.pcLost = false) (hs : s.pcstk = v :: rest)
    (h : Inv s) : Inv (withPcStack rest mark s) :=
  { h with
    pcBound := length_rest_le hs h.pcBound
    pcLostEmpty := fun hl' => by simp_all [withPcStack] }

theorem withLoops_keeps_inv {lps : List LoopRec} (hl : s.lpLost = false) (hlen : lps.length ≤ s.lpstk.length) (h : Inv s) :
    Inv { s with lpstk := lps } :=
  { h with
    lpBound := Nat.le_trans hlen h.lpBound
    lpLostEmpty := fun hl' => by simp_all }

theorem withStatuses_keeps_inv {e : StatusEntry} {es : List StatusEntry} (hl : s.stsLost = false) (hs : s.stsstk = e :: es)
    (h : Inv s) : Inv { s with stsstk := es } :=
  { h with
    stsBound := length_rest_le hs h.stsBound
    stsLostEmpty := fun hl' => by simp_all }

theorem callPush_keeps_inv (n : WordCount) (d : Bool) (h : Inv s) : Inv (callPush n d s) :=
  inv_of_invPart (pcPush_keeps_inv _ h) rfl

theorem returned_keeps_inv {v : Addr} {rest : List Addr} {e : StatusEntry} {es : List StatusEntry} (hl : s.pcLost = false)
    (hs : s.pcstk = v :: rest) (hl' : s.stsLost = false) (hs' : s.stsstk = e :: es) (h : Inv s) :
    Inv (returned rest e es s) :=
  have hpc : Inv (withPcStack rest s.cfg.pcLowWater s) := withPcStack_keeps_inv _ hl hs h
  { withStatuses_keeps_inv (s := withPcStack rest s.cfg.pcLowWater s) hl' hs' hpc with nesting := h.nesting.tail }

/-! ### Sequencing -/

/-- In sequence from outside a delay slot there is no delayed branch to come, and no loop stack grows. -/
theorem seqNext_outside_slot {n : WordCount} (hdb : s.db = none) (h : seqNext n s = .next t) :
    s.lpLost = false ∧ ∃ pc lpstk w, t = { s with pc := pc, lpstk := lpstk, sstatLag := w } ∧ lpstk.length ≤ s.lpstk.length := by
  simp only [seqNext, hdb] at h
  split at h
  · cases h
  · rename_i hl
    refine ⟨by simpa using hl, ?_⟩
    split at h
    · cases h
      exact ⟨_, s.lpstk, s.sstatLag, rfl, Nat.le_refl _⟩
    · rename_i top rest hlp
      split at h
      · cases h
      · split at h
        · cases h
          unfold loopEnd
          split
          · exact ⟨_, _, s.sstatLag, rfl, by simp [hlp]⟩
          · exact ⟨_, _, _, rfl, by simp [hlp]⟩
        · cases h
          exact ⟨_, s.lpstk, s.sstatLag, rfl, Nat.le_refl _⟩

/-- In sequence from a delay slot only the slots move on. -/
theorem seqNext_in_slot {n : WordCount} (hdb : s.db.isSome = true) (h : seqNext n s = .next t) :
    ∃ pc db, t = { s with pc := pc, db := db } := by
  obtain ⟨d, hd⟩ := Option.isSome_iff_exists.mp hdb
  simp only [seqNext, hd] at h
  split at h <;> cases h <;> exact ⟨_, _, rfl⟩

theorem seqNext_keeps_inv {n : WordCount} (hi : Inv s) (h : seqNext n s = .next t) : Inv t := by
  cases hdb : s.db.isSome with
  | true =>
    obtain ⟨pc, db, rfl⟩ := seqNext_in_slot hdb h
    exact { hi with slotsRun := fun _ => hi.slotsRun hdb }
  | false =>
    obtain ⟨hl, pc, lpstk, w, rfl, hlen⟩ := seqNext_outside_slot (by simpa using hdb) h
    exact inv_of_invPart (withLoops_keeps_inv hl hlen hi) rfl

theorem goesOn_keeps_inv (hrun : s.power = .running) (hi : Inv u) (h : GoesOn s u t) : Inv t := by
  cases h with
  | inSequence n h => exact seqNext_keeps_inv hi h
  | branches delayed a _ hpower h =>
    subst h
    exact { hi with slotsRun := fun _ => hpower.trans hrun }
  | advances _ h =>
    subst h
    exact inv_of_invPart hi rfl

/-! ### Instructions -/

theorem evalCond_keeps_inv (c : Cond) (h : Inv s) : Inv (evalCond c s).2 := by
  obtain ⟨cntr, lags, he⟩ := evalCond_frame c s
  rw [he]
  exact inv_of_invPart h rfl

/-- An idle core has no delayed branch to come: no instruction that idles stands in a delay slot. -/
theorem withPower_keeps_inv (p : Power) (hdb : s.db = none) (h : Inv s) : Inv { s with power := p } :=
  { h with slotsRun := fun hd => by simp_all }

theorem work_keeps_inv {i : Instr} (hslot : s.db.isSome = true → barredInSlot i = false) (hi : Inv s) (h : Work i s u) :
    Inv u := by
  cases i with
  | doUntil imm term =>
    subst h
    exact inv_of_invPart (lpPush_keeps_inv _ hi) rfl
  | jumpRel13 c imm db =>
    subst h
    exact evalCond_keeps_inv c hi
  | callRel16 imm db =>
    subst h
    exact callPush_keeps_inv _ _ hi
  | jumpRel16 imm db =>
    subst h
    exact hi
  | lcall c a =>
    rcases h with rfl | rfl
    · exact evalCond_keeps_inv c hi
    · exact callPush_keeps_inv _ _ (evalCond_keeps_inv c hi)
  | ljump c a =>
    subst h
    exact evalCond_keeps_inv c hi
  | callInd c r db =>
    rcases h with rfl | rfl
    · exact evalCond_keeps_inv c hi
    · exact callPush_keeps_inv _ _ (evalCond_keeps_inv c hi)
  | jumpInd c r db =>
    subst h
    exact evalCond_keeps_inv c hi
  | rti c db ss =>
    rcases h with rfl | ⟨v, rest, e, es, hl, hs, hl', hs', rfl⟩
    · exact evalCond_keeps_inv c hi
    · exact inv_of_invPart (returned_keeps_inv hl hs hl' hs' (evalCond_keeps_inv c hi)) rfl
  | rts c db =>
    rcases h with rfl | ⟨v, rest, hl, hs, rfl⟩
    · exact evalCond_keeps_inv c hi
    · exact inv_of_invPart (withPcStack_keeps_inv (evalCond c s).2.cfg.pcLowWater hl hs (evalCond_keeps_inv c hi)) rfl
  | pushPc p =>
    cases p with
    | alone =>
      obtain rfl := h
      exact inv_of_invPart (pcPush_keeps_inv _ hi) rfl
    | sts =>
      obtain rfl := h
      exact inv_of_invPart (stsPush_keeps_inv _ (pcPush_keeps_inv _ hi)) rfl
    | loop =>
      obtain rfl := h
      exact inv_of_invPart (lpPush_keeps_inv _ (pcPush_keeps_inv _ hi)) rfl
  | popPc p =>
    cases p with
    | alone =>
      obtain ⟨v, rest, hl, hs, rfl⟩ := h
      exact inv_of_invPart (withPcStack_keeps_inv s.cfg.pcLowWater hl hs hi) rfl
    | sts =>
      obtain ⟨v, rest, e, es, hl, hs, hl', hs', rfl⟩ := h
      have hpc : Inv (withPcStack rest s.cfg.pcLowWater s) := withPcStack_keeps_inv _ hl hs hi
      exact inv_of_invPart (withStatuses_keeps_inv (s := withPcStack rest s.cfg.pcLowWater s) hl' hs' hpc) rfl
    | loop =>
      obtain ⟨v, rest, r, rs, hl, hs, hl', hs', rfl⟩ := h
      have hpc : Inv (withPcStack rest s.cfg.pcLowWater s) := withPcStack_keeps_inv _ hl hs hi
      exact inv_of_invPart
        (withLoops_keeps_inv (s := withPcStack rest s.cfg.pcLowWater s) hl' (by simp [withPcStack, hs']) hpc) rfl
  | pushLoop sts =>
    cases sts with
    | false =>
      obtain rfl := h
      exact inv_of_invPart (lpPush_keeps_inv _ hi) rfl
    | true =>
      obtain rfl := h
      exact inv_of_invPart (stsPush_keeps_inv _ (lpPush_keeps_inv _ hi)) rfl
  | popLoop sts =>
    cases sts with
    | false =>
      obtain ⟨r, rs, hl, hs, rfl⟩ := h
      exact inv_of_invPart (withLoops_keeps_inv (lps := rs) hl (by simp [hs]) hi) rfl
    | true =>
      obtain ⟨r, rs, e, es, hl, hs, hl', hs', rfl⟩ := h
      have hlp : Inv { s with lpstk := rs } := withLoops_keeps_inv hl (by simp [hs]) hi
      exact inv_of_invPart (withStatuses_keeps_inv (s := { s with lpstk := rs }) hl' hs' hlp) rfl
  | pushSts =>
    subst h
    exact inv_of_invPart (stsPush_keeps_inv _ hi) rfl
  | popSts =>
    obtain ⟨e, es, hl, hs, rfl⟩ := h
    exact inv_of_invPart (withStatuses_keeps_inv hl hs hi) rfl
  | idle =>
    subst h
    exact withPower_keeps_inv _ (by simpa [barredInSlot] using hslot) hi
  | idleDiv d =>
    subst h
    exact withPower_keeps_inv _ (by simpa [barredInSlot] using hslot) hi
  | flushCache =>
    subst h
    exact inv_of_invPart hi rfl
  | setint n =>
    subst h
    exact inv_of_invPart hi rfl
  | clrint n =>
    subst h
    exact inv_of_invPart hi rfl
  | nop =>
    subst h
    exact hi
  | ena m =>
    subst h
    exact inv_of_invPart hi (by simp [invPart])
  | dis m =>
    subst h
    exact inv_of_invPart hi (by simp [invPart])

/-- An instruction that is admitted where it stands keeps the invariant. -/
theorem exec_keeps_inv {i : Instr} (hrun : s.power = .running) (hslot : s.db.isSome = true → barredInSlot i = false)
    (hi : Inv s) (h : exec i s = .next t) : Inv t := by
  obtain ⟨u, hwork, hgo⟩ := exec_work h
  exact goesOn_keeps_inv hrun (work_keeps_inv hslot hi hwork) hgo

/-! ### The program text -/

theorem beginInstr_keeps_inv (hi : Inv s) : Inv (beginInstr s) := inv_of_invPart hi rfl

theorem noteText_keeps_inv (f : Fetched) (hi : Inv s) : Inv (noteText f s) := by
  have hslot := hi.slotSitesOnce.filter (· ≠ s.pc)
  have hpop := hi.popSitesOnce.filter (· ≠ s.pc)
  have hloop : ((s.loopSites.filter (fun l => l.site ≠ s.pc)).map LoopSite.site).Nodup :=
    hi.loopSitesOnce.sublist (List.filter_sublist.map _)
  cases f with
  | other n => exact { hi with slotSitesOnce := hslot, loopSitesOnce := hloop, popSitesOnce := hpop }
  | core i =>
    refine { hi with slotSitesOnce := ?_, loopSitesOnce := ?_, popSitesOnce := ?_ }
    · rw [noteText_core_slotSites]
      split
      · exact List.nodup_cons.2 ⟨by simp, hslot⟩
      · exact hslot
    · rw [noteText_core_loopSites]
      cases i with
      | doUntil imm term => exact List.nodup_cons.2 ⟨by simp, hloop⟩
      | _ => exact hloop
    · rw [noteText_core_popSites]
      split
      · exact List.nodup_cons.2 ⟨by simp, hpop⟩
      · exact hpop

theorem storeText_keeps_inv (a : Addr) (w : PWord) (hi : Inv s) : Inv (storeText a w s) :=
  { hi with
    memory := Memory.wf_writeWord _ a w hi.memory
    slotSitesOnce := hi.slotSitesOnce.filter _
    loopSitesOnce := hi.loopSitesOnce.sublist (List.filter_sublist.map _)
    popSitesOnce := hi.popSitesOnce.filter _ }

/-! ### Instructions of other chapters -/

theorem onDag_invPart (f : DagRegs → DagRegs) (s : State) : invPart (onDag f s) = invPart s := by
  unfold onDag
  split <;> rfl

theorem onData_invPart (f : DataRegs → DataRegs) (s : State) : invPart (onData f s) = invPart s := by
  unfold onData
  split <;> rfl

theorem loadIcntl_invPart (v : Reg16) (s : State) : invPart (loadIcntl v s) = invPart s := by
  unfold loadIcntl
  dsimp only
  split <;> rfl

theorem writeReg_invPart (r : MoveReg) (v : Reg16) (s : State) : invPart (writeReg r v s) = invPart s := by
  cases r with
  | i n => exact onDag_invPart _ s
  | m n => exact onDag_invPart _ s
  | l n => exact onDag_invPart _ s
  | icntl => exact loadIcntl_invPart v s
  | ax0 | ax1 | ay0 | ay1 | ar | af | mx0 | my0 | si | se | mr0 | mr1 | sr0 => exact onData_invPart _ s
  | _ => rfl

theorem afterRead_invPart (r : MoveReg) (s : State) : invPart (afterRead r s) = invPart s := by
  unfold afterRead
  split
  · split <;> rfl
  · rfl

theorem applyEffect_keeps_inv (e : OtherEffect) (hi : Inv s) : Inv (applyEffect e s) := by
  cases e with
  | load r v => exact inv_of_invPart hi (writeReg_invPart r v s)
  | move dst src => exact inv_of_invPart hi ((afterRead_invPart src _).trans (writeReg_invPart dst _ s))
  | loadMr v => exact inv_of_invPart hi (onData_invPart _ s)
  | loadSr v => exact inv_of_invPart hi (onData_invPart _ s)
  | storeWord a w => exact inv_of_invPart (storeText_keeps_inv a w hi) rfl
  | sleepBits armed => exact inv_of_invPart hi rfl

theorem applyEffects_keeps_inv (es : List OtherEffect) (hi : Inv s) : Inv (applyEffects es s) := by
  induction es generalizing s with
  | nil => exact hi
  | cons e es ih => exact ih (applyEffect_keeps_inv e hi)

theorem runOther_keeps_inv {n : WordCount} (hi : Inv s) (h : runOther n s = .next t) : Inv t := by
  unfold runOther at h
  split at h
  · cases h
  · rename_i es rest _
    split at h
    · cases h
    · have hrest : Inv { s with others := rest } := inv_of_invPart hi rfl
      exact seqNext_keeps_inv (applyEffects_keeps_inv es hrest) h

/-! ### Interrupts -/

/-- An accepted interrupt has a higher priority than every one in service (R257). -/
theorem accepted_above_insvc {n : BitVec 4} (hi : Inv s) (h : accepted s = some n) : ∀ k ∈ s.insvc, n < k := by
  unfold accepted at h
  split at h
  · cases h
  · have hserv := List.find?_some h
    cases hs : s.insvc with
    | nil => simp
    | cons m ms =>
      have hm : n < m := by
        simp only [serviceable, hs, Bool.and_eq_true, decide_eq_true_eq] at hserv
        exact hserv.2.2
      have hms : ∀ k ∈ ms, m < k := (List.pairwise_cons.1 (hs ▸ hi.nesting)).1
      simp only [List.mem_cons, forall_eq_or_imp]
      exact ⟨hm, fun k hk => BitVec.lt_trans hm (hms k hk)⟩

theorem enterInterrupt_keeps_inv {n : BitVec 4} (hi : Inv s) (h : accepted s = some n) : Inv (enterInterrupt n s) := by
  have hrun : Inv { beginStep s with power := .running } := { hi with slotsRun := fun _ => rfl }
  have hpushed : Inv (stsPush { astat := s.astat, mstat := s.mstat } (pcPush s.pc { beginStep s with power := .running })) :=
    stsPush_keeps_inv _ (pcPush_keeps_inv _ hrun)
  exact { hpushed with nesting := List.pairwise_cons.2 ⟨accepted_above_insvc hi h, hi.nesting⟩ }

theorem takeEvent_invPart (e : EnvEvent) (s : State) : invPart (takeEvent e s) = invPart s := by
  unfold takeEvent
  split <;> split <;> rfl

theorem takeEvents_keeps_inv (hi : Inv s) : Inv (takeEvents s) := by
  have hlist : ∀ (es : List EnvEvent) (s : State), Inv s → Inv (takeEventList es s) := by
    intro es
    induction es with
    | nil => exact fun _ h => h
    | cons e es ih => exact fun s h => ih _ (inv_of_invPart h (takeEvent_invPart e s))
  unfold takeEvents
  split
  · exact hi
  · exact hlist _ _ (inv_of_invPart hi rfl)

/-! ### The step -/

theorem admission_none_in_slot {i : Instr} (h : admission i s = none) (hdb : s.db.isSome = true) : barredInSlot i = false := by
  unfold admission at h
  split at h
  · cases h
  · split at h
    · cases h
    · rename_i hb
      simpa [inSlot, hdb] using hb

theorem runInstr_keeps_inv (hrun : s.power = .running) (hi : Inv s) (h : runInstr s = .next t) : Inv t := by
  unfold runInstr at h
  split at h
  · cases h
  · exact runOther_keeps_inv (beginInstr_keeps_inv (noteText_keeps_inv _ hi)) h
  · rename_i i _
    split at h
    · cases h
    · rename_i hadm
      refine exec_keeps_inv (by simpa using hrun) (fun hdb => ?_) (beginInstr_keeps_inv (noteText_keeps_inv (.core i) hi)) h
      exact admission_none_in_slot hadm (by simpa using hdb)

/-- A boundary of a core that is not asleep: an accepted interrupt is entered, else `rest` decides. -/
theorem boundary_keeps_inv {rest : Result} (hi : Inv s) (hrest : rest = .next t → Inv t)
    (h : (match accepted s with | some n => .next (enterInterrupt n s) | none => rest) = Host.Outcome.next t) : Inv t := by
  cases ha : accepted s with
  | some n =>
    simp only [ha] at h
    cases h
    exact enterInterrupt_keeps_inv hi ha
  | none =>
    simp only [ha] at h
    exact hrest h

theorem coreStep_keeps_inv (hi : Inv s) (h : coreStep s = .next t) : Inv t := by
  have hidle : Host.Outcome.next (beginStep s) = (.next t : Result) → Inv t := by
    intro he
    cases he
    exact inv_of_invPart hi rfl
  unfold coreStep at h
  split at h
  · cases h
  · rename_i hrun
    exact boundary_keeps_inv hi (runInstr_keeps_inv hrun hi) h
  · exact boundary_keeps_inv hi hidle h
  · exact boundary_keeps_inv hi hidle h

/-! ### Reset -/

theorem reset_inv : Inv State.reset where
  memory := rfl
  pcBound := Nat.zero_le _
  lpBound := Nat.zero_le _
  stsBound := Nat.zero_le _
  pcLostEmpty := fun _ => rfl
  lpLostEmpty := fun _ => rfl
  stsLostEmpty := fun _ => rfl
  lostFlag := by simp [State.reset]
  nesting := List.Pairwise.nil
  slotsRun := fun _ => rfl
  slotSitesOnce := List.nodup_nil
  loopSitesOnce := List.nodup_nil
  popSitesOnce := List.nodup_nil

/-- The water marks of the reset state meet the constraint of N21, whatever their seeds. -/
theorem dsp_wf : Config.dsp.wf = true := by
  have hlow : Config.pcLowWater ≤ 31 := by
    unfold Config.pcLowWater
    omega
  have hlow' : 0 < Config.pcLowWater := by
    unfold Config.pcLowWater
    omega
  have hseed : Config.highWaterSeed % (32 - Config.pcLowWater) < 32 - Config.pcLowWater := Nat.mod_lt _ (by omega)
  refine Bool.and_eq_true_iff.2 ⟨Bool.and_eq_true_iff.2 ⟨decide_eq_true hlow', decide_eq_true ?_⟩, decide_eq_true ?_⟩
  · show Config.pcLowWater < Config.pcLowWater + 1 + Config.highWaterSeed % (32 - Config.pcLowWater)
    omega
  · show Config.pcLowWater + 1 + Config.highWaterSeed % (32 - Config.pcLowWater) < 33
    omega

/-! ### The obligations -/

/-- Settles O57: after the environment's move, by the cases of the boundary (`coreStep_keeps_inv`). -/
theorem stepKeepsInv : Obligations.StepKeepsInv := fun _ _ hi h => coreStep_keeps_inv (takeEvents_keeps_inv hi) h

/-- Settles O56. -/
theorem resetState : Obligations.ResetState := ⟨rfl, reset_inv, dsp_wf⟩

/-- Settles O46: what is in service is strictly rising, so no number of the sixteen occurs twice. -/
theorem nestingBound : Obligations.NestingBound := by
  intro s hi
  have hnodup : s.insvc.Nodup := hi.nesting.imp fun {a b} hab => by
    rintro rfl
    exact absurd hab (BitVec.lt_irrefl a)
  calc s.insvc.length ≤ Fintype.card (BitVec 4) := hnodup.length_le_card
    _ = 16 := rfl

end Sys2Proof.Machine
end

section
/-! Frames (`10_state.md` R23 to R49, `20_memory.md` R84): what no instruction writes, and which instructions write the registers of
the sequencer. Both follow from `exec_work`. -/

namespace Sys2Proof.Machine

open Sys2Proof.Safety

variable {s t u : State}

/-! ### What no instruction writes -/

/-- The part of the state that no instruction of the set writes. -/
def untouched (s : State) :=
  (s.mem, s.dagPri, s.dagSec, s.dataPri, s.dataSec, s.ijpg, s.iopg, s.ccode, s.imask, s.cfg, s.sleepArmed, s.events, s.others,
    s.tick, s.text, s.slotSites, s.loopSites, s.popSites)

@[simp] theorem pcPush_untouched (v : Addr) : untouched (pcPush v s) = untouched s := by simp [untouched]

@[simp] theorem lpPush_untouched (r : LoopRec) : untouched (lpPush r s) = untouched s := by simp [untouched]

@[simp] theorem stsPush_untouched (e : StatusEntry) : untouched (stsPush e s) = untouched s := by simp [untouched]

@[simp] theorem callPush_untouched (n : WordCount) (d : Bool) : untouched (callPush n d s) = untouched s :=
  pcPush_untouched (s := s) _

@[simp] theorem lagImplicit_untouched (old : Reg16) : untouched (lagImplicit old s) = untouched s := rfl

@[simp] theorem withPcStack_untouched (stk : List Addr) (mark : Nat) : untouched (withPcStack stk mark s) = untouched s := rfl

@[simp] theorem returned_untouched (rest : List Addr) (e : StatusEntry) (es : List StatusEntry) :
    untouched (returned rest e es s) = untouched s := rfl

@[simp] theorem setModes_untouched (m : ModeSet) (v : Bool) : untouched (setModes m v s) = untouched s := by simp [untouched]

@[simp] theorem evalCond_untouched (c : Cond) (s : State) : untouched (evalCond c s).2 = untouched s := by
  obtain ⟨cntr, lags, h⟩ := evalCond_frame c s
  rw [h]
  rfl

theorem work_untouched {i : Instr} (h : Work i s u) : untouched u = untouched s := by
  cases i with
  | doUntil imm term =>
    subst h
    exact lpPush_untouched _
  | jumpRel13 c imm db =>
    subst h
    exact evalCond_untouched c s
  | callRel16 imm db =>
    subst h
    exact callPush_untouched _ _
  | lcall c a =>
    rcases h with rfl | rfl <;> simp
  | ljump c a =>
    subst h
    exact evalCond_untouched c s
  | callInd c r db =>
    rcases h with rfl | rfl <;> simp
  | jumpInd c r db =>
    subst h
    exact evalCond_untouched c s
  | rti c db ss =>
    rcases h with rfl | ⟨v, rest, e, es, -, -, -, -, rfl⟩
    · exact evalCond_untouched c s
    · simp
  | rts c db =>
    rcases h with rfl | ⟨v, rest, -, -, rfl⟩
    · exact evalCond_untouched c s
    · simp
  | pushPc p =>
    cases p with
    | alone =>
      obtain rfl := h
      exact pcPush_untouched _
    | sts =>
      obtain rfl := h
      exact (stsPush_untouched _).trans (pcPush_untouched _)
    | loop =>
      obtain rfl := h
      exact (lpPush_untouched _).trans (pcPush_untouched _)
  | popPc p =>
    cases p with
    | alone =>
      obtain ⟨v, rest, -, -, rfl⟩ := h
      simp [untouched, withPcStack]
    | sts =>
      obtain ⟨v, rest, e, es, -, -, -, -, rfl⟩ := h
      simp [untouched, withPcStack]
    | loop =>
      obtain ⟨v, rest, r, rs, -, -, -, -, rfl⟩ := h
      simp [untouched, withPcStack]
  | pushLoop sts =>
    cases sts with
    | false =>
      obtain rfl := h
      exact lpPush_untouched _
    | true =>
      obtain rfl := h
      exact (stsPush_untouched _).trans (lpPush_untouched _)
  | popLoop sts =>
    cases sts with
    | false =>
      obtain ⟨r, rs, -, -, rfl⟩ := h
      simp [untouched]
    | true =>
      obtain ⟨r, rs, e, es, -, -, -, -, rfl⟩ := h
      simp [untouched]
  | pushSts =>
    subst h
    exact stsPush_untouched _
  | popSts =>
    obtain ⟨e, es, -, -, rfl⟩ := h
    simp [untouched]
  | ena m =>
    subst h
    exact setModes_untouched m true
  | dis m =>
    subst h
    exact setModes_untouched m false
  | jumpRel16 | flushCache | setint | clrint | nop | idle | idleDiv =>
    subst h
    simp [untouched]

theorem exec_untouched {i : Instr} (h : exec i s = .next t) : untouched t = untouched s := by
  obtain ⟨u, hwork, hgo⟩ := exec_work h
  obtain ⟨pc, lpstk, db, w, rfl⟩ := hgo.frame
  exact show untouched u = _ from work_untouched hwork

/-- Settles O54: the part of the state `untouched` is the list of the statement. -/
theorem instructionFrame : Obligations.InstructionFrame := by
  intro i s t h
  have he := exec_untouched h
  simp only [untouched, Prod.mk.injEq] at he
  obtain ⟨hmem, hrest⟩ := he
  exact ⟨fun k => by rw [hmem], hmem, hrest⟩

/-! ### The registers of the sequencer -/

/-- Only `NOT CE` writes the counter (R124). -/
theorem evalCond_cntr {c : Cond} (h : (evalCond c s).2.cntr ≠ s.cntr) : c = .notCe := by
  cases c with
  | notCe => rfl
  | _ => exact absurd rfl h

/-- Settles O55: by the work of each instruction; the rest of its step writes none of these registers (`GoesOn.frame`). -/
theorem registerWriters : Obligations.RegisterWriters := by
  intro i s t h
  obtain ⟨u, hwork, hgo⟩ := exec_work h
  obtain ⟨pc, lpstk, db, w, rfl⟩ := hgo.frame
  clear hgo h
  cases i with
  | doUntil imm term =>
    subst hwork
    simp
  | jumpRel13 c imm db =>
    subst hwork
    simpa using evalCond_cntr
  | callRel16 imm db =>
    subst hwork
    simp [callPush]
  | jumpRel16 imm db =>
    subst hwork
    simp
  | lcall c a =>
    rcases hwork with rfl | rfl
    · simpa using evalCond_cntr
    · simpa [callPush] using evalCond_cntr
  | ljump c a =>
    subst hwork
    simpa using evalCond_cntr
  | callInd c r db =>
    rcases hwork with rfl | rfl
    · simpa using evalCond_cntr
    · simpa [callPush] using evalCond_cntr
  | jumpInd c r db =>
    subst hwork
    simpa using evalCond_cntr
  | rti c db ss =>
    rcases hwork with rfl | ⟨v, rest, e, es, -, -, -, -, rfl⟩
    · simpa using evalCond_cntr
    · simpa [returned, withPcStack] using evalCond_cntr
  | rts c db =>
    rcases hwork with rfl | ⟨v, rest, -, -, rfl⟩
    · simpa using evalCond_cntr
    · simpa [withPcStack] using evalCond_cntr
  | pushPc p =>
    cases p with
    | alone =>
      obtain rfl := hwork
      simp
    | sts =>
      obtain rfl := hwork
      simp
    | loop =>
      obtain rfl := hwork
      simp
  | popPc p =>
    cases p with
    | alone =>
      obtain ⟨v, rest, -, -, rfl⟩ := hwork
      simp [withPcStack]
    | sts =>
      obtain ⟨v, rest, e, es, -, -, -, -, rfl⟩ := hwork
      simp [withPcStack]
    | loop =>
      obtain ⟨v, rest, r, rs, -, -, -, -, rfl⟩ := hwork
      simp [withPcStack]
  | pushLoop sts =>
    cases sts with
    | false =>
      obtain rfl := hwork
      simp
    | true =>
      obtain rfl := hwork
      simp
  | popLoop sts =>
    cases sts with
    | false =>
      obtain ⟨r, rs, -, -, rfl⟩ := hwork
      simp
    | true =>
      obtain ⟨r, rs, e, es, -, -, -, -, rfl⟩ := hwork
      simp
  | popSts =>
    obtain ⟨e, es, -, -, rfl⟩ := hwork
    simp
  | pushSts | flushCache | setint | clrint | nop | idle | idleDiv | ena | dis =>
    subst hwork
    simp

end Sys2Proof.Machine
end

section
/-! Effect-latency windows (`70_reset_and_hazards.md` R300 to R305): what a reader sees some instructions after a write. -/

namespace Sys2Proof.Machine

open Sys2Proof.Safety

variable {s t : State}

/-! ### Aging -/

/-- Some instructions later the state differs in its windows, in the stale part of the cache and in the draws. -/
theorem beginInstr_iterate (k : Nat) (s : State) :
    beginInstr^[k] s =
      { s with
        lags := agedLags^[k] s.lags
        sstatLag := agedSstat^[k] s.sstatLag
        icache := agedCache^[k] s.icache
        tick := s.tick + k } := by
  induction k generalizing s with
  | zero => rfl
  | succ k ih =>
    rw [Function.iterate_succ_apply, ih]
    simp [beginInstr, Nat.add_assoc, Nat.add_comm 1 k]

@[simp] theorem beginInstr_iterate_mstat (k : Nat) (s : State) : (beginInstr^[k] s).mstat = s.mstat := by
  rw [beginInstr_iterate]

/-- The older values of a register that its reader may still see `k` instructions later, the latest write's first. -/
def oldsAfter (r : LagReg) (k : Nat) (s : State) : List Reg16 :=
  (s.lags.filter (fun g => g.reg = r ∧ k ≤ g.left)).map Lag.old

theorem oldsOf_eq_oldsAfter (r : LagReg) (s : State) : oldsOf r s = oldsAfter r 0 s := by simp [oldsOf, oldsAfter]

theorem oldsAfter_beginInstr (r : LagReg) (k : Nat) (s : State) : oldsAfter r k (beginInstr s) = oldsAfter r (k + 1) s := by
  simp only [oldsAfter, beginInstr_lags]
  induction s.lags with
  | nil => rfl
  | cons g gs ih =>
    by_cases hleft : g.left = 0
    · simp_all [agedLags]
    · have hiff : k ≤ g.left - 1 ↔ k + 1 ≤ g.left := by omega
      by_cases hopen : g.reg = r ∧ k + 1 ≤ g.left <;> simp_all [agedLags]

/-- What a reader sees some instructions later is what stays open that long. -/
theorem oldsOf_beginInstr_iterate (r : LagReg) (k : Nat) (s : State) : oldsOf r (beginInstr^[k] s) = oldsAfter r k s := by
  have hiter : ∀ j, oldsAfter r j (beginInstr^[k] s) = oldsAfter r (j + k) s := by
    induction k with
    | zero => exact fun _ => rfl
    | succ k ih =>
      intro j
      rw [Function.iterate_succ_apply', oldsAfter_beginInstr, ih, Nat.add_right_comm, Nat.add_assoc]
  rw [oldsOf_eq_oldsAfter, hiter, Nat.zero_add]

theorem oldsOf_beginInstr (r : LagReg) (s : State) : oldsOf r (beginInstr s) = oldsAfter r 1 s :=
  oldsOf_beginInstr_iterate r 1 s

theorem oldsAfter_openLag (r r' : LagReg) (old : Reg16) (left k : Nat) (s : State) :
    oldsAfter r k (openLag r' old left s) = if r' = r ∧ k ≤ left then old :: oldsAfter r k s else oldsAfter r k s := by
  by_cases h : r' = r ∧ k ≤ left
  · simp [oldsAfter, h]
  · simp [oldsAfter, h]

/-- A window that is not open now does not open by itself. -/
theorem oldsAfter_of_noWindow {r : LagReg} (h : NoWindow r s) (k : Nat) : oldsAfter r k s = [] := by
  have hnone : ∀ g ∈ s.lags, g.reg ≠ r := by simpa [NoWindow, oldsOf] using h
  simp only [oldsAfter, List.map_eq_nil_iff, List.filter_eq_nil_iff, decide_eq_true_eq, not_and]
  exact fun g hg hr => absurd hr (hnone g hg)

theorem noWindow_iterate {r : LagReg} (h : NoWindow r s) (k : Nat) : NoWindow r (beginInstr^[k] s) := by
  rw [NoWindow, oldsOf_beginInstr_iterate, oldsAfter_of_noWindow h]

/-- A window of one register is none of another. -/
theorem noWindow_openLag_ne {r r' : LagReg} {old : Reg16} {left : Nat} (h : r' ≠ r) :
    NoWindow r (openLag r' old left s) ↔ NoWindow r s := by
  simp [NoWindow, oldsOf, h]

/-- A window of `left` instructions is closed behind them. -/
theorem noWindow_openLag_iterate {r r' : LagReg} {old : Reg16} {left k : Nat} (h : NoWindow r s) (hk : left < k) :
    NoWindow r (beginInstr^[k] (openLag r' old left s)) := by
  rw [NoWindow, oldsOf_beginInstr_iterate, oldsAfter_openLag, if_neg (by omega), oldsAfter_of_noWindow h]

/-! ### Draws -/

@[simp] theorem drawFrom_nil {α : Type} (x : Site) (s : State) (new : α) : drawFrom x s new [] = new := rfl

/-- A draw yields the new value or one of the older ones. -/
theorem drawFrom_mem {α : Type} (x : Site) (s : State) (new : α) (olds : List α) : drawFrom x s new olds ∈ new :: olds := by
  cases olds with
  | nil => simp
  | cons old olds =>
    have hlt : (Config.free x s.tick).toNat % ((old :: olds).length + 1) < (new :: old :: olds).length :=
      Nat.mod_lt _ (Nat.succ_pos _)
    rw [drawFrom, List.getD_eq_getElem _ _ hlt]
    exact List.getElem_mem hlt

theorem drawFrom_one {α : Type} (x : Site) (s : State) (new old : α) :
    drawFrom x s new [old] = new ∨ drawFrom x s new [old] = old := by
  simpa using drawFrom_mem x s new [old]

/-! ### `CCODE` -/

/-- Settles O1: at distance 1 the window of the load is open and every older one has closed, at distance 2 the window of the load has
closed too. -/
theorem ccodeLagsByOneInstruction : Obligations.CcodeLagsByOneInstruction := by
  intro s v holder
  have holds : ∀ k, oldsAfter .ccode (k + 1) (writeReg .ccode v s) = if k = 0 then [s.ccode] else [] := by
    intro k
    have hnone : oldsAfter .ccode (k + 1) { s with ccode := v } = [] := by
      simp only [oldsAfter, List.map_eq_nil_iff, List.filter_eq_nil_iff, decide_eq_true_eq, not_and]
      intro g hg hr
      rw [holder g hg hr]
      omega
    rw [writeReg, oldsAfter_openLag, hnone]
    simp
  refine ⟨?_, fun k => ?_, fun t => ⟨rfl, rfl⟩⟩
  · simp [ccodeSeen, oldsOf_beginInstr, holds 0]
  · have hclosed : oldsOf .ccode (beginInstr^[k + 2] (writeReg .ccode v s)) = [] := by
      rw [oldsOf_beginInstr_iterate]
      exact holds (k + 1)
    rw [ccodeSeen, hclosed, beginInstr_iterate]
    rfl

/-! ### `NOT CE` -/

/-- With a counter above 0 and no window, `NOT CE` compares it with 1, decrements it and opens a window for the pushes alone. -/
theorem testCounter_of_pos (hnone : NoWindow .cntrTest s) (hpos : s.cntr ≠ 0) :
    testCounter s = (decide (1 < s.cntr), openLag .cntrPush s.cntr 2 { s with cntr := s.cntr - 1 }) := by
  have hseen : cntrTested s = s.cntr := by
    rw [cntrTested, show oldsOf .cntrTest s = [] from hnone, drawFrom_nil]
  simp only [testCounter, hseen, if_neg hpos]

/-- Settles O2. -/
theorem notCeTestsThenDecrements : Obligations.NotCeTestsThenDecrements := by
  intro s hnone hpos
  rw [evalCond, testCounter_of_pos hnone hpos]
  exact ⟨rfl, _, rfl⟩

/-- One turn of a software loop on `NOT CE`. -/
theorem notCe_turn {m : Nat} (hnone : NoWindow .cntrTest s) (hm : m + 1 < 65536) (hcntr : s.cntr = BitVec.ofNat 16 (m + 1)) :
    (evalCond .notCe (beginInstr s)).1 = decide (1 < m + 1) ∧
      (evalCond .notCe (beginInstr s)).2.cntr = BitVec.ofNat 16 m ∧
      NoWindow .cntrTest (evalCond .notCe (beginInstr s)).2 := by
  have hnone' : NoWindow .cntrTest (beginInstr s) := noWindow_iterate hnone 1
  have hpos : (beginInstr s).cntr ≠ 0 := by
    simp only [beginInstr_cntr, hcntr]
    bv_omega
  rw [evalCond, testCounter_of_pos hnone' hpos]
  refine ⟨?_, ?_, ?_⟩
  · simp only [beginInstr_cntr, hcntr]
    refine decide_eq_decide.2 ?_
    rw [BitVec.lt_def]
    simp [Nat.mod_eq_of_lt hm]
  · simp only [openLag_cntr, beginInstr_cntr, hcntr]
    apply BitVec.eq_of_toNat_eq
    simp
    omega
  · exact (noWindow_openLag_ne (by simp)).2 hnone'

/-- Settles O3: turn by turn, the counter is below its start by the turns made and the window for `NOT CE` stays closed. -/
theorem notCeLoopTurns : Obligations.NotCeLoopTurns := by
  intro s n k hnone hn hcntr hk
  have hturns : ∀ j, j < n → ((fun u => (evalCond .notCe (beginInstr u)).2)^[j] s).cntr = BitVec.ofNat 16 (n - j) ∧
      NoWindow .cntrTest ((fun u => (evalCond .notCe (beginInstr u)).2)^[j] s) := by
    intro j
    induction j with
    | zero => exact fun _ => ⟨hcntr, hnone⟩
    | succ j ih =>
      intro hj
      obtain ⟨hc, hw⟩ := ih (by omega)
      rw [Function.iterate_succ_apply']
      exact (notCe_turn (m := n - (j + 1)) hw (by omega) (by rw [hc]; congr 1; omega)).2
  obtain ⟨hc, hw⟩ := hturns k hk
  refine ⟨hc, ?_⟩
  rw [(notCe_turn (m := n - (k + 1)) hw (by omega) (by rw [hc]; congr 1; omega)).1]
  refine decide_eq_decide.2 ?_
  omega

/-! ### Indirect targets -/

theorem mstatSeen_of_noWindow (h : NoWindow .mstat s) : mstatSeen s = s.mstat := by
  simp [mstatSeen, show oldsOf .mstat s = [] from h]

theorem secondaryDag_of_noWindow (h : NoWindow .mstat s) : secondaryDag s = s.mstat.getLsbD 6 := by
  rw [secondaryDag, mstatSeen_of_noWindow h]

theorem iregOf_of_noWindow (h : NoWindow .mstat s) (n : BitVec 3) :
    iregOf s n = (if s.mstat.getLsbD 6 then s.dagSec else s.dagPri).i[n.toNat] := by
  simp only [iregOf, dagBank, secondaryDag_of_noWindow h]

/-- An indirect jump looks at no window of the registers that form its target (R304). -/
theorem indirectTarget_of_noWindow (h : NoWindow .mstat s) (n : BitVec 3) : indirectTarget s n = indirectAddress s n := by
  rw [indirectTarget, iregOf_of_noWindow h, pageAddr, indirectAddress]

/-- An indirect call draws its page and its index register among their older values (R304, U16). -/
theorem indirectCallTarget_of_noWindow (h : NoWindow .mstat s) (n : BitVec 3) :
    indirectCallTarget s n =
      (drawFrom .callIjpg s (s.ijpg.setWidth 16) (oldsOf .ijpg s)).setWidth 8 ++
        drawFrom .callIreg s ((if s.mstat.getLsbD 6 then s.dagSec else s.dagPri).i[n.toNat])
          (oldsOf (.ireg (s.mstat.getLsbD 6) n) s) := by
  rw [indirectCallTarget, iregOf_of_noWindow h, secondaryDag_of_noWindow h, pageAddr]

theorem page_setWidth (p : BitVec 8) : (p.setWidth 16).setWidth 8 = p := by
  rw [BitVec.setWidth_setWidth_of_le _ (by omega), BitVec.setWidth_eq]

/-- With no window open an indirect call goes where an indirect jump goes. -/
theorem indirectCallTarget_of_noWindows {n : BitVec 3} (h : NoWindow .mstat s) (hpage : NoWindow .ijpg s)
    (hireg : NoWindow (.ireg (s.mstat.getLsbD 6) n) s) : indirectCallTarget s n = indirectAddress s n := by
  rw [indirectCallTarget_of_noWindow h, show oldsOf .ijpg s = [] from hpage, show oldsOf (.ireg _ n) s = [] from hireg,
    drawFrom_nil, drawFrom_nil, page_setWidth, indirectAddress]

theorem indirectAddress_iterate (k : Nat) (s : State) (n : BitVec 3) :
    indirectAddress (beginInstr^[k] s) n = indirectAddress s n := by
  rw [beginInstr_iterate]
  rfl

/-- After a write that opens one window of one instruction, the jump goes to the new address at once, the call from distance 2 on. -/
theorem indirect_targets_later {q : LagReg} {old : Reg16} {n : BitVec 3} (hq : q ≠ .mstat) (h : NoWindow .mstat s)
    (hpage : NoWindow .ijpg s) (hireg : NoWindow (.ireg (s.mstat.getLsbD 6) n) s) (k : Nat) :
    indirectTarget (beginInstr^[k + 1] (openLag q old 1 s)) n = indirectAddress s n ∧
      indirectCallTarget (beginInstr^[k + 2] (openLag q old 1 s)) n = indirectAddress s n := by
  have hm : ∀ j, NoWindow .mstat (beginInstr^[j] (openLag q old 1 s)) := fun j =>
    noWindow_iterate ((noWindow_openLag_ne hq).2 h) j
  constructor
  · rw [indirectTarget_of_noWindow (hm _), indirectAddress_iterate]
    rfl
  · rw [indirectCallTarget_of_noWindows (hm _) (noWindow_openLag_iterate hpage (by omega)), indirectAddress_iterate]
    · rfl
    · rw [beginInstr_iterate_mstat]
      exact noWindow_openLag_iterate hireg (by omega)

/-- A window of one instruction holds one older value at distance 1, where no other was open. -/
theorem oldsOf_beginInstr_openLag {q : LagReg} {old : Reg16} (h : NoWindow q s) :
    oldsOf q (beginInstr (openLag q old 1 s)) = [old] := by
  rw [oldsOf_beginInstr, oldsAfter_openLag, oldsAfter_of_noWindow h]
  simp

theorem onDag_lags (f : DagRegs → DagRegs) (s : State) : (onDag f s).lags = s.lags := by
  unfold onDag
  split <;> rfl

theorem onDag_mstat (f : DagRegs → DagRegs) (s : State) : (onDag f s).mstat = s.mstat := by
  unfold onDag
  split <;> rfl

theorem onDag_ijpg (f : DagRegs → DagRegs) (s : State) : (onDag f s).ijpg = s.ijpg := by
  unfold onDag
  split <;> rfl

theorem noWindow_onDag {q : LagReg} {f : DagRegs → DagRegs} : NoWindow q (onDag f s) ↔ NoWindow q s := by
  simp [NoWindow, oldsOf, onDag_lags]

/-- A load of an index register changes the low part of the address formed with it (R142). -/
theorem indirectAddress_onDag (h : NoWindow .mstat s) (n : BitVec 3) (v : Reg16) :
    indirectAddress (onDag (fun d => { d with i := d.i.set n.toNat v }) s) n = s.ijpg ++ v := by
  have hbank := secondaryDag_of_noWindow h
  cases hb : s.mstat.getLsbD 6 <;> rw [hb] at hbank <;> simp [-BitVec.getLsbD_eq_getElem, indirectAddress, onDag, hbank, hb]

/-- Settles O16: each load opens one window of one instruction; at distance 1 an indirect call draws between the two values. -/
theorem indirectTargetAfterLoad : Obligations.IndirectTargetAfterLoad := by
  intro s r v hmstat hijpg hireg low p hp
  simp only [List.mem_cons, List.not_mem_nil, or_false] at hp
  rcases hp with rfl | rfl
  · have hnew : indirectAddress { s with ijpg := v.setWidth 8 } r = v.setWidth 8 ++ low := rfl
    dsimp only
    rw [← hnew]
    refine ⟨?_, indirect_targets_later (by simp) hmstat hijpg hireg⟩
    have hm : NoWindow .mstat (beginInstr (writeReg .ijpg v s)) := noWindow_iterate ((noWindow_openLag_ne (by simp)).2 hmstat) 1
    have hi : oldsOf (.ireg ((beginInstr (writeReg .ijpg v s)).mstat.getLsbD 6) r) (beginInstr (writeReg .ijpg v s)) = [] :=
      noWindow_iterate ((noWindow_openLag_ne (by simp)).2 hireg) 1
    have hp : oldsOf .ijpg (beginInstr (writeReg .ijpg v s)) = [s.ijpg.setWidth 16] :=
      oldsOf_beginInstr_openLag (s := { s with ijpg := v.setWidth 8 }) hijpg
    rw [indirectCallTarget_of_noWindow hm, hp, hi, drawFrom_nil]
    rcases drawFrom_one .callIjpg (beginInstr (writeReg .ijpg v s)) ((v.setWidth 8).setWidth 16) (s.ijpg.setWidth 16) with h | h
    · right
      rw [show (beginInstr (writeReg .ijpg v s)).ijpg = v.setWidth 8 from rfl, h, page_setWidth]
      rfl
    · left
      rw [show (beginInstr (writeReg .ijpg v s)).ijpg = v.setWidth 8 from rfl, h, page_setWidth]
      rfl
  · have hsec := secondaryDag_of_noWindow hmstat
    have hlow : iregOf s r = low := iregOf_of_noWindow hmstat r
    rw [writeReg, hsec, hlow]
    dsimp only
    generalize hf : (fun d : DagRegs => { d with i := d.i.set r.toNat v }) = f
    have hnew : indirectAddress (onDag f s) r = s.ijpg ++ v := by
      rw [← hf]
      exact indirectAddress_onDag hmstat r v
    have hm : NoWindow .mstat (onDag f s) := noWindow_onDag.2 hmstat
    have hp : NoWindow .ijpg (onDag f s) := noWindow_onDag.2 hijpg
    have hi : NoWindow (.ireg (s.mstat.getLsbD 6) r) (onDag f s) := noWindow_onDag.2 hireg
    rw [← hnew]
    refine ⟨?_, indirect_targets_later (by simp) hm hp (by rwa [onDag_mstat])⟩
    set q := openLag (.ireg (s.mstat.getLsbD 6) r) low 1 (onDag f s) with hq
    have hqm : (beginInstr q).mstat = s.mstat := onDag_mstat f s
    have hqp : (beginInstr q).ijpg = s.ijpg := onDag_ijpg f s
    have hmq : NoWindow .mstat (beginInstr q) := noWindow_iterate ((noWindow_openLag_ne (by simp)).2 hm) 1
    have hpq : oldsOf .ijpg (beginInstr q) = [] := noWindow_iterate ((noWindow_openLag_ne (by simp)).2 hp) 1
    have hiq : oldsOf (.ireg ((beginInstr q).mstat.getLsbD 6) r) (beginInstr q) = [low] := by
      rw [hqm]
      exact oldsOf_beginInstr_openLag hi
    rw [indirectCallTarget_of_noWindow hmq, hpq, hiq, drawFrom_nil, page_setWidth]
    rcases drawFrom_one .callIreg (beginInstr q)
      ((if (beginInstr q).mstat.getLsbD 6 then (beginInstr q).dagSec else (beginInstr q).dagPri).i[r.toNat]) low with h | h
    · right
      rw [h]
      rfl
    · left
      rw [h, hqp]

end Sys2Proof.Machine
end

section
/-! The loop hardware (`41_loops.md` R150 to R155): arming a loop, its end, and the passes through a body of `NOP`s. -/

namespace Sys2Proof.Machine

open Sys2Proof.Safety

variable {s t : State} {top : LoopRec} {rest : List LoopRec}

/-! ### `NOP` and the loop end -/

theorem exec_nop_ready (h : SeqReady s) : exec .nop s = .next (inSequence s) := seqNext_one h

theorem inSequence_away (hdb : s.db = none) (h : NotAtLoopEnd s) : inSequence s = advance .one s := by
  unfold inSequence
  rw [hdb]
  cases hlp : s.lpstk with
  | nil => rfl
  | cons top rest => exact if_neg (h top (by simp [hlp]))

theorem inSequence_at_end (hdb : s.db = none) (hlp : s.lpstk = top :: rest) (hend : top.last = s.pc) :
    inSequence s = loopEnd .one top rest s := by
  unfold inSequence
  rw [hdb, hlp]
  exact if_pos hend

theorem exec_nop_away (hdb : s.db = none) (hl : s.lpLost = false) (h : NotAtLoopEnd s) :
    exec .nop s = .next (advance .one s) := by
  rw [exec_nop_ready (.inr hl), inSequence_away hdb h]

theorem exec_nop_at_end (hdb : s.db = none) (hl : s.lpLost = false) (hlp : s.lpstk = top :: rest) (hend : top.last = s.pc) :
    exec .nop s = .next (loopEnd .one top rest s) := by
  rw [exec_nop_ready (.inr hl), inSequence_at_end hdb hlp hend]

/-- Another pass (R152): the loop is infinite or its count is not 1. -/
theorem loopEnd_again (n : WordCount) (rest : List LoopRec) (s : State)
    (h : top.forever = true ∨ top.openCount = false ∧ top.count ≠ 1) :
    loopEnd n top rest s = { s with lpstk := { top with count := top.count - 1 } :: rest, pc := top.start } := by
  refine if_pos ?_
  rcases h with hf | ⟨ho, hc⟩
  · simp [hf]
  · have hpos : top.count - 1 ≠ 0 := fun h => hc (by simpa using sub_eq_zero.mp h)
    simp only [anotherPass, ho, Bool.false_eq_true, if_false, decide_eq_true hpos, Bool.or_true]

/-- The end of a finite loop (R152). -/
theorem loopEnd_done (n : WordCount) (rest : List LoopRec) (s : State) (hf : top.forever = false) (ho : top.openCount = false)
    (hc : top.count = 1) : loopEnd n top rest s = lagImplicit (sstat s) (advance n { s with lpstk := rest }) := by
  refine if_neg ?_
  simp [hf, anotherPass, ho, hc]

/-! ### Arming a loop -/

/-- With no window of `CNTR` the counter pushed is `CNTR` (R150). -/
theorem cntrPushed_of_noWindow (h : NoWindow .cntrPush s) : cntrPushed s = s.cntr := by
  rw [cntrPushed, show oldsOf .cntrPush s = [] from h, drawFrom_nil]

theorem cntrPushed_mem (s : State) : cntrPushed s ∈ s.cntr :: oldsOf .cntrPush s := drawFrom_mem _ _ _ _

/-- The state at the begin of the loop that `DO UNTIL` arms, with the count at `c`. -/
def inLoop (imm : BitVec 12) (term : Term) (w : Option SstatLag) (c : Reg16) (s : State) : State :=
  { s with pc := s.pc + 1, sstatLag := w, lpstk := { armedLoop imm term s with count := c } :: s.lpstk }

/-- `DO UNTIL` where it may stand, with room on the loop stacks. -/
theorem exec_doUntil_of_room {imm : BitVec 12} (term : Term) (himm : imm ≠ 0) (hdb : s.db = none) (hroom : LoopRoom s) :
    ∃ w, exec (.doUntil imm term) s = .next (inLoop imm term w (cntrPushed s) s) := by
  rw [exec_doUntil, execDoUntil, if_neg himm, if_neg (by simp [hdb]), if_neg (by simp [hroom.1]), lpPush_of_room _ hroom]
  exact ⟨_, rfl⟩

/-! ### Passes -/

theorem repeatExec_succ {i : Instr} (k : Nat) (h : exec i s = .next t) : repeatExec i (k + 1) s = repeatExec i k t := by
  rw [repeatExec, h]

theorem repeatExec_add {i : Instr} {m : Nat} (n : Nat) (h : repeatExec i m s = .next t) :
    repeatExec i (m + n) s = repeatExec i n t := by
  induction m generalizing s with
  | zero =>
    cases h
    rw [Nat.zero_add]
  | succ m ih =>
    cases he : exec i s with
    | next u =>
      rw [repeatExec_succ m he] at h
      rw [Nat.succ_add, repeatExec_succ _ he, ih h]
    | fault f => simp [repeatExec, he] at h
    | refused r => simp [repeatExec, he] at h

/-- `NOP`s away from the end of the active loop go on in sequence. -/
theorem repeatExec_nop_away {m : Nat} (hdb : s.db = none) (hl : s.lpLost = false) (hlp : s.lpstk = top :: rest)
    (haway : ∀ j, j < m → s.pc + BitVec.ofNat 24 j ≠ top.last) :
    repeatExec .nop m s = .next { s with pc := s.pc + BitVec.ofNat 24 m } := by
  induction m generalizing s with
  | zero => simp [repeatExec]
  | succ m ih =>
    have hne : NotAtLoopEnd s := by
      intro r hr
      obtain rfl : top = r := by simpa [hlp] using hr
      simpa using (haway 0 (Nat.succ_pos m)).symm
    have hstep : ∀ j, s.pc + 1 + BitVec.ofNat 24 j = s.pc + BitVec.ofNat 24 (j + 1) := by
      intro j
      rw [BitVec.add_assoc, ← BitVec.ofNat_add_ofNat, BitVec.add_comm 1]
      rfl
    rw [repeatExec_succ m (exec_nop_away hdb hl hne), ih (s := advance .one s) hdb hl hlp fun j hj => by
      rw [advance_pc, wordsOf, hstep]
      exact haway (j + 1) (by omega)]
    rw [advance_pc, wordsOf, hstep]
    rfl

/-- One pass through a body of `NOP`s: from the loop begin to the loop-end action at the loop end. -/
theorem repeatExec_nop_pass {a : Addr} {imm : BitVec 12} (himm : imm ≠ 0) (hdb : s.db = none) (hl : s.lpLost = false)
    (hlp : s.lpstk = top :: rest) (hpc : s.pc = a + 1) (hlast : top.last = a + imm.setWidth 24) :
    repeatExec .nop imm.toNat s = .next (loopEnd .one top rest { s with pc := top.last }) := by
  have hpos : 0 < imm.toNat := by bv_omega
  have haway : ∀ j, j < imm.toNat - 1 → s.pc + BitVec.ofNat 24 j ≠ top.last := by
    intro j hj
    rw [hpc, hlast]
    have := imm.isLt
    bv_omega
  have hend : s.pc + BitVec.ofNat 24 (imm.toNat - 1) = top.last := by
    rw [hpc, hlast]
    have := imm.isLt
    bv_omega
  have hwalk := repeatExec_nop_away hdb hl hlp haway
  rw [hend] at hwalk
  have hnop : exec .nop { s with pc := top.last } = .next (loopEnd .one top rest { s with pc := top.last }) :=
    exec_nop_at_end hdb hl hlp rfl
  rw [show imm.toNat = imm.toNat - 1 + 1 by omega, repeatExec_add 1 hwalk, repeatExec_succ 0 hnop, repeatExec]

/-- Passes through a loop that goes on: the count runs down, nothing else changes. -/
theorem repeatExec_nop_passes {a : Addr} {imm : BitVec 12} {k : Nat} (himm : imm ≠ 0) (hdb : s.db = none) (hl : s.lpLost = false)
    (hlp : s.lpstk = top :: rest) (hpc : s.pc = a + 1) (hstart : top.start = a + 1) (hlast : top.last = a + imm.setWidth 24)
    (hagain : ∀ j, j < k → top.forever = true ∨ top.openCount = false ∧ top.count - BitVec.ofNat 16 j ≠ 1) :
    repeatExec .nop (imm.toNat * k) s =
      .next { s with lpstk := { top with count := top.count - BitVec.ofNat 16 k } :: rest } := by
  induction k with
  | zero =>
    rw [Nat.mul_zero, repeatExec]
    simp [← hlp]
  | succ k ih =>
    rw [Nat.mul_succ, repeatExec_add _ (ih fun j hj => hagain j (by omega)),
      repeatExec_nop_pass (s := { s with lpstk := { top with count := top.count - BitVec.ofNat 16 k } :: rest }) himm hdb hl rfl
        hpc hlast,
      loopEnd_again _ _ _ (hagain k (by omega))]
    have hcount : top.count - BitVec.ofNat 16 k - 1 = top.count - BitVec.ofNat 16 (k + 1) := by
      rw [← BitVec.ofNat_add_ofNat, BitVec.sub_sub]
      rfl
    simp only [hcount, hstart, ← hpc]

/-! ### The obligations -/

/-- Settles O4. -/
theorem doUntilArmsLoop : Obligations.DoUntilArmsLoop := by
  intro s imm term himm hdb hroom
  obtain ⟨w, h⟩ := exec_doUntil_of_room term himm hdb hroom
  exact ⟨w, cntrPushed s, cntrPushed_mem s, h⟩

/-- Settles O5. -/
theorem loopEndAction : Obligations.LoopEndAction := by
  intro s top rest hdb hl hlp hend hopen
  rw [exec_nop_at_end hdb hl hlp hend]
  constructor
  · intro h
    rw [loopEnd_again _ _ _ (h.imp_right fun hc => ⟨hopen, hc⟩)]
  · intro hf hc
    rw [loopEnd_done _ _ _ hf hopen hc]
    exact ⟨_, rfl⟩

/-- Settles O8. -/
theorem onlyTopLoopEnds : Obligations.OnlyTopLoopEnds := by
  intro s hdb hl hnot
  exact exec_nop_away hdb hl hnot

/-- Settles O6: by `repeatExec_nop_passes` up to the last pass, which ends the loop. -/
theorem countedLoopPasses : Obligations.CountedLoopPasses := by
  intro s imm n himm hn2 hn hcntr hdb hroom hnone
  obtain ⟨w, h⟩ := exec_doUntil_of_room .ce himm hdb hroom
  have hpushed : cntrPushed s = BitVec.ofNat 16 n := (cntrPushed_of_noWindow hnone).trans hcntr
  have hcount : (armedLoop imm .ce s).count = BitVec.ofNat 16 n := hpushed
  have hopen : (armedLoop imm .ce s).openCount = false := by
    have hle : ¬BitVec.ofNat 16 n ≤ 1 := by
      rw [BitVec.le_def]
      simp [Nat.mod_eq_of_lt hn]
      omega
    simp only [armedLoop, hpushed, decide_eq_false hle, Bool.and_false]
  have hleft : ∀ k, k ≤ n → BitVec.ofNat 16 n - BitVec.ofNat 16 k = BitVec.ofNat 16 (n - k) := by
    intro k hk
    apply BitVec.eq_of_toNat_eq
    simp
    omega
  have hagain : ∀ k, k < n → ∀ j, j < k → (armedLoop imm .ce s).forever = true ∨
      (armedLoop imm .ce s).openCount = false ∧ (armedLoop imm .ce s).count - BitVec.ofNat 16 j ≠ 1 := by
    intro k hk j hj
    refine .inr ⟨hopen, ?_⟩
    rw [hcount, hleft j (by omega)]
    intro h1
    have := congrArg BitVec.toNat h1
    simp at this
    omega
  have hpasses : ∀ k, k < n → repeatExec .nop (imm.toNat * k) (inLoop imm .ce w (cntrPushed s) s) =
      .next (inLoop imm .ce w (cntrPushed s - BitVec.ofNat 16 k) s) := fun k hk =>
    repeatExec_nop_passes (s := inLoop imm .ce w (cntrPushed s) s) himm hdb hroom.1 rfl rfl rfl rfl (hagain k hk)
  refine ⟨_, h, ?_, ?_⟩
  · intro k hk
    refine ⟨_, _, hpasses k hk, rfl, rfl, ?_⟩
    rw [← hleft k (by omega), ← hpushed]
  · have hlast : cntrPushed s - BitVec.ofNat 16 (n - 1) = 1 := by
      rw [hpushed, hleft _ (by omega), show n - (n - 1) = 1 by omega]
      rfl
    rw [show imm.toNat * n = imm.toNat * (n - 1) + imm.toNat by rw [← Nat.mul_succ]; congr 1; omega,
      repeatExec_add _ (hpasses (n - 1) (by omega)),
      repeatExec_nop_pass (s := inLoop imm .ce w (cntrPushed s - BitVec.ofNat 16 (n - 1)) s) himm hdb hroom.1 rfl rfl rfl,
      loopEnd_done (top := { armedLoop imm .ce s with count := cntrPushed s - BitVec.ofNat 16 (n - 1) }) _ _ _ rfl hopen hlast]
    exact ⟨_, rfl, rfl, rfl, rfl⟩

/-- Settles O7. -/
theorem infiniteLoopPasses : Obligations.InfiniteLoopPasses := by
  intro s imm himm hdb hroom hnone
  obtain ⟨w, h⟩ := exec_doUntil_of_room .forever himm hdb hroom
  refine ⟨_, h, fun k => ?_⟩
  have hpasses := repeatExec_nop_passes (k := k)
    (s := inLoop imm .forever w (cntrPushed s) s) himm hdb hroom.1 rfl rfl rfl rfl (fun _ _ => .inl rfl)
  exact ⟨_, _, hpasses, rfl, rfl, rfl, by rw [← cntrPushed_of_noWindow hnone]⟩

end Sys2Proof.Machine
end

section
/-! Branches and returns (`40_conditions_and_branch_options.md`, `42_jumps_and_calls.md`, `43_returns.md`; `41_loops.md` R156, R157):
where they go when they are taken, what stops them, and what a branch that is not taken does. -/

namespace Sys2Proof.Machine

open Sys2Proof.Safety

variable {s t : State} {k : BranchKind} {n : WordCount} {delayed : Bool} {a : Addr} {top : LoopRec} {rest : List LoopRec}

/-! ### What a branch looks at -/

/-- A branch or return looks at nothing in which the two states differ: its place, a pending delayed branch, the loops on the stacks
and those of the program text. -/
structure StandsAt (s t : State) : Prop where
  db : t.db = s.db
  lost : t.lpLost = s.lpLost
  pc : t.pc = s.pc
  loops : t.lpstk = s.lpstk
  text : textLoops t = textLoops s
  pops : popPlaces t = popPlaces s

theorem StandsAt.refl (s : State) : StandsAt s s := ⟨rfl, rfl, rfl, rfl, rfl, rfl⟩

theorem standsAt_evalCond (c : Cond) (s : State) : StandsAt s (evalCond c s).2 where
  db := by simp
  lost := by simp
  pc := by simp
  loops := by simp
  text := textLoops_congr (by simp) (by simp) (by simp) (by simp)
  pops := popPlaces_congr (by simp) (by simp) (by simp) (by simp)

theorem StandsAt.callPush (h : StandsAt s t) (n : WordCount) (d : Bool) : StandsAt s (callPush n d t) where
  db := by simp [h.db]
  lost := by simp [h.lost]
  pc := by simp [h.pc]
  loops := by simp [h.loops]
  text := (textLoops_congr (by simp [Machine.callPush]) (by simp [Machine.callPush]) (by simp [Machine.callPush])
    (by simp [Machine.callPush])).trans h.text
  pops := (popPlaces_congr (by simp [Machine.callPush]) (by simp [Machine.callPush]) (by simp [Machine.callPush])
    (by simp [Machine.callPush])).trans h.pops

theorem StandsAt.branchReady (h : StandsAt s t) : BranchReady k n delayed t ↔ BranchReady k n delayed s :=
  branchReady_congr h.db h.lost h.pc h.loops h.text

theorem StandsAt.insideLoop (h : StandsAt s t) : insideLoop t.pc t = insideLoop s.pc s := by
  rw [h.pc, insideLoop_congr h.loops h.text h.pops]

/-- What refuses a branch in one of the states refuses it in the other. -/
theorem StandsAt.branchTo_refused {r : Refusal} (h : StandsAt s t) (hr : branchTo k n delayed a s = .refused r) :
    branchTo k n delayed a t = .refused r := by
  obtain ⟨hdb, hl, hpc, hlp, htext, -⟩ := h
  simp only [branchTo, endsLoop, hdb, hl, hpc, hlp, htext] at hr ⊢
  cases hd : s.db with
  | some d => simpa [hd] using hr
  | none =>
    cases hs : s.lpstk with
    | nil =>
      simp only [hd, hs] at hr ⊢
      split_ifs at hr ⊢
      simp_all
    | cons top rest =>
      simp only [hd, hs] at hr ⊢
      split_ifs at hr ⊢ <;> simp_all

/-! ### What the loop hardware refuses (R156, R157) -/

theorem endsLoop_iff : endsLoop a s = true ↔ (∃ q ∈ s.lpstk, q.last = a) ∨ ∃ l ∈ textLoops s, l.last = a := by
  simp [endsLoop]

/-- No call in the last line of a loop. -/
theorem branchTo_call_at_end (hdb : s.db = none) (hl : s.lpLost = false) (hend : endsLoop s.pc s = true) :
    branchTo .call n delayed a s = .refused .branchAtLoopEnd := by
  simp [branchTo, hdb, hl, hend]

/-- No delayed branch whose word or slots are the active loop end. -/
theorem branchTo_delayed_near_end (hdb : s.db = none) (hl : s.lpLost = false) (hlp : s.lpstk = top :: rest)
    (hcall : k = .call → endsLoop s.pc s = false)
    (hnear : top.last = s.pc ∨ top.last = s.pc + 1 ∨ top.last = s.pc + 2) :
    branchTo k n true a s = .refused .delayedBranchAtLoopEnd := by
  have hc : ¬(decide (k = .call) && endsLoop s.pc s) = true := by simpa using hcall
  have hd : (true && (decide (top.last = s.pc) || decide (top.last = s.pc + 1) || decide (top.last = s.pc + 2))) = true := by
    simpa [or_assoc] using hnear
  simp only [branchTo, hdb, hl, hlp, if_neg hc]
  exact if_pos hd

/-- No long branch at the active loop end or just before it. -/
theorem branchTo_long_near_end (hdb : s.db = none) (hl : s.lpLost = false) (hlp : s.lpstk = top :: rest)
    (hcall : k = .call → endsLoop s.pc s = false) (hnear : top.last = s.pc ∨ top.last = s.pc + 1) :
    branchTo k .two false a s = .refused .twoWordAtLoopEnd := by
  have hc : ¬(decide (k = .call) && endsLoop s.pc s) = true := by simpa using hcall
  have hw : twoWordsAtEnd .two s.pc top.last = true := by simpa [twoWordsAtEnd] using hnear
  simp only [branchTo, hdb, hl, hlp, if_neg hc]
  exact if_pos hw

/-- No jump out of the end of a finite loop (D17). -/
theorem branchTo_jump_finite_end (hdb : s.db = none) (hl : s.lpLost = false) (hlp : s.lpstk = top :: rest)
    (hend : top.last = s.pc) (hfin : top.forever = false) :
    branchTo .jump .one false a s = .refused .branchAtLoopEnd := by
  simp [branchTo, hdb, hl, hlp, twoWordsAtEnd, hend, hfin]

/-! ### Returns -/

theorem returnBy_of_ok {pop : State → Except Fault (Addr × State)} {db : Bool} {v : Addr} {s1 : State}
    (hin : insideLoop s.pc s = false) (hp : pop s = .ok (v, s1)) :
    returnBy pop db s = branchTo .ret .one db v (lagImplicit (sstat s) s1) := by
  simp [returnBy, hin, hp]

theorem returnBy_of_error {pop : State → Except Fault (Addr × State)} {db : Bool} {f : Fault}
    (hin : insideLoop s.pc s = false) (hp : pop s = .error f) : returnBy pop db s = .fault f := by
  simp [returnBy, hin, hp]

theorem returnBy_inside {pop : State → Except Fault (Addr × State)} {db : Bool} (hin : insideLoop s.pc s = true) :
    returnBy pop db s = .refused .returnInsideLoop := by
  simp [returnBy, hin]

/-- The pop of a return neither allows nor forbids it. -/
theorem StandsAt.popped (h : StandsAt s t) (stk : List Addr) (mark : Nat) (old : Reg16) :
    StandsAt s (lagImplicit old (withPcStack stk mark t)) :=
  ⟨h.db, h.lost, h.pc, h.loops, h.text, h.pops⟩

theorem StandsAt.returned (h : StandsAt s t) (stk : List Addr) (e : StatusEntry) (es : List StatusEntry) (old : Reg16) :
    StandsAt s (lagImplicit old (returned stk e es t)) :=
  ⟨h.db, h.lost, h.pc, h.loops, h.text, h.pops⟩

/-! ### Conditions -/

/-- Evaluating a condition opens no window but that of the counter as it is pushed. -/
theorem noWindow_evalCond {q : LagReg} (hq : q ≠ .cntrPush) (c : Cond) : NoWindow q (evalCond c s).2 ↔ NoWindow q s := by
  cases c with
  | notCe =>
    simp only [evalCond, testCounter]
    split
    · exact noWindow_openLag_ne hq.symm
    · exact noWindow_openLag_ne hq.symm
  | _ => exact Iff.rfl

theorem indirectAddress_evalCond (c : Cond) (r : BitVec 3) : indirectAddress (evalCond c s).2 r = indirectAddress s r := by
  simp only [indirectAddress, evalCond_ijpg, evalCond_mstat, evalCond_dagPri, evalCond_dagSec]

theorem pcRoom_evalCond (c : Cond) : PcRoom (evalCond c s).2 ↔ PcRoom s := by simp [PcRoom]

/-! ### Jumps and calls that are taken -/

/-- Settles O12. -/
theorem longJumpTaken : Obligations.LongJumpTaken := by
  intro s c a htrue hready
  rw [exec_ljump, execLjump, ifCond_true htrue, branchTo_ready _ ((standsAt_evalCond c s).branchReady.2 hready)]

/-- Settles O13. -/
theorem indirectJumpTaken : Obligations.IndirectJumpTaken := by
  intro s c r db htrue hnone hready
  have hnone' : NoWindow .mstat (evalCond c s).2 := (noWindow_evalCond (by simp) c).2 hnone
  rw [exec_jumpInd, execJumpInd, ifCond_true htrue, branchTo_ready _ ((standsAt_evalCond c s).branchReady.2 hready),
    indirectTarget_of_noWindow hnone', indirectAddress_evalCond]

/-- A taken call on a PC stack that has room, from the state its condition left. -/
theorem call_taken {c : Cond} {n : WordCount} (d : Bool) (target : Addr) (hroom : PcRoom s) (hready : BranchReady .call n d s) :
    ∃ w, branchTo .call n d target (callPush n d (evalCond c s).2) = .next
      { branched d target
          (withPcStack (returnAddress s.pc n d :: s.pcstk) s.cfg.pcHighWater (evalCond c s).2) with
        sstatLag := w } := by
  obtain ⟨w, hpush⟩ := callPush_of_room n d ((pcRoom_evalCond c).2 hroom)
  rw [branchTo_ready _ (((standsAt_evalCond c s).callPush n d).branchReady.2 hready), hpush, evalCond_pc, evalCond_pcstk,
    evalCond_cfg]
  exact ⟨w, rfl⟩

/-- Settles O14. -/
theorem longCallTaken : Obligations.LongCallTaken := by
  intro s c a htrue hroom hready
  rw [exec_lcall, execLcall, ifCond_true htrue]
  exact call_taken false a hroom hready

/-- Settles O15. -/
theorem indirectCallTaken : Obligations.IndirectCallTaken := by
  intro s c r db htrue hroom hmstat hijpg hireg hready
  have hm : NoWindow .mstat (evalCond c s).2 := (noWindow_evalCond (by simp) c).2 hmstat
  have hp : NoWindow .ijpg (evalCond c s).2 := (noWindow_evalCond (by simp) c).2 hijpg
  have hi : NoWindow (.ireg ((evalCond c s).2.mstat.getLsbD 6) r) (evalCond c s).2 := by
    rw [evalCond_mstat]
    exact (noWindow_evalCond (by simp) c).2 hireg
  rw [exec_callInd, execCallInd, ifCond_true htrue, indirectCallTarget_of_noWindows hm hp hi, indirectAddress_evalCond]
  exact call_taken db _ hroom hready

/-! ### Branches that are not taken -/

/-- Settles O17. -/
theorem notTakenIsNop : Obligations.NotTakenIsNop := by
  intro s c imm r a db ss hfalse
  have hnop : ∀ taken : State → Result, ifCond c .one s taken = exec .nop (evalCond c s).2 := fun _ => ifCond_false hfalse
  have hlong : ∀ taken : State → Result, s.db = none → s.lpLost = false →
      (∀ top ∈ s.lpstk.head?, top.last ≠ s.pc ∧ top.last ≠ s.pc + 1) →
      ifCond c .two s taken = .next { (evalCond c s).2 with pc := s.pc + 2 } := by
    intro taken hdb hl haway
    rw [ifCond_false hfalse, seqNext_two (by simpa using hdb) (by simpa using hl) (by simpa using haway)]
    simp [advance, wordsOf]
  have hsite : ∀ i, isDelayedBranch i = db → (s.pc ∈ (noteText (.core i) s).slotSites ↔ db = true) := by
    intro i hi
    cases db <;> simp [hi]
  refine ⟨?_, ?_⟩
  · simp only [List.mem_cons, List.not_mem_nil, or_false]
    rintro i (rfl | rfl | rfl | rfl | rfl)
    · exact ⟨by rw [exec_jumpRel13, execJumpRel13, hnop], hsite _ rfl⟩
    · exact ⟨by rw [exec_callInd, execCallInd, hnop], hsite _ rfl⟩
    · exact ⟨by rw [exec_jumpInd, execJumpInd, hnop], hsite _ rfl⟩
    · exact ⟨by rw [exec_rti, execRti, hnop], hsite _ rfl⟩
    · exact ⟨by rw [exec_rts, execRts, hnop], hsite _ rfl⟩
  · simp only [List.mem_cons, List.not_mem_nil, or_false]
    rintro i (rfl | rfl)
    · exact hlong fun t => branchTo .call .two false a (callPush .two false t)
    · exact hlong fun t => branchTo .jump .two false a t

/-! ### Returns that are taken -/

/-- Settles O20. -/
theorem rtsTaken : Obligations.RtsTaken := by
  intro s c db v rest htrue hl hs hin hready
  have hstand := standsAt_evalCond c s
  have hpop : pcPop (.rts c db) (evalCond c s).2 = .ok (v, withPcStack rest s.cfg.pcLowWater (evalCond c s).2) := by
    rw [pcPop_of_cons _ (by simpa using hl) (by simpa using hs), evalCond_cfg]
  rw [exec_rts, execRts, ifCond_true htrue, returnBy_of_ok (hstand.insideLoop.trans hin) hpop,
    branchTo_ready _ ((hstand.popped _ _ _).branchReady.2 hready)]
  exact ⟨_, rfl⟩

/-- Settles O21. -/
theorem rtiTaken : Obligations.RtiTaken := by
  intro s c db ss v rest e es htrue hss hl hs hl' hs' hin hready
  have hstand := standsAt_evalCond c s
  have hpop : leaveInterrupt (.rti c db ss) (evalCond c s).2 = .ok (v, returned rest e es (evalCond c s).2) :=
    leaveInterrupt_of_cons _ (by simpa using hl) (by simpa using hs) (by simpa using hl') (by simpa using hs')
  have hemu : ¬(ss && (evalCond c s).2.cfg.emulation) = true := by simpa using hss
  rw [exec_rti, execRti, ifCond_true htrue, if_neg hemu, returnBy_of_ok (hstand.insideLoop.trans hin) hpop,
    branchTo_ready _ ((hstand.returned _ _ _ _).branchReady.2 hready), ← evalCond_cfg c s, ← evalCond_mstat c s,
    ← evalCond_insvc c s]
  exact ⟨_, rfl⟩

/-! ### Where a return stops -/

/-- Settles O22: no condition to evaluate, so the place decides first, then the stacks in the order of the pops. -/
theorem returnStops : Obligations.ReturnStops := by
  intro s db ss v rest
  have hrts : ∀ r, returnBy (pcPop (.rts .always db)) db s = r → exec (.rts .always db) s = r := fun _ h => h
  have hrti : ∀ r, s.cfg.emulation = false → returnBy (leaveInterrupt (.rti .always db ss)) db s = r →
      exec (.rti .always db ss) s = r := by
    intro r hemu h
    rw [exec_rti, execRti, ifCond_true rfl]
    exact (if_neg (by simp [evalCond, hemu])).trans h
  refine ⟨fun hin => ⟨fun hl hs => ?_, fun hl => ?_⟩,
    fun hin hemu => ⟨fun hl hs => ?_, fun hl => ?_, fun hl hs hl' hs' => ?_, fun hl hs hl' => ?_⟩, fun hinside => ?_, fun hemu => ?_⟩
  · exact hrts _ (returnBy_of_error hin (by simp [pcPop, hl, hs]))
  · exact hrts _ (returnBy_of_error hin (by simp [pcPop, hl]))
  · exact hrti _ hemu (returnBy_of_error hin (by simp [leaveInterrupt, pcPop, hl, hs]))
  · exact hrti _ hemu (returnBy_of_error hin (by simp [leaveInterrupt, pcPop, hl]))
  · exact hrti _ hemu (returnBy_of_error hin (by simp [leaveInterrupt, pcPop_of_cons _ hl hs, stsPop, withPcStack, hl', hs']))
  · exact hrti _ hemu (returnBy_of_error hin (by simp [leaveInterrupt, pcPop_of_cons _ hl hs, stsPop, withPcStack, hl']))
  · have hin : insideLoop s.pc s = true := insideLoop_iff.2 hinside
    exact ⟨hrts _ (returnBy_inside hin), fun hemu => hrti _ hemu (returnBy_inside hin)⟩
  · rw [exec_rti, execRti, ifCond_true rfl]
    exact if_pos (by simp [evalCond, hemu])

/-! ### Compositions -/

/-- A return may not stand at the end of the active loop. -/
theorem insideLoop_of_last {r : LoopRec} (hr : r ∈ s.lpstk) (hlast : r.last = a) : insideLoop a s = true :=
  insideLoop_iff.2 (.inl ⟨r, hr, by rw [hlast]; exact BitVec.le_refl _⟩)

/-- An immediate return is ready where it may stand. -/
theorem branchReady_ret_of_outside (hdb : s.db = none) (hl : s.lpLost = false) (hin : insideLoop s.pc s = false) :
    BranchReady .ret .one false s := by
  refine ⟨hdb, hl, by simp, fun top htop => ⟨by simp, by simp, fun hlast => ?_⟩⟩
  rw [insideLoop_of_last (List.mem_of_mem_head? htop) hlast] at hin
  cases hin

/-- Settles O18: the call pushes the next address (`rel16BranchesTaken`) and the return pops it (`rtsTaken`). -/
theorem callThenReturn : Obligations.CallThenReturn := by
  intro s imm hroom hready hin
  obtain ⟨w, hcall⟩ := (rel16BranchesTaken s imm false).2 hroom hready
  set u : State := { branched false (s.pc + imm.signExtend 24) (withPcStack ((s.pc + 1) :: s.pcstk) s.cfg.pcHighWater s) with
    sstatLag := w } with hu
  have hinside : insideLoop (beginInstr u).pc (beginInstr u) = false :=
    (insideLoop_congr (t := beginInstr u) (s := s) rfl (textLoops_congr rfl rfl rfl rfl) (popPlaces_congr rfl rfl rfl rfl)).trans hin
  obtain ⟨w', hret⟩ := rtsTaken (beginInstr u) .always false (s.pc + 1) s.pcstk rfl hroom.1 rfl hinside
    (branchReady_ret_of_outside hready.1 hready.2.1 hinside)
  exact ⟨u, _, hcall, hret, rfl, rfl, rfl, rfl, rfl, rfl, rfl⟩

/-- Settles O19: the taken branch leaves two slots to execute (`rel16BranchesTaken`), each `NOP` uses one. -/
theorem delaySlotsThenTarget : Obligations.DelaySlotsThenTarget := by
  intro s imm hready
  have hjump := (rel16BranchesTaken s imm true).1 hready
  have hfirst := exec_nop_ready (s := beginInstr (branched true (s.pc + imm.signExtend 24) s)) (.inl rfl)
  have hsecond := exec_nop_ready
    (s := beginInstr (inSequence (beginInstr (branched true (s.pc + imm.signExtend 24) s)))) (.inl rfl)
  refine ⟨_, _, _, hjump, hfirst, hsecond, rfl, ?_, rfl, rfl, rfl, rfl⟩
  show s.pc + 1 + 1 = s.pc + 2
  rw [BitVec.add_assoc]
  rfl

/-! ### Branches at the ends of loops -/

/-- Settles O9: form by form, the lemmas about the loop ends, in the state the condition and the push of a call have left. -/
theorem branchesAtLoopEnd : Obligations.BranchesAtLoopEnd := by
  intro s t c top rest i13 i16 r a hdb hl hlp hcond endsHere
  have htrue : (evalCond c s).1 = true := by rw [hcond]
  obtain rfl : (evalCond c s).2 = t := by rw [hcond]
  have hstand := standsAt_evalCond c s
  have hcond' := fun (n : WordCount) (taken : State → Result) => ifCond_true (n := n) (taken := taken) htrue
  have hends : endsHere ↔ endsLoop s.pc s = true := endsLoop_iff.symm
  have hjump : BranchKind.jump = .call → endsLoop s.pc s = false := fun h => by cases h
  have hret : BranchKind.ret = .call → endsLoop s.pc s = false := fun h => by cases h
  have hcall : ¬endsHere → BranchKind.call = .call → endsLoop s.pc s = false := fun h _ => by simpa using mt hends.2 h
  have hready : top.last = s.pc → top.forever = true → BranchReady .jump .one false s := fun hend hf =>
    ⟨hdb, hl, by simp, by simp [hlp, hend, hf]⟩
  simp only [List.forall_mem_cons, List.not_mem_nil, false_imp_iff, implies_true, and_true]
  refine ⟨fun hend hf => ⟨?_, ?_, ?_⟩, fun hend hf => ⟨?_, ?_, ?_⟩, fun hhere db => ⟨?_, ?_, ?_⟩, fun hnear => ⟨?_, ?_, ?_⟩,
    fun hnot hnear => ⟨?_, ?_⟩, fun hnear => ?_, fun hnot hnear => ?_, fun hend db => ⟨?_, ?_⟩, fun hin hnear hpl hps => ?_⟩
  -- jumps at the end of an infinite loop
  · exact jumpRel13Taken s c i13 false htrue (hready hend hf)
  · exact (rel16BranchesTaken s i16 false).1 (hready hend hf)
  · rw [exec_jumpInd, execJumpInd, hcond', branchTo_ready _ (hstand.branchReady.2 (hready hend hf))]
    rfl
  -- jumps at the end of a finite loop
  · rw [exec_jumpRel13, execJumpRel13, hcond']
    exact hstand.branchTo_refused (branchTo_jump_finite_end hdb hl hlp hend hf)
  · exact branchTo_jump_finite_end hdb hl hlp hend hf
  · rw [exec_jumpInd, execJumpInd, hcond']
    exact hstand.branchTo_refused (branchTo_jump_finite_end hdb hl hlp hend hf)
  -- calls at the end of a loop
  · exact ((StandsAt.refl s).callPush .one db).branchTo_refused (branchTo_call_at_end hdb hl (hends.1 hhere))
  · rw [exec_callInd, execCallInd, hcond']
    exact (hstand.callPush .one db).branchTo_refused (branchTo_call_at_end hdb hl (hends.1 hhere))
  · rw [exec_lcall, execLcall, hcond']
    exact (hstand.callPush .two false).branchTo_refused (branchTo_call_at_end hdb hl (hends.1 hhere))
  -- delayed jumps
  · rw [exec_jumpRel13, execJumpRel13, hcond']
    exact hstand.branchTo_refused (branchTo_delayed_near_end hdb hl hlp hjump hnear)
  · exact branchTo_delayed_near_end hdb hl hlp hjump hnear
  · rw [exec_jumpInd, execJumpInd, hcond']
    exact hstand.branchTo_refused (branchTo_delayed_near_end hdb hl hlp hjump hnear)
  -- delayed calls
  · exact ((StandsAt.refl s).callPush .one true).branchTo_refused
      (branchTo_delayed_near_end hdb hl hlp (hcall hnot) (.inr hnear))
  · rw [exec_callInd, execCallInd, hcond']
    exact (hstand.callPush .one true).branchTo_refused (branchTo_delayed_near_end hdb hl hlp (hcall hnot) (.inr hnear))
  -- long branches
  · rw [exec_ljump, execLjump, hcond']
    exact hstand.branchTo_refused (branchTo_long_near_end hdb hl hlp hjump hnear)
  · rw [exec_lcall, execLcall, hcond']
    exact (hstand.callPush .two false).branchTo_refused (branchTo_long_near_end hdb hl hlp (hcall hnot) (.inr hnear))
  -- returns at the end of a loop
  · rw [exec_rts, execRts, hcond']
    exact returnBy_inside (hstand.insideLoop.trans (insideLoop_of_last (by simp [hlp]) hend))
  · rw [exec_rti, execRti, hcond']
    exact returnBy_inside (hstand.insideLoop.trans (insideLoop_of_last (by simp [hlp]) hend))
  -- delayed returns
  · obtain ⟨v, vs, hs⟩ := List.exists_cons_of_ne_nil hps
    have hpop := fun i => pcPop_of_cons (s := (evalCond c s).2) i (by simpa using hpl) (by simpa using hs)
    refine ⟨?_, fun hsl hss => ?_⟩
    · rw [exec_rts, execRts, hcond', returnBy_of_ok (hstand.insideLoop.trans hin) (hpop _)]
      exact (hstand.popped _ _ _).branchTo_refused (branchTo_delayed_near_end hdb hl hlp hret (.inr hnear))
    · obtain ⟨e, es, hs'⟩ := List.exists_cons_of_ne_nil hss
      have hleave := leaveInterrupt_of_cons (s := (evalCond c s).2) (.rti c true false) (by simpa using hpl) (by simpa using hs)
        (by simpa using hsl) (by simpa using hs')
      rw [exec_rti, execRti, hcond']
      refine (returnBy_of_ok (hstand.insideLoop.trans hin) hleave).trans ?_
      exact (hstand.returned vs e es _).branchTo_refused (branchTo_delayed_near_end hdb hl hlp hret (.inr hnear))

end Sys2Proof.Machine
end

section
/-! The stacks (`44_stack_ops.md` R200 to R217): the pushes and pops with their flags, the instructions that use them, and what they
report. -/

namespace Sys2Proof.Machine

open Sys2Proof.Safety

variable {s t : State}

/-! ### Pushes and pops with their flags -/

theorem lvlClear_sticky (h : s.cfg.lvlClear = .sticky) : lvlClear s = s.pcstklvl := by simp [lvlClear, h]

theorem lvlClear_level (h : s.cfg.lvlClear = .level) : lvlClear s = false := by simp [lvlClear, h]

/-- The level bit and the latch bits at the water mark. -/
theorem withPcStack_at_mark {stk : List Addr} {mark : Nat} (h : stk.length = mark) :
    (withPcStack stk mark s).pcstklvl = true ∧
      (withPcStack stk mark s).irptl = if s.icntl.getLsbD 10 then s.irptl ||| bit s.cfg.stackIrq else s.irptl := by
  simp only [withPcStack, h, if_true, true_and]

/-- The level bit and the latch bits away from the water mark (D8). -/
theorem withPcStack_off_mark {stk : List Addr} {mark : Nat} (h : stk.length ≠ mark) :
    (s.cfg.lvlClear = .sticky → (withPcStack stk mark s).pcstklvl = s.pcstklvl) ∧
      (s.cfg.lvlClear = .level → (withPcStack stk mark s).pcstklvl = false) ∧ (withPcStack stk mark s).irptl = s.irptl := by
  refine ⟨fun hc => ?_, fun hc => ?_, ?_⟩
  · simp only [withPcStack, if_neg h, lvlClear_sticky hc]
  · simp only [withPcStack, if_neg h, lvlClear_level hc]
  · simp only [withPcStack, if_neg (fun hm => h hm.1 : ¬(stk.length = mark ∧ _))]

theorem pcPush_overflow (v : Addr) (hl : s.pcLost = false) (hf : s.pcstk.length = 33) : OverflowReported s (pcPush v s) := by
  rw [pcPush_of_full v hl (Nat.le_of_eq hf.symm)]
  exact ⟨rfl, rfl⟩

theorem lpPush_overflow (r : LoopRec) (hl : s.lpLost = false) (hf : s.lpstk.length = 8) : OverflowReported s (lpPush r s) := by
  rw [lpPush_of_full r hl (Nat.le_of_eq hf.symm)]
  exact ⟨rfl, rfl⟩

theorem stsPush_of_full (e : StatusEntry) (hl : s.stsLost = false) (hf : 16 ≤ s.stsstk.length) :
    stsPush e s = raiseStackInterrupt { s with stsstk := [], stsLost := true, stkoverflow := true } := by
  simp [stsPush, hl, stsDepth, hf]

theorem stsPush_overflow (e : StatusEntry) (hl : s.stsLost = false) (hf : s.stsstk.length = 16) :
    OverflowReported s (stsPush e s) := by
  rw [stsPush_of_full e hl (Nat.le_of_eq hf.symm)]
  exact ⟨rfl, rfl⟩

/-- Settles O23. -/
theorem pcStackPush : Obligations.PcStackPush := by
  intro s v hl
  refine ⟨fun hlt => ?_, fun hf => pcPush_overflow v hl hf⟩
  rw [pcPush_of_room v ⟨hl, hlt⟩]
  refine ⟨rfl, fun hm => withPcStack_at_mark hm, fun hm => withPcStack_off_mark hm, rfl, rfl, ?_⟩
  simp [pcstkFull, withPcStack, pcDepth, beq_eq_decide]

/-- Settles O24. -/
theorem pcStackPop : Obligations.PcStackPop := by
  intro i s v rest hl
  refine ⟨fun hs => by simp [pcPop, hl, hs], fun hs hlt => ?_⟩
  refine ⟨_, pcPop_of_cons i hl hs, rfl, fun hm => withPcStack_at_mark hm, fun hm => withPcStack_off_mark hm, rfl, ?_, rfl⟩
  simpa [pcstkFull, withPcStack, pcDepth] using Nat.ne_of_lt hlt

/-- Settles O25. -/
theorem loopStackPushPop : Obligations.LoopStackPushPop := by
  intro i s r rest hl
  refine ⟨fun hlt => ?_, fun hf => lpPush_overflow r hl hf, fun hs => by simp [lpPop, hl, hs],
    fun hs hlt => ⟨lpPop_of_cons i hl hs, ?_, rfl⟩⟩
  · rw [lpPush_of_room r ⟨hl, hlt⟩]
    exact ⟨rfl, rfl, by simp [lpstkFull, lpDepth, beq_eq_decide]⟩
  · simpa [lpstkFull, lpDepth] using Nat.ne_of_lt hlt

/-- Settles O26. -/
theorem statusStackPushPop : Obligations.StatusStackPushPop := by
  intro i s e rest hl
  refine ⟨fun hlt => ?_, fun hf => stsPush_overflow e hl hf, fun hs => by simp [stsPop, hl, hs],
    fun hs => ⟨stsPop_of_cons i hl hs, rfl⟩⟩
  rw [stsPush_of_room e ⟨hl, hlt⟩]
  exact ⟨rfl, rfl⟩

/-! ### `PUSH` and `POP` -/

/-- Settles O28. -/
theorem pushPopPcEffect : Obligations.PushPopPcEffect := by
  intro s v rest hready
  constructor
  · intro hroom
    rw [exec_pushPc, execPushPc, pcPush_of_room _ hroom]
    exact ⟨_, seqNext_one hready⟩
  · intro hl hs
    rw [exec_popPc, execPopPc, pcPop_of_cons _ hl hs]
    exact ⟨_, seqNext_one hready⟩

/-- Behind a push with room `PUSH LOOP` goes on in sequence. -/
theorem seqAfterLoopPush_of_kept (hl : s.lpLost = false) : seqAfterLoopPush s = .next (inSequence s) := by
  rw [seqAfterLoopPush, if_neg (by simp [hl]), seqNext_one (.inr hl)]

/-- Settles O29. -/
theorem pushLoopEffect : Obligations.PushLoopEffect := by
  intro s sts
  refine ⟨fun hres => if_pos hres, fun hres hroom => ?_⟩
  have hres' : ¬lpstackpReserved s ≠ 0 := not_not.2 hres
  have hlost : ¬s.lpLost = true := by simp [hroom.1]
  rw [exec_pushLoop, execPushLoop, if_neg hres', if_neg hlost, lpPush_of_room _ hroom]
  exact ⟨_, cntrPushed s, cntrPushed_mem s, seqAfterLoopPush_of_kept hroom.1⟩

/-- Settles O30. -/
theorem popLoopEffect : Obligations.PopLoopEffect := by
  intro s r rest hl hs
  rw [exec_popLoop, execPopLoop, lpPop_of_cons _ hl hs]
  exact ⟨_, seqNext_one (.inr hl)⟩

/-- Settles O31. -/
theorem pushPopStsEffect : Obligations.PushPopStsEffect := by
  intro s e rest hready
  constructor
  · intro hroom
    rw [exec_pushSts, execPushSts, stsPush_of_room _ hroom]
    exact ⟨_, seqNext_one hready⟩
  · intro hl hs
    rw [exec_popSts, execPopSts, stsPop_of_cons _ hl hs]
    exact ⟨_, seqNext_one hready⟩

/-- What both pops of `POP LOOP, POP STS` leave, but for the window of `SSTAT` (R214). -/
theorem bothLoads_eq (r : LoopRec) (lps : List LoopRec) (e : StatusEntry) (es : List StatusEntry) (s : State) :
    loadStatus e { loadLoopEnd r (loadStackRegs r.start { s with lpstk := lps }) with stsstk := es } =
      { s with
        lpstk := lps
        stacka := r.start.extractLsb' 0 16
        stackp := r.start.extractLsb' 16 8
        lpstacka := r.last.extractLsb' 0 16
        lpstackp := BitVec.ofBool r.forever ++ 0#7 ++ r.last.extractLsb' 16 8
        cntr := r.count
        stsstk := es
        astat := e.astat
        mstat := e.mstat
        lags :=
          { reg := .mstat, old := s.mstat, left := max 1 s.cfg.mstatPopLatency } ::
            { reg := .cntrPush, old := s.cntr, left := 1 } :: s.lags } := rfl

/-- `POP LOOP, POP STS` (R214), sequenced from the state both pops leave. -/
theorem exec_popLoop_sts {r : LoopRec} {lps : List LoopRec} {e : StatusEntry} {es : List StatusEntry} (hl : s.lpLost = false)
    (hs : s.lpstk = r :: lps) (hl' : s.stsLost = false) (hs' : s.stsstk = e :: es) :
    exec (.popLoop true) s = seqNext .one (lagOverflowBit (sstat s)
      (loadStatus e { loadLoopEnd r (loadStackRegs r.start { s with lpstk := lps }) with stsstk := es })) := by
  rw [exec_popLoop, execPopLoop, lpPop_of_cons _ hl hs]
  simp only [if_true]
  rw [stsPop_of_cons (s := loadLoopEnd r (loadStackRegs r.start { s with lpstk := lps })) _ hl' hs']

/-- Settles O32. -/
theorem stackPairEffects : Obligations.StackPairEffects := by
  intro s v pcs r lps e es hready
  refine ⟨fun hpc hsts => ?_, fun hlp hsts hres => ?_, fun hl hs hl' hs' => ?_, fun hl hs hl' hs' => ?_⟩
  · rw [exec_pushPc, execPushPc, pcPush_of_room _ hpc]
    simp only
    rw [stsPush_of_room (s := withPcStack _ _ s) _ hsts]
    exact ⟨_, seqNext_one hready⟩
  · have hres' : ¬lpstackpReserved s ≠ 0 := not_not.2 hres
    have hlost : ¬s.lpLost = true := by simp [hlp.1]
    rw [exec_pushLoop, execPushLoop, if_neg hres', if_neg hlost, lpPush_of_room _ hlp]
    simp only [if_true]
    rw [stsPush_of_room (s := { s with lpstk := loopOfRegs s :: s.lpstk }) _ hsts]
    exact ⟨_, cntrPushed s, cntrPushed_mem s, seqAfterLoopPush_of_kept hlp.1⟩
  · rw [exec_popPc, execPopPc, pcPop_of_cons _ hl hs]
    simp only
    rw [stsPop_of_cons (s := withPcStack pcs s.cfg.pcLowWater s) _ hl' hs']
    exact ⟨_, seqNext_one hready⟩
  · rw [exec_popLoop_sts hl hs hl' hs', bothLoads_eq]
    exact ⟨_, seqNext_one (.inr hl)⟩

/-! ### Pops that fail -/

theorem pcPop_of_lost (i : Instr) (h : s.pcLost = true) : pcPop i s = .error (.pcStackUnspecified i s.pc) := by simp [pcPop, h]

theorem pcPop_of_empty (i : Instr) (hl : s.pcLost = false) (h : s.pcstk = []) : pcPop i s = .error (.pcStackUnderflow i s.pc) := by
  simp [pcPop, hl, h]

theorem lpPop_of_lost (i : Instr) (h : s.lpLost = true) : lpPop i s = .error (.loopStackUnspecified i s.pc) := by simp [lpPop, h]

theorem lpPop_of_empty (i : Instr) (hl : s.lpLost = false) (h : s.lpstk = []) :
    lpPop i s = .error (.loopStackUnderflow i s.pc) := by
  simp [lpPop, hl, h]

theorem stsPop_of_lost (i : Instr) (h : s.stsLost = true) : stsPop i s = .error (.statusStackUnspecified i s.pc) := by
  simp [stsPop, h]

theorem stsPop_of_empty (i : Instr) (hl : s.stsLost = false) (h : s.stsstk = []) :
    stsPop i s = .error (.statusStackUnderflow i s.pc) := by
  simp [stsPop, hl, h]

theorem exec_popPc_of_error {p : PcPartner} {f : Fault} (h : pcPop (.popPc p) s = .error f) : exec (.popPc p) s = .fault f := by
  rw [exec_popPc, execPopPc, h]

theorem exec_popLoop_of_error {b : Bool} {f : Fault} (h : lpPop (.popLoop b) s = .error f) : exec (.popLoop b) s = .fault f := by
  rw [exec_popLoop, execPopLoop, h]

theorem exec_popSts_of_error {f : Fault} (h : stsPop .popSts s = .error f) : exec .popSts s = .fault f := by
  rw [exec_popSts, execPopSts, h]

/-- Settles O34: the pop that comes first decides, the second one where the first is good. -/
theorem popUnderflowFaults : Obligations.PopUnderflowFaults := by
  intro s p b
  refine ⟨fun hl hs => exec_popPc_of_error (pcPop_of_empty _ hl hs), fun hl hs => exec_popLoop_of_error (lpPop_of_empty _ hl hs),
    fun hl hs => exec_popSts_of_error (stsPop_of_empty _ hl hs), fun hl => exec_popPc_of_error (pcPop_of_lost _ hl),
    fun hl => exec_popLoop_of_error (lpPop_of_lost _ hl), fun hl => exec_popSts_of_error (stsPop_of_lost _ hl),
    fun hl hne => ?_, fun hl hne => ?_⟩
  · obtain ⟨v, rest, hs⟩ := List.exists_cons_of_ne_nil hne
    have hsts : ∀ f, stsPop (.popPc .sts) (withPcStack rest s.cfg.pcLowWater s) = .error f → exec (.popPc .sts) s = .fault f :=
      fun f h => by
        rw [exec_popPc, execPopPc, pcPop_of_cons _ hl hs]
        simp only [h]
    have hlp : ∀ f, lpPop (.popPc .loop) (withPcStack rest s.cfg.pcLowWater s) = .error f → exec (.popPc .loop) s = .fault f :=
      fun f h => by
        rw [exec_popPc, execPopPc, pcPop_of_cons _ hl hs]
        simp only [h]
    exact ⟨fun hl' hs' => hsts _ (stsPop_of_empty _ hl' hs'), fun hl' => hsts _ (stsPop_of_lost _ hl'),
      fun hl' hs' => hlp _ (lpPop_of_empty _ hl' hs'), fun hl' => hlp _ (lpPop_of_lost _ hl')⟩
  · obtain ⟨r, rest, hs⟩ := List.exists_cons_of_ne_nil hne
    have hsts : ∀ f, stsPop (.popLoop true) (loadLoopEnd r (loadStackRegs r.start { s with lpstk := rest })) = .error f →
        exec (.popLoop true) s = .fault f := fun f h => by
      rw [exec_popLoop, execPopLoop, lpPop_of_cons _ hl hs]
      simp only [if_true, h]
    exact ⟨fun hl' hs' => hsts _ (stsPop_of_empty _ hl' hs'), fun hl' => hsts _ (stsPop_of_lost _ hl')⟩

/-! ### Overflows -/

/-- What a push reported stays reported when control goes on. -/
theorem overflowReported_of_eq {u : State} (h : OverflowReported s t) (hov : u.stkoverflow = t.stkoverflow)
    (hirq : u.irptl = t.irptl) : OverflowReported s u := by
  rw [OverflowReported, hov, hirq]
  exact h

/-- A taken call on a full PC stack goes to its target and reports the overflow. -/
theorem call_overflows {n : WordCount} (target : Addr) (hl : s.pcLost = false) (hf : s.pcstk.length = 33)
    (hready : BranchReady .call n false s) :
    ∃ t, branchTo .call n false target (callPush n false s) = .next t ∧ OverflowReported s t ∧ t.pc = target := by
  rw [branchTo_ready _ (((StandsAt.refl s).callPush n false).branchReady.2 hready)]
  exact ⟨_, rfl, overflowReported_of_eq (pcPush_overflow _ hl hf) rfl rfl, rfl⟩

/-- In sequence, away from the loop ends, nothing is lost of what a push reported. -/
theorem overflow_goes_on (hdb : t.db = none) (hl : t.lpLost = false) (haway : NotAtLoopEnd t) (h : OverflowReported s t) :
    ∃ u, seqNext .one t = .next u ∧ OverflowReported s u ∧ u.pc = t.pc + 1 := by
  rw [seqNext_one (.inr hl), inSequence_away hdb haway]
  exact ⟨_, rfl, h, rfl⟩

/-- Settles O27. -/
theorem overflowIsReported : Obligations.OverflowIsReported := by
  intro s imm term imm16 r a hdb hl haway
  have hone : EndsNoLoop s → BranchReady .call .one false s := fun hends =>
    ⟨hdb, hl, fun _ => hends, fun top htop => ⟨by simp, by simp, fun he => absurd he (haway top htop)⟩⟩
  have htwo : EndsNoLoop s → (∀ top ∈ s.lpstk.head?, top.last ≠ s.pc + 1) → BranchReady .call .two false s := fun hends hnext =>
    ⟨hdb, hl, fun _ => hends,
      fun top htop => ⟨by simp, fun _ => ⟨haway top htop, hnext top htop⟩, fun he => absurd he (haway top htop)⟩⟩
  refine ⟨fun hpl hpf => ⟨fun hends => ⟨?_, ?_, fun hnext => ?_⟩, ?_⟩, fun hf himm => ?_, fun hf hres => ?_, fun hsl hsf => ?_⟩
  · exact call_overflows _ hpl hpf (hone hends)
  · exact call_overflows _ hpl hpf (hone hends)
  · exact call_overflows _ hpl hpf (htwo hends hnext)
  · have hov := overflowReported_of_eq (u := lagAllBits 0 (sstat s) (pcPush (stackAddr s) s))
      (pcPush_overflow (stackAddr s) hpl hpf) rfl rfl
    obtain ⟨u, hu, hr, hpc⟩ := overflow_goes_on (by simpa using hdb) (by simpa using hl) (by simpa [NotAtLoopEnd] using haway) hov
    exact ⟨u, hu, hr, by simpa using hpc⟩
  · rw [exec_doUntil, execDoUntil, if_neg himm, if_neg (by simp [hdb]), if_neg (by simp [hl])]
    exact ⟨_, rfl, overflowReported_of_eq (lpPush_overflow _ hl hf) rfl rfl, by simp [wordsOf]⟩
  · have hlost : (lpPush (loopOfRegs s) s).lpLost = true := by
      rw [lpPush_of_full _ hl (Nat.le_of_eq hf.symm)]
      rfl
    rw [exec_pushLoop, execPushLoop, if_neg (not_not.2 hres), if_neg (by simp [hl])]
    simp only [Bool.false_eq_true, if_false]
    rw [seqAfterLoopPush, if_pos (by simp [hlost, hdb])]
    exact ⟨_, rfl, overflowReported_of_eq (lpPush_overflow _ hl hf) rfl rfl, by simp [wordsOf]⟩
  · have hov := overflowReported_of_eq (u := lagOverflowBit (sstat s) (stsPush (statusOfRegs s) s))
      (stsPush_overflow (statusOfRegs s) hsl hsf) rfl rfl
    obtain ⟨u, hu, hr, hpc⟩ := overflow_goes_on (by simpa using hdb) (by simpa using hl) (by simpa [NotAtLoopEnd] using haway) hov
    exact ⟨u, hu, hr, by simpa using hpc⟩

/-! ### The round trip of a loop record -/

/-- The bits of `LPSTACKP` as `POP LOOP` loads it. -/
theorem lpstackp_fields (f : Bool) (page : BitVec 8) :
    (BitVec.ofBool f ++ 0#7 ++ page).extractLsb' 8 7 = 0 ∧ (BitVec.ofBool f ++ 0#7 ++ page).setWidth 8 = page ∧
      (BitVec.ofBool f ++ 0#7 ++ page).getLsbD 15 = f := by
  revert f page
  decide

/-- An address is its page and its low sixteen bits. -/
theorem page_append_low (a : Addr) : a.extractLsb' 16 8 ++ a.extractLsb' 0 16 = a := by
  refine BitVec.eq_of_getLsbD_eq fun i hi => ?_
  rw [BitVec.getLsbD_append, BitVec.getLsbD_extractLsb', BitVec.getLsbD_extractLsb']
  by_cases h : i < 16
  · simp [h]
  · simp [h, show i - 16 < 8 by omega, show 16 + (i - 16) = i by omega]

/-- The state `POP LOOP` leaves before it is sequenced (R210, R301). -/
def loopPopped (r : LoopRec) (rest : List LoopRec) (w : Option SstatLag) (s : State) : State :=
  { s with
    lpstk := rest
    sstatLag := w
    stacka := r.start.extractLsb' 0 16
    stackp := r.start.extractLsb' 16 8
    lpstacka := r.last.extractLsb' 0 16
    lpstackp := BitVec.ofBool r.forever ++ 0#7 ++ r.last.extractLsb' 16 8
    cntr := r.count
    lags := { reg := .cntrPush, old := s.cntr, left := 1 } :: s.lags }

/-- The record the registers hold behind `POP LOOP` is the popped one. -/
theorem record_of_loopPopped {r : LoopRec} {rest : List LoopRec} {w : Option SstatLag} (hopen : r.openCount = false) :
    { start := (loopPopped r rest w s).stackp ++ (loopPopped r rest w s).stacka
      last := (loopPopped r rest w s).lpstackp.setWidth 8 ++ (loopPopped r rest w s).lpstacka
      forever := (loopPopped r rest w s).lpstackp.getLsbD 15
      count := r.count
      openCount := false } = r := by
  obtain ⟨start, last, forever, count, openCount⟩ := r
  obtain ⟨-, hpage, hforever⟩ := lpstackp_fields forever (last.extractLsb' 16 8)
  obtain rfl : openCount = false := hopen
  simp only [loopPopped, hpage, hforever, page_append_low]

/-- Settles O33: the registers hold the record, the window of its counter has closed behind the `NOP`, and no loop ends on the way. -/
theorem loopRecordRoundTrip : Obligations.LoopRecordRoundTrip := by
  intro s r rest hdb hl hlp hroom hopen hwindow haway
  obtain ⟨w, hpop⟩ := popLoopEffect s r rest hl hlp
  change exec (.popLoop false) s = .next (inSequence (loopPopped r rest w s)) at hpop
  have hrest : ∀ q ∈ rest.head?, q.last ≠ s.pc ∧ q.last ≠ s.pc + 1 ∧ q.last ≠ s.pc + 2 := fun q hq =>
    haway q (by simp [hlp, List.mem_of_mem_head? hq])
  have h2 : s.pc + 1 + 1 = s.pc + 2 := by
    rw [BitVec.add_assoc]
    rfl
  rw [inSequence_away (s := loopPopped r rest w s) hdb fun q hq => (hrest q hq).1] at hpop
  generalize hu : advance .one (loopPopped r rest w s) = u at hpop
  have hnop : exec .nop (beginInstr u) = .next (advance .one (beginInstr u)) := by
    subst hu
    exact exec_nop_away hdb hl fun q hq => (hrest q hq).2.1
  generalize hv : beginInstr (advance .one (beginInstr u)) = v
  have hclosed : oldsOf .cntrPush v = [] := by
    subst hu hv
    have hnone : ∀ g ∈ (loopPopped r rest w s).lags, g.reg = .cntrPush → ¬2 ≤ g.left := by
      intro g hg hreg
      rcases List.mem_cons.1 hg with rfl | hg
      · simp
      · exact Nat.not_le.2 (Nat.lt_succ_of_le (hwindow g hg hreg))
    rw [oldsOf_beginInstr]
    refine (oldsAfter_beginInstr .cntrPush 1 (loopPopped r rest w s)).trans ?_
    simpa [oldsAfter] using hnone
  obtain ⟨w', c, hc, hpush⟩ := (pushLoopEffect v false).2
    (by subst hu hv; exact (lpstackp_fields _ _).1) (by subst hu hv; exact ⟨hl, hroom⟩)
  rw [hclosed] at hc
  obtain rfl : c = r.count := by
    subst hu hv
    exact List.mem_singleton.1 hc
  have hback :
      ({ start := v.stackp ++ v.stacka
         last := v.lpstackp.setWidth 8 ++ v.lpstacka
         forever := v.lpstackp.getLsbD 15
         count := r.count
         openCount := false } : LoopRec) = r := by
    subst hu hv
    exact record_of_loopPopped (s := s) (rest := rest) (w := w) hopen
  have hpc : v.pc = s.pc + 2 := by
    subst hu hv
    exact h2
  have hvlp : v.lpstk = rest := by
    subst hu hv
    rfl
  have hvdb : v.db = none := by
    subst hu hv
    exact hdb
  rw [hback, hvlp, inSequence_away (by exact hvdb) (by
    intro q hq
    obtain rfl : r = q := by simpa using hq
    rw [show ({ v with sstatLag := w', lpstk := r :: rest } : State).pc = s.pc + 2 from hpc]
    exact (haway r (by simp [hlp])).2.2)] at hpush
  refine ⟨u, _, _, hpop, hnop, by rw [hv]; exact hpush, by rw [hlp]; rfl, ?_⟩
  show v.pc + 1 = s.pc + 3
  rw [hpc, BitVec.add_assoc]
  rfl

end Sys2Proof.Machine
end

section
/-! What is read from `SSTAT` behind a `PUSH` or `POP` (`10_state.md` R36, `70_reset_and_hazards.md` R302). -/

namespace Sys2Proof.Machine

open Sys2Proof.Safety

variable {s t u x : State} {i : Instr}

/-! ### The bits -/

/-- Where the two flags the statements single out stand among the seven (R32). -/
theorem flag_positions : ∀ a b c d e f g : Bool,
    let w : Reg16 := (BitVec.ofBool a ++ BitVec.ofBool b ++ BitVec.ofBool c ++ BitVec.ofBool d ++ 0#1 ++ BitVec.ofBool e ++
      BitVec.ofBool f ++ BitVec.ofBool g).setWidth 16
    w.getLsbD 6 = b ∧ w.getLsbD 7 = a := by
  decide

/-- `STSSTKEMPTY` is bit 6 (R32). -/
theorem sstatOfFlags_empty (s : State) : (sstatOfFlags s).getLsbD 6 = s.stsstk.isEmpty :=
  (flag_positions _ _ _ _ _ _ _).1

/-- `STKOVERFLOW` is bit 7 (R32). -/
theorem sstatOfFlags_overflow (s : State) : (sstatOfFlags s).getLsbD 7 = s.stkoverflow :=
  (flag_positions _ _ _ _ _ _ _).2

theorem lostBits_status (s : State) : (lostBits s).getLsbD 6 = s.stsLost := by
  unfold lostBits
  cases s.pcLost <;> cases s.lpLost <;> cases s.stsLost <;> rfl

/-- `STKOVERFLOW` is no bit of a lost stack. -/
theorem lostBits_overflow (s : State) : (lostBits s).getLsbD 7 = false := by
  unfold lostBits
  cases s.pcLost <;> cases s.lpLost <;> cases s.stsLost <;> rfl

theorem overflowBit_getLsbD (j : Nat) : overflowBit.getLsbD j = decide (7 = j) := by
  rw [show overflowBit = BitVec.twoPow 16 7 from rfl, BitVec.getLsbD_twoPow]
  simp

theorem statusBits_getLsbD (j : Nat) : statusBits.getLsbD j = decide (6 = j) := by
  rw [show statusBits = BitVec.twoPow 16 6 from rfl, BitVec.getLsbD_twoPow]
  simp

/-- A bit of no lost stack is the flag (R206). -/
theorem sstat_getLsbD {j : Nat} (h : (lostBits s).getLsbD j = false) : (sstat s).getLsbD j = (sstatOfFlags s).getLsbD j := by
  unfold sstat
  split
  · rfl
  · rcases Nat.lt_or_ge j 16 with hj | hj
    · simp [-BitVec.getLsbD_eq_getElem, h, hj]
    · simp [BitVec.getLsbD_of_ge _ j hj]

theorem sstat_of_kept (hp : s.pcLost = false) (hl : s.lpLost = false) (hs : s.stsLost = false) : sstat s = sstatOfFlags s := by
  simp [sstat, lostBits, hp, hl, hs]

/-! ### Reads at a distance -/

/-- The window is what counts, not where the machine is. -/
theorem sstatBit_moved (k : Nat) (pc : Addr) (db : Option DelayedBranch) (j : Nat) :
    sstatBit k { u with pc := pc, db := db } j = sstatBit k u j := by
  simp only [sstatBit, beginInstr_iterate]
  rfl

/-- At distance 1 a bit that is not unsure is the one of the window. -/
theorem sstatBit_one {g : SstatLag} {j : Nat} (hg : u.sstatLag = some g) (hleft : g.left = 1) (hsure : g.unsure.getLsbD j = false) :
    sstatBit 1 u j = g.base.getLsbD j := by
  have hseen : (beginInstr u).sstatLag = some { g with left := 0 } := by simp [hg, agedSstat, hleft]
  rw [sstatBit, Function.iterate_one, readReg, sstatSeen, hseen]
  simp only
  split
  · rfl
  · simp [-BitVec.getLsbD_eq_getElem, hsure]

/-- At a greater distance the window has closed: a bit of no lost stack is the flag. -/
theorem sstatBit_later {g : SstatLag} {j k : Nat} (hg : u.sstatLag = some g) (hleft : g.left = 1)
    (hkept : (lostBits u).getLsbD j = false) : sstatBit (k + 2) u j = (sstatOfFlags u).getLsbD j := by
  have hclosed : agedSstat^[k + 2] u.sstatLag = none := by
    have htwo : agedSstat (agedSstat u.sstatLag) = none := by simp [hg, agedSstat, hleft]
    rw [Function.iterate_add_apply]
    change agedSstat^[k] (agedSstat (agedSstat u.sstatLag)) = none
    rw [htwo]
    exact Function.iterate_fixed rfl k
  rw [sstatBit, beginInstr_iterate, hclosed]
  exact sstat_getLsbD hkept

/-! ### What each form leaves -/

/-- Outside delay slots and away from the loop ends only the place changes. -/
theorem goesOn_moves (hdb : u.db = none) (haway : NotAtLoopEnd u) (h : GoesOn s u t) :
    ∃ pc db, t = { u with pc := pc, db := db } := by
  cases h with
  | branches delayed a _ _ h => exact ⟨_, _, h⟩
  | advances _ h => exact ⟨_, u.db, h⟩
  | inSequence n h =>
    simp only [seqNext, hdb] at h
    split at h
    · cases h
    · split at h
      · cases h
        exact ⟨_, u.db, rfl⟩
      · rename_i top rest hlp
        split at h
        · cases h
        · rw [if_neg (haway top (by simp [hlp]))] at h
          cases h
          exact ⟨_, u.db, rfl⟩

theorem notAtLoopEnd_of_all (haway : ∀ r ∈ s.lpstk, r.last ≠ s.pc) : NotAtLoopEnd s := fun r hr =>
  haway r (List.mem_of_mem_head? hr)

section

variable (hdb : s.db = none) (haway : ∀ r ∈ s.lpstk, r.last ≠ s.pc)
include hdb haway

theorem exec_onPc (hi : i ∈ [Instr.pushPc .alone, .popPc .alone]) (h : exec i s = .next t) :
    ∃ x pc db, t = { lagAllBits 0 (sstat s) x with pc := pc, db := db } := by
  obtain ⟨u, hwork, hgo⟩ := exec_work h
  have hend := notAtLoopEnd_of_all haway
  simp only [List.mem_cons, List.not_mem_nil, or_false] at hi
  rcases hi with rfl | rfl
  · obtain rfl := hwork
    exact ⟨_, goesOn_moves (by simpa using hdb) (by simpa [NotAtLoopEnd] using hend) hgo⟩
  · obtain ⟨v, rest, -, -, rfl⟩ := hwork
    exact ⟨_, goesOn_moves (by exact hdb) (by exact hend) hgo⟩

theorem exec_onPcAndStatus (hkept : s.stsLost = false) (hi : i ∈ [Instr.pushPc .sts, .popPc .sts]) (h : exec i s = .next t) :
    ∃ x pc db, t = { lagAllBits statusBits (sstat s) x with pc := pc, db := db } ∧
      (x.stsLost = true → x.stsstk = [] ∧ s.stsstk ≠ []) := by
  obtain ⟨u, hwork, hgo⟩ := exec_work h
  have hend := notAtLoopEnd_of_all haway
  simp only [List.mem_cons, List.not_mem_nil, or_false] at hi
  rcases hi with rfl | rfl
  · obtain rfl := hwork
    obtain ⟨pc, db, ht⟩ := goesOn_moves (by simpa using hdb) (by simpa [NotAtLoopEnd] using hend) hgo
    refine ⟨_, pc, db, ht, ?_⟩
    rcases stsPush_cases (statusOfRegs s) (pcPush (stackAddr s) s) with ⟨hl, -⟩ | ⟨-, hf, he⟩ | ⟨⟨hl, -⟩, he⟩
    · simp [hkept] at hl
    · rw [he]
      exact fun _ => ⟨rfl, by rintro hs; simp [hs] at hf⟩
    · rw [he]
      exact fun hlost => by simp [hkept] at hlost
  · obtain ⟨v, rest, e, es, -, -, -, -, rfl⟩ := hwork
    obtain ⟨pc, db, ht⟩ := goesOn_moves (by exact hdb) (by exact hend) hgo
    exact ⟨_, pc, db, ht, fun hlost => by simp [withPcStack, hkept] at hlost⟩

theorem exec_onOthers (hnew : s.lpstackp.setWidth 8 ++ s.lpstacka ≠ s.pc) {b : Bool}
    (hi : i ∈ [Instr.pushSts, .popSts, .pushLoop b, .popLoop b]) (h : exec i s = .next t) :
    ∃ x pc db, t = { lagOverflowBit (sstat s) x with pc := pc, db := db } := by
  obtain ⟨u, hwork, hgo⟩ := exec_work h
  have hend := notAtLoopEnd_of_all haway
  have hpush : NotAtLoopEnd (lpPush (loopOfRegs s) s) := by
    intro r hr
    rcases lpPush_cases (loopOfRegs s) s with ⟨-, he⟩ | ⟨-, -, he⟩ | ⟨-, he⟩
    · rw [he] at hr ⊢
      exact hend r hr
    · simp [he] at hr
    · rw [he] at hr ⊢
      obtain rfl : loopOfRegs s = r := by simpa using hr
      exact hnew
  have hpop : ∀ r rs, s.lpstk = r :: rs → NotAtLoopEnd { s with lpstk := rs } := fun r rs hs q hq =>
    haway q (by simp [hs, List.mem_of_mem_head? hq])
  simp only [List.mem_cons, List.not_mem_nil, or_false] at hi
  rcases hi with rfl | rfl | rfl | rfl
  · obtain rfl := hwork
    exact ⟨_, goesOn_moves (by simpa using hdb) (by simpa [NotAtLoopEnd] using hend) hgo⟩
  · obtain ⟨e, es, -, -, rfl⟩ := hwork
    exact ⟨_, goesOn_moves (by exact hdb) (by exact hend) hgo⟩
  · cases b with
    | false =>
      obtain rfl := hwork
      exact ⟨_, goesOn_moves (by simpa using hdb) hpush hgo⟩
    | true =>
      obtain rfl := hwork
      exact ⟨_, goesOn_moves (by simpa using hdb) (by simpa [NotAtLoopEnd] using hpush) hgo⟩
  · cases b with
    | false =>
      obtain ⟨r, rs, -, hs, rfl⟩ := hwork
      exact ⟨_, goesOn_moves (by exact hdb) (by exact hpop r rs hs) hgo⟩
    | true =>
      obtain ⟨r, rs, e, es, -, hs, -, -, rfl⟩ := hwork
      exact ⟨_, goesOn_moves (by exact hdb) (by exact hpop r rs hs) hgo⟩

end

/-! ### The bits read -/

theorem sstatBit_lagAllBits_none {old : Reg16} {pc : Addr} {db : Option DelayedBranch} (j : Nat) :
    sstatBit 1 { lagAllBits 0 old x with pc := pc, db := db } j = old.getLsbD j := by
  rw [sstatBit_moved]
  exact sstatBit_one (u := lagAllBits 0 old x) rfl rfl (by simp)

/-- In a pair `STSSTKEMPTY` is either the old or the new one, also where the status stack overflows. -/
theorem sstatBit_lagAllBits_status {pc : Addr} {db : Option DelayedBranch} (hs : sstat s = sstatOfFlags s)
    (hlost : x.stsLost = true → x.stsstk = [] ∧ s.stsstk ≠ []) (j : Nat) :
    let t := { lagAllBits statusBits (sstat s) x with pc := pc, db := db }
    sstatBit 1 t j = (sstatOfFlags s).getLsbD j ∨ j = 6 ∧ sstatBit 1 t j = (sstatOfFlags t).getLsbD j := by
  intro t
  have hold : ((sstat s ^^^ sstat x) &&& statusBits).getLsbD j = false → sstatBit 1 t j = (sstatOfFlags s).getLsbD j := fun h => by
    rw [sstatBit_moved, ← hs]
    exact sstatBit_one (u := lagAllBits statusBits (sstat s) x) rfl rfl h
  by_cases hj : j = 6
  · subst hj
    by_cases hsame : (sstatOfFlags x).getLsbD 6 = (sstatOfFlags s).getLsbD 6
    · have hkept : x.stsLost = false := by
        by_contra hl
        obtain ⟨hx, hne⟩ := hlost (by simpa using hl)
        rw [sstatOfFlags_empty, sstatOfFlags_empty, hx] at hsame
        exact hne (by simpa using hsame.symm)
      refine .inl (hold ?_)
      rw [BitVec.getLsbD_and, BitVec.getLsbD_xor, sstat_getLsbD ((lostBits_status x).trans hkept), hs, hsame, Bool.xor_self,
        Bool.false_and]
    · have htx : (sstatOfFlags t).getLsbD 6 = (sstatOfFlags x).getLsbD 6 := rfl
      rw [htx, Bool.eq_not.2 hsame]
      cases sstatBit 1 t 6 <;> cases (sstatOfFlags s).getLsbD 6 <;> simp
  · refine .inl (hold ?_)
    rw [BitVec.getLsbD_and, statusBits_getLsbD, decide_eq_false (Ne.symm hj), Bool.and_false]

theorem sstatBit_lagOverflowBit {old : Reg16} {pc : Addr} {db : Option DelayedBranch} {j : Nat}
    (hkept : (lostBits x).getLsbD j = false) :
    sstatBit 1 { lagOverflowBit old x with pc := pc, db := db } j =
      if j = 7 then old.getLsbD 7 else (sstatOfFlags x).getLsbD j := by
  rw [sstatBit_moved]
  refine (sstatBit_one (u := lagOverflowBit old x) rfl rfl (by simp)).trans ?_
  rw [BitVec.getLsbD_or, BitVec.getLsbD_and, BitVec.getLsbD_and, BitVec.getLsbD_not, overflowBit_getLsbD, sstat_getLsbD hkept]
  by_cases hj : j = 7
  · subst hj
    simp
  · rcases Nat.lt_or_ge j 16 with h | h
    · simp [-BitVec.getLsbD_eq_getElem, hj, Ne.symm hj, h]
    · simp [hj, BitVec.getLsbD_of_ge _ j h]

/-! ### Pushes that overflow -/

theorem seqNext_one_answers (h : SeqReady s) : ∃ t, seqNext .one s = .next t ∧ t.stkoverflow = s.stkoverflow := by
  have hs := seqNext_one h
  obtain ⟨pc, lpstk, db, w, he⟩ := seqNext_frame hs
  exact ⟨_, hs, by rw [he]⟩

theorem seqAfterLoopPush_answers (hdb : s.db = none) : ∃ t, seqAfterLoopPush s = .next t ∧ t.stkoverflow = s.stkoverflow := by
  cases hl : s.lpLost with
  | true => exact ⟨_, if_pos (by simp [hl, hdb]), rfl⟩
  | false =>
    rw [seqAfterLoopPush, if_neg (by simp [hl])]
    exact seqNext_one_answers (.inr hl)

/-- No push takes the flag back. -/
theorem stsPush_keeps_overflow (e : StatusEntry) (h : s.stkoverflow = true) : (stsPush e s).stkoverflow = true := by
  rcases stsPush_cases e s with ⟨-, he⟩ | ⟨-, -, he⟩ | ⟨-, he⟩
  · rw [he]
    exact h
  · rw [he]
    rfl
  · rw [he]
    exact h

/-- Settles O35: away from the loop ends each form leaves the window of its group (`exec_onPc`, `exec_onPcAndStatus`,
`exec_onOthers`), which is read at distance 1 and has closed at distance 2. -/
theorem sstatLagsByOneInstruction : Obligations.SstatLagsByOneInstruction := by
  intro s b hdb hpl hll hsl haway hnew onPc onPcAndStatus onOthers overflows
  have hs : sstat s = sstatOfFlags s := sstat_of_kept hpl hll hsl
  have hpc : ∀ i ∈ onPc, ∀ u j, exec i s = .next u → sstatBit 1 u j = (sstatOfFlags s).getLsbD j := by
    intro i hi u j h
    obtain ⟨x, pc, db, rfl⟩ := exec_onPc hdb haway hi h
    rw [sstatBit_lagAllBits_none, hs]
  have hpair : ∀ i ∈ onPcAndStatus, ∀ u j, exec i s = .next u →
      sstatBit 1 u j = (sstatOfFlags s).getLsbD j ∨ j = 6 ∧ sstatBit 1 u j = (sstatOfFlags u).getLsbD j := by
    intro i hi u j h
    obtain ⟨x, pc, db, rfl, hlost⟩ := exec_onPcAndStatus hdb haway hsl hi h
    exact sstatBit_lagAllBits_status hs hlost j
  have hothers : ∀ c, ∀ i ∈ [Instr.pushSts, .popSts, .pushLoop c, .popLoop c], ∀ u j, exec i s = .next u →
      (lostBits u).getLsbD j = false →
      sstatBit 1 u j = if j = 7 then s.stkoverflow else (sstatOfFlags u).getLsbD j := by
    intro c i hi u j h hkept
    obtain ⟨x, pc, db, rfl⟩ := exec_onOthers hdb haway hnew hi h
    refine (sstatBit_lagOverflowBit (x := x) hkept).trans ?_
    rw [hs, sstatOfFlags_overflow]
    rfl
  have hlater : ∀ c, ∀ i ∈ onPc ++ onPcAndStatus ++ [Instr.pushSts, .popSts, .pushLoop c, .popLoop c], ∀ u j k,
      exec i s = .next u → (lostBits u).getLsbD j = false →
      sstatBit (k + 2) u j = (sstatOfFlags u).getLsbD j := by
    intro c i hi u j k h hkept
    rw [List.mem_append, List.mem_append] at hi
    rcases hi with (hi | hi) | hi
    · obtain ⟨x, pc, db, rfl⟩ := exec_onPc hdb haway hi h
      exact sstatBit_later rfl rfl hkept
    · obtain ⟨x, pc, db, rfl, -⟩ := exec_onPcAndStatus hdb haway hsl hi h
      exact sstatBit_later rfl rfl hkept
    · obtain ⟨x, pc, db, rfl⟩ := exec_onOthers hdb haway hnew hi h
      exact sstatBit_later rfl rfl hkept
  -- an answer with the flag set is read as before and then as 1
  have hflag : ∀ c, ∀ i ∈ onPc ++ onPcAndStatus ++ [Instr.pushSts, .popSts, .pushLoop c, .popLoop c],
      (∃ u, exec i s = .next u ∧ u.stkoverflow = true) → overflows i := by
    rintro c i hi ⟨u, hu, hov⟩
    refine ⟨u, hu, ?_, fun k => ?_⟩
    · rw [List.mem_append, List.mem_append] at hi
      rcases hi with (hi | hi) | hi
      · rw [hpc i hi u 7 hu, sstatOfFlags_overflow]
      · rcases hpair i hi u 7 hu with h | ⟨h, -⟩
        · rw [h, sstatOfFlags_overflow]
        · simp at h
      · rw [hothers c i hi u 7 hu (lostBits_overflow u), if_pos rfl]
    · rw [hlater c i hi u 7 k hu (lostBits_overflow u), sstatOfFlags_overflow, hov]
  have hpcfull : s.pcstk.length = 33 → (pcPush (stackAddr s) s).stkoverflow = true := fun hf =>
    (pcPush_overflow _ hpl hf).1
  have hpairAnswers := seqNext_one_answers
    (s := lagAllBits statusBits (sstat s) (stsPush (statusOfRegs s) (pcPush (stackAddr s) s))) (.inr (by simpa using hll))
  have hloopAnswers : lpstackpReserved s = 0 → ∀ c, ∃ u, exec (.pushLoop c) s = .next u ∧ u.stkoverflow =
      (if c then stsPush (statusOfRegs s) (lpPush (loopOfRegs s) s) else lpPush (loopOfRegs s) s).stkoverflow := by
    intro hres c
    rw [exec_pushLoop, execPushLoop, if_neg (not_not.2 hres), if_neg (by simp [hll])]
    exact seqAfterLoopPush_answers (by cases c <;> simpa using hdb)
  refine ⟨hpc, hpair, hothers b, hlater b, fun hf => ⟨?_, ?_⟩, fun hf => ⟨?_, ?_⟩, fun hres => ⟨fun hf => ?_, fun hf => ?_⟩⟩
  · refine hflag b _ (by simp [onPc]) ?_
    obtain ⟨u, hu, hov⟩ := seqNext_one_answers (s := lagAllBits 0 (sstat s) (pcPush (stackAddr s) s)) (.inr (by simpa using hll))
    exact ⟨u, hu, hov.trans (hpcfull hf)⟩
  · refine hflag b _ (by simp [onPcAndStatus]) ?_
    obtain ⟨u, hu, hov⟩ := hpairAnswers
    exact ⟨u, hu, hov.trans (stsPush_keeps_overflow _ (hpcfull hf))⟩
  · refine hflag b _ (by simp) ?_
    obtain ⟨u, hu, hov⟩ := seqNext_one_answers (s := lagOverflowBit (sstat s) (stsPush (statusOfRegs s) s))
      (.inr (by simpa using hll))
    exact ⟨u, hu, hov.trans (stsPush_overflow _ hsl hf).1⟩
  · refine hflag b _ (by simp [onPcAndStatus]) ?_
    obtain ⟨u, hu, hov⟩ := hpairAnswers
    exact ⟨u, hu, hov.trans (stsPush_overflow _ (by simpa using hsl) (by simpa using hf)).1⟩
  · have hfull : (lpPush (loopOfRegs s) s).stkoverflow = true := (lpPush_overflow _ hll hf).1
    refine hflag b _ (by simp) ?_
    obtain ⟨u, hu, hov⟩ := hloopAnswers hres b
    refine ⟨u, hu, hov.trans ?_⟩
    cases b with
    | false => exact hfull
    | true => exact stsPush_keeps_overflow _ hfull
  · refine hflag true _ (by simp) ?_
    obtain ⟨u, hu, hov⟩ := hloopAnswers hres true
    exact ⟨u, hu, hov.trans (stsPush_overflow (s := lpPush (loopOfRegs s) s) _ (by simpa using hsl) (by simpa using hf)).1⟩

end Sys2Proof.Machine
end

section
/-! Cache, interrupt bits, idle and modes (`45_cache_interrupt_idle_mode.md` R220 to R241). -/

namespace Sys2Proof.Machine

open Sys2Proof.Safety

variable {s t u : State}

/-! ### `FLUSH CACHE` -/

/-- The lines the flush has reached hold on for `n` further instructions at most. -/
def LinesWithin (n : Nat) (cs : List CacheLine) : Prop := ∀ c ∈ cs, ∃ m, c.left = some m ∧ m ≤ n

theorem linesWithin_flush (cs : List CacheLine) : LinesWithin flushWindow (cs.map flushLine) := by
  intro c hc
  obtain ⟨d, -, rfl⟩ := List.mem_map.1 hc
  cases hd : d.left with
  | none => exact ⟨flushWindow, by simp [flushLine, hd], Nat.le_refl _⟩
  | some n => exact ⟨min n flushWindow, by simp [flushLine, hd], Nat.min_le_right _ _⟩

theorem agedCache_linesWithin {n : Nat} {cs : List CacheLine} (h : LinesWithin (n + 2) cs) : LinesWithin (n + 1) (agedCache cs) := by
  induction cs with
  | nil => exact List.forall_mem_nil _
  | cons c cs ih =>
    obtain ⟨⟨m, hm, hle⟩, hcs⟩ := List.forall_mem_cons.1 h
    simp only [agedCache, hm]
    split
    · exact ih hcs
    · exact List.forall_mem_cons.2 ⟨⟨m - 1, rfl, by omega⟩, ih hcs⟩

theorem agedCache_last {cs : List CacheLine} (h : LinesWithin 1 cs) : agedCache cs = [] := by
  induction cs with
  | nil => rfl
  | cons c cs ih =>
    obtain ⟨⟨m, hm, hle⟩, hcs⟩ := List.forall_mem_cons.1 h
    simp only [agedCache, hm, if_pos hle]
    exact ih hcs

theorem agedCache_iterate_nil (k : Nat) : agedCache^[k] [] = [] := Function.iterate_fixed rfl k

/-- After so many instructions nothing is left. -/
theorem agedCache_iterate_of_within {n : Nat} {cs : List CacheLine} (h : LinesWithin (n + 1) cs) : agedCache^[n + 1] cs = [] := by
  induction n generalizing cs with
  | zero => exact agedCache_last h
  | succ n ih => exact ih (agedCache_linesWithin h)

@[simp] theorem inSequence_icache (s : State) : (inSequence s).icache = s.icache := by
  unfold inSequence
  split
  · rfl
  · rfl
  · rfl
  · split
    · unfold loopEnd
      split <;> rfl
    · rfl

/-- Settles O36: every line is within the window of the flush, and six instructions use it up. -/
theorem flushCacheEmpties : Obligations.FlushCacheEmpties := by
  intro s hready
  refine ⟨s.icache.map flushLine, seqNext_one hready, fun k => ?_⟩
  rw [beginInstr_iterate, inSequence_icache, Function.iterate_add_apply,
    agedCache_iterate_of_within (n := 5) (linesWithin_flush s.icache), agedCache_iterate_nil]

/-! ### Interrupt bits -/

theorem getLsbD_bit (n : BitVec 4) (j : Nat) : (bit n).getLsbD j = decide (j = n.toNat) := by
  have hn : n.toNat < 16 := n.isLt
  rw [bit, ← BitVec.twoPow_eq, BitVec.getLsbD_twoPow, decide_eq_true hn, Bool.true_and]
  exact decide_eq_decide.2 eq_comm

/-- Settles O37. -/
theorem setintClrintEffect : Obligations.SetintClrintEffect := by
  intro s n hready
  refine ⟨_, _, seqNext_one hready, seqNext_one hready, fun j hj => ⟨?_, ?_⟩⟩
  · rw [BitVec.getLsbD_or, getLsbD_bit, Bool.or_comm]
  · rw [BitVec.getLsbD_and, BitVec.getLsbD_not, getLsbD_bit, Bool.and_comm, decide_eq_true hj, Bool.true_and]

/-! ### `NOP` and `IDLE` -/

/-- Settles O38: `seqNext_frame` lists what going on in sequence changes. -/
theorem nopEffect : Obligations.NopEffect := by
  intro s hready
  refine ⟨exec_nop_ready hready, ?_⟩
  obtain ⟨pc, lpstk, db, w, h⟩ := seqNext_frame (seqNext_one hready)
  exact ⟨pc, db, lpstk, w, h⟩

/-- Settles O39. -/
theorem idleEffect : Obligations.IdleEffect := by
  intro s hready
  rw [exec_idle, execIdle]
  constructor
  · intro hsleep
    rw [if_pos (by simpa using hsleep)]
    exact seqNext_one ((seqReady_withPower .sleep).2 hready)
  · intro hsleep
    rw [if_neg (by simpa using hsleep)]
    exact seqNext_one ((seqReady_withPower .idle).2 hready)

/-! ### `ENA` and `DIS` -/

theorem getLsbD_setBits (mask : Reg16) (v : Bool) (w : Reg16) {j : Nat} (hj : j < 16) :
    (setBits mask v w).getLsbD j = if mask.getLsbD j then v else w.getLsbD j := by
  cases v <;> cases hm : mask.getLsbD j <;> simp [-BitVec.getLsbD_eq_getElem, setBits, hm, hj]

/-- The `MSTAT` bits of a mode set (R31). -/
theorem getLsbD_modeMask (m : ModeSet) {j : Nat} (hj : j < 16) :
    (modeMask m).getLsbD j = [m.secReg, m.bitRev, m.avLatch, m.arSat, m.mMode, m.timer, m.secDag].getD j false := by
  have h := modesOf_modeBits { m with int := false }
  simp only [modesOf, ModeSet.mk.injEq] at h
  obtain ⟨h0, h1, h2, h3, h4, h5, h6, h7⟩ := h
  rw [modeMask, BitVec.getLsbD_setWidth, decide_eq_true hj, Bool.true_and]
  match j, hj with
  | 0, _ => exact h0
  | 1, _ => exact h1
  | 2, _ => exact h2
  | 3, _ => exact h3
  | 4, _ => exact h4
  | 5, _ => exact h5
  | 6, _ => exact h6
  | 7, _ => exact h7
  | j + 8, _ => exact BitVec.getLsbD_of_ge _ _ (by omega)

theorem globalEnableBit_getLsbD (j : Nat) : globalEnableBit.getLsbD j = decide (5 = j) := by
  rw [show globalEnableBit = BitVec.twoPow 16 5 from rfl, BitVec.getLsbD_twoPow]
  simp

/-- `ENA` and `DIS` write `MSTAT` with its windows and, for `INT`, `ICNTL` (R240, R241). -/
theorem setModes_eq (m : ModeSet) (v : Bool) (s : State) :
    setModes m v s =
      { s with
        mstat := setBits (modeMask m) v s.mstat
        icntl := if m.int then setBits globalEnableBit v s.icntl else s.icntl
        lags := (writeModes (modeMask m) v s).lags } := by
  cases hint : m.int <;> simp [setModes, hint, writeModes]

/-- Settles O41. -/
theorem modeControlEffect : Obligations.ModeControlEffect := by
  intro s m v hready named
  have hexec : exec (if v then .ena m else .dis m) s = .next (inSequence (setModes m v s)) := by
    have hready' : SeqReady (setModes m v s) := by
      rw [setModes_eq]
      exact hready
    cases v <;> exact seqNext_one hready'
  refine ⟨_, _, _, hexec.trans (by rw [setModes_eq]), fun j hj => ?_, fun j hj => ?_⟩
  · rw [getLsbD_setBits _ _ _ hj, getLsbD_modeMask m hj]
  · cases hint : m.int
    · simp
    · by_cases h5 : j = 5
      · subst h5
        simp only [if_true, getLsbD_setBits _ _ _ hj, globalEnableBit_getLsbD, decide_true, and_self]
      · simp only [if_true, getLsbD_setBits _ _ _ hj, globalEnableBit_getLsbD, h5, Ne.symm h5, decide_false, and_false,
          Bool.false_eq_true, if_false]

/-! ### The bank right after `ENA` and `DIS` -/

/-- A bit on which every older value agrees with the register is seen as it is. -/
theorem mstatSeen_getLsbD {j : Nat} (h : ∀ old ∈ oldsOf .mstat s, old.getLsbD j = s.mstat.getLsbD j) :
    (mstatSeen s).getLsbD j = s.mstat.getLsbD j := by
  have hfold : ∀ (olds : List Reg16) (u : Reg16), u.getLsbD j = false → (∀ old ∈ olds, old.getLsbD j = s.mstat.getLsbD j) →
      (olds.foldl (fun u old => u ||| (old ^^^ s.mstat)) u).getLsbD j = false := by
    intro olds
    induction olds with
    | nil => exact fun _ hu _ => hu
    | cons old olds ih =>
      intro u hu hall
      obtain ⟨hold, holds⟩ := List.forall_mem_cons.1 hall
      exact ih _ (by rw [BitVec.getLsbD_or, BitVec.getLsbD_xor, hu, hold, Bool.xor_self, Bool.false_or]) holds
  unfold mstatSeen
  dsimp only
  split
  · rfl
  · rw [BitVec.getLsbD_xor, BitVec.getLsbD_and, hfold _ 0 BitVec.getLsbD_zero h, Bool.false_and, Bool.xor_false]

/-- No older value of the bits that `ENA` or `DIS` names stays visible (R303). -/
theorem writeModes_olds {mask old : Reg16} {v : Bool} {j k : Nat} (hj : j < 16) (hmask : mask.getLsbD j = true)
    (h : old ∈ oldsAfter .mstat k (writeModes mask v s)) : old.getLsbD j = v := by
  obtain ⟨g, hg, rfl⟩ := List.mem_map.1 h
  obtain ⟨hlags, hreg⟩ := List.mem_filter.1 hg
  obtain ⟨g', -, rfl⟩ := List.mem_map.1 hlags
  by_cases hg' : g'.reg = .mstat
  · rw [if_pos hg', getLsbD_setBits _ _ _ hj, if_pos hmask]
  · simp [hg'] at hreg

/-- Settles O42. -/
theorem modeControlHasNoLatency : Obligations.ModeControlHasNoLatency := by
  intro s u m hsec
  have hmask : (modeMask m).getLsbD 6 = true := (getLsbD_modeMask m (by omega)).trans hsec
  have hbank : ∀ v, (∃ pc lpstk db w, u = { setModes m v s with pc := pc, lpstk := lpstk, db := db, sstatLag := w }) →
      secondaryDag (beginInstr u) = v := by
    rintro v ⟨pc, lpstk, db, w, rfl⟩
    have hmstat : (setModes m v s).mstat.getLsbD 6 = v := by
      rw [setModes_eq, getLsbD_setBits _ _ _ (by omega), if_pos hmask]
    refine (mstatSeen_getLsbD fun old hold => ?_).trans hmstat
    rw [oldsOf_beginInstr] at hold
    have hlags : (setModes m v s).lags = (writeModes (modeMask m) v s).lags := by rw [setModes_eq]
    refine (writeModes_olds (s := s) (k := 1) (by omega) hmask ?_).trans hmstat.symm
    simpa only [oldsAfter, hlags] using hold
  constructor
  · intro h
    obtain ⟨u', rfl, hgo⟩ := exec_work h
    exact hbank true hgo.frame
  · intro h
    obtain ⟨u', rfl, hgo⟩ := exec_work h
    exact hbank false hgo.frame

end Sys2Proof.Machine
end

section
/-! Interrupts: events, acceptance, entry and return (`60_exceptions.md` R251 to R262). -/

namespace Sys2Proof.Machine

open Sys2Proof.Safety

variable {s t : State}

/-! ### Events and loads of `ICNTL` -/

/-- Settles O48. -/
theorem eventsLatchOrAreLost : Obligations.EventsLatchOrAreLost := by
  intro s n
  refine ⟨fun hoff hn => ?_, fun hon => ?_, fun hoff => ?_, fun hon => ?_⟩
  · exact if_neg (by simpa [-BitVec.getLsbD_eq_getElem, hoff] using hn)
  · exact if_pos (by simpa [-BitVec.getLsbD_eq_getElem] using hon)
  · exact if_neg (by simp [-BitVec.getLsbD_eq_getElem, hoff])
  · simp only [takeEvent, hon, Bool.true_and]

/-- Settles O49: the two branches of `loadIcntl`. -/
theorem spillFillSpuriousInterrupt : Obligations.SpillFillSpuriousInterrupt := by
  intro s v
  simp only [writeReg, loadIcntl, Bool.and_eq_true]
  split
  · exact ⟨rfl, rfl⟩
  · exact ⟨rfl, rfl⟩

/-- The environment latches interrupts and uses up its schedule (R252). -/
theorem takeEvents_frame (s : State) : ∃ irptl events, takeEvents s = { s with irptl := irptl, events := events } := by
  have hevent : ∀ (e : EnvEvent) (u : State), ∃ irptl, takeEvent e u = { u with irptl := irptl } := by
    intro e u
    unfold takeEvent
    split <;> split <;> exact ⟨_, rfl⟩
  have hlist : ∀ (es : List EnvEvent) (u : State), ∃ irptl, takeEventList es u = { u with irptl := irptl } := by
    intro es
    induction es with
    | nil => exact fun u => ⟨u.irptl, rfl⟩
    | cons e es ih =>
      intro u
      obtain ⟨irptl, he⟩ := hevent e u
      obtain ⟨irptl', hes⟩ := ih (takeEvent e u)
      exact ⟨irptl', by rw [takeEventList, hes, he]⟩
  unfold takeEvents
  split
  · exact ⟨s.irptl, s.events, rfl⟩
  · rename_i es rest _
    obtain ⟨irptl, h⟩ := hlist es { s with events := rest }
    exact ⟨irptl, rest, h⟩

@[simp] theorem takeEvents_power (s : State) : (takeEvents s).power = s.power := by
  obtain ⟨_, _, h⟩ := takeEvents_frame s
  rw [h]

@[simp] theorem takeEvents_pc (s : State) : (takeEvents s).pc = s.pc := by
  obtain ⟨_, _, h⟩ := takeEvents_frame s
  rw [h]

/-! ### Acceptance -/

theorem irqNumbers_getElem : ∀ i (h : i < irqNumbers.length), irqNumbers[i] = BitVec.ofNat 4 i := by decide

/-- The numbers are tried in ascending order (R256). -/
theorem find_irqNumbers_iff {p : BitVec 4 → Bool} {n : BitVec 4} :
    irqNumbers.find? p = some n ↔ p n = true ∧ ∀ k, k < n → ¬p k = true := by
  have hlen : irqNumbers.length = 16 := rfl
  rw [List.find?_eq_some_iff_getElem]
  refine and_congr_right fun _ => ⟨?_, fun hlow => ?_⟩
  · rintro ⟨i, hi, rfl, hlow⟩ k hk
    rw [irqNumbers_getElem, BitVec.lt_def, BitVec.toNat_ofNat, Nat.mod_eq_of_lt (by omega)] at hk
    have hk' := hlow k.toNat hk
    rw [irqNumbers_getElem, BitVec.ofNat_toNat, BitVec.setWidth_eq] at hk'
    simpa using hk'
  · refine ⟨n.toNat, hlen ▸ n.isLt, by rw [irqNumbers_getElem, BitVec.ofNat_toNat, BitVec.setWidth_eq], fun j hj => ?_⟩
    have hj' : (BitVec.ofNat 4 j) < n := by
      rw [BitVec.lt_def, BitVec.toNat_ofNat, Nat.mod_eq_of_lt (by omega)]
      exact hj
    rw [irqNumbers_getElem]
    simpa using hlow _ hj'

theorem mem_irqNumbers : ∀ n : BitVec 4, n ∈ irqNumbers := by decide

/-- The acceptance check takes the lowest serviceable number, outside delay slots (R254 to R256). -/
theorem accepted_eq_some_iff {n : BitVec 4} :
    accepted s = some n ↔ s.db = none ∧ serviceable s n = true ∧ ∀ k, k < n → ¬serviceable s k = true := by
  unfold accepted
  cases s.db with
  | some _ => simp
  | none => rw [find_irqNumbers_iff, and_iff_right rfl]

theorem accepted_eq_none_iff : accepted s = none ↔ s.db ≠ none ∨ ∀ n, ¬serviceable s n = true := by
  unfold accepted
  cases s.db with
  | some _ => simp
  | none => simp [List.find?_eq_none, mem_irqNumbers]

/-- The three conditions of R254 on the registers themselves, once no window is open. -/
theorem serviceable_iff_of_noWindow {n : BitVec 4} (hc : NoWindow .icntl s) (hm : NoWindow .imask s) (hp : NoWindow .irptl s) :
    serviceable s n = true ↔
      s.irptl.getLsbD n.toNat = true ∧
        (n = 0 ∨ s.icntl.getLsbD 5 = true ∧ s.imask.getLsbD n.toNat = true) ∧
          ∀ h ∈ s.insvc.head?, s.icntl.getLsbD 4 = true ∧ n < h := by
  have hicntl : icntlSeen s = s.icntl := by rw [icntlSeen, hc, drawFrom_nil]
  have himask : imaskSeen s = s.imask := by rw [imaskSeen, hm, drawFrom_nil]
  have hirptl : irptlSeen s = s.irptl := by rw [irptlSeen, hp, drawFrom_nil]
  rw [serviceable, hicntl, himask, hirptl]
  cases s.insvc <;> simp [-BitVec.getLsbD_eq_getElem, and_assoc]

/-- Settles O43. -/
theorem acceptedInterrupt : Obligations.AcceptedInterrupt := by
  intro s hc hm hp ready
  have hready : ∀ n, serviceable s n = true ↔ ready n := fun n => serviceable_iff_of_noWindow hc hm hp
  simp only [accepted_eq_some_iff, accepted_eq_none_iff, hready]
  exact ⟨fun _ => trivial, trivial⟩

/-! ### Entry -/

/-- Entry with room on both stacks (R260). -/
theorem enterInterrupt_of_room (n : BitVec 4) (hpc : PcRoom s) (hsts : StsRoom s) :
    ∃ w u, u = withPcStack (s.pc :: s.pcstk) s.cfg.pcHighWater (beginStep s) ∧
      enterInterrupt n s =
        { u with
          sstatLag := w
          stsstk := { astat := s.astat, mstat := s.mstat } :: s.stsstk
          irptl := u.irptl &&& ~~~bit n
          insvc := n :: s.insvc
          pc := if n = 14 then 0x0001C0 else s.cfg.vectors[n.toNat]
          power := .running } := by
  have hpush : stsPush { astat := s.astat, mstat := s.mstat } (pcPush s.pc { beginStep s with power := .running }) =
      { withPcStack (s.pc :: s.pcstk) s.cfg.pcHighWater (beginStep s) with
        power := .running
        stsstk := { astat := s.astat, mstat := s.mstat } :: s.stsstk } := by
    rw [pcPush_of_room (s := { beginStep s with power := .running }) _ hpc]
    exact stsPush_of_room _ hsts
  rw [enterInterrupt]
  simp only [hpush]
  exact ⟨_, _, rfl, rfl⟩

/-- At a boundary of a core that is not asleep the accepted interrupt is entered (R254, R230). -/
theorem coreStep_of_accepted {n : BitVec 4} (h : accepted s = some n) (hp : s.power ≠ .sleep) :
    coreStep s = .next (enterInterrupt n s) := by
  unfold coreStep
  cases hpow : s.power with
  | sleep => exact absurd hpow hp
  | running => simp [h]
  | idle => simp [h]
  | slowIdle d => simp [h]

/-- Settles O44. -/
theorem interruptEntry : Obligations.InterruptEntry := by
  intro s n hacc hpow hpc hsts
  obtain ⟨w, u, hu, hentry⟩ := enterInterrupt_of_room n hpc hsts
  refine ⟨w, u, hu, ?_⟩
  rw [step, coreStep_of_accepted hacc (by simpa using hpow), hentry]

/-- Settles O47. -/
theorem idleLeftOnlyByEntry : Obligations.IdleLeftOnlyByEntry := by
  intro s
  constructor
  · intro hidle
    cases hacc : accepted (takeEvents s) with
    | some n =>
      refine .inl ⟨n, rfl, coreStep_of_accepted hacc ?_⟩
      rw [takeEvents_power]
      intro hsleep
      simp [hsleep] at hidle
    | none =>
      refine .inr ⟨rfl, ?_, by simp, by simp⟩
      rw [step, coreStep]
      rcases hidle with hidle | ⟨d, hidle⟩ <;> simp [hidle, hacc]
  · intro hsleep
    rw [step, coreStep]
    simp [hsleep]

/-- Settles O45: `RTI` pops what the entry pushed (`rtiTaken`). -/
theorem rtiUndoesEntry : Obligations.RtiUndoesEntry := by
  intro s n hpc hsts hdb hlost hin
  obtain ⟨w, u, hu, hentry⟩ := enterInterrupt_of_room n hpc hsts
  have hin' : insideLoop (beginInstr (enterInterrupt n s)).pc (beginInstr (enterInterrupt n s)) = false := by
    rw [hentry, hu]
    exact (insideLoop_congr rfl rfl rfl).trans hin
  obtain ⟨w', hrti⟩ := rtiTaken (beginInstr (enterInterrupt n s)) .always false false s.pc s.pcstk
    { astat := s.astat, mstat := s.mstat } s.stsstk rfl (by simp) (by rw [hentry, hu]; exact hpc.1) (by rw [hentry, hu]; rfl)
    (by rw [hentry, hu]; exact hsts.1) (by rw [hentry]; rfl) hin'
    (branchReady_ret_of_outside (by rw [hentry, hu]; exact hdb) (by rw [hentry, hu]; exact hlost) hin')
  refine ⟨_, hrti, rfl, rfl, rfl, rfl, rfl, ?_, ?_, ?_, ?_⟩
  · rw [hentry]; rfl
  · rw [hentry, hu]; rfl
  · rw [hentry, hu]; exact hdb
  · rw [hentry]; rfl

end Sys2Proof.Machine
end

section
/-! The step: what is fetched, and that the step runs it (`20_memory.md` R72, R78; `40_conditions_and_branch_options.md` R134). -/

namespace Sys2Proof

variable {i : Instr}

/-! ### Lengths (R74) -/

theorem encode_length (i : Instr) : (encode i).length = match i.len with | .one => 1 | .two => 2 := by
  cases i <;> rfl

/-- The first word of a core instruction gives its length. -/
theorem lengthOf_of_decode {w : PWord} {tail rest : List PWord} (h : decode (w :: tail) = .ok (.core i, rest)) : lengthOf w = i.len := by
  simp only [decode] at h
  split at h
  · cases h
  · rename_i j hj
    cases h
    have hlen := encode_length i
    rw [show encode i = [w] from encode_decodeFirst hj] at hlen
    rw [lengthOf_whole hj]
    cases hi : i.len with
    | one => rfl
    | two => simp [hi] at hlen
  · cases h
  · rename_i c hc
    split at h
    · cases h
    · cases h
      simp [lengthOf, hc, Instr.len]
  · rename_i c hc
    split at h
    · cases h
    · cases h
      simp [lengthOf, hc, Instr.len]
  · split at h <;> cases h

theorem ofLength_eq_ok {n : WordCount} {f : Option Fetched} {g : Fetched} {ws rest : List PWord}
    (h : ofLength n f ws = .ok (g, rest)) : g.len = n := by
  unfold ofLength at h
  split at h
  · cases h
  · split at h
    · cases h
      assumption
    · cases h

/-- By whichever `DECODE`, the first word gives the length of what is decoded (R74, R90). -/
theorem lengthBy_of_decodeBy {c : Coding} {w : PWord} {tail rest : List PWord}
    (h : decodeBy c (w :: tail) = .ok (.core i, rest)) : lengthBy c w = i.len := by
  cases c with
  | numbering => exact lengthOf_of_decode h
  | chip =>
    simp only [decodeBy, decodeChip] at h
    split at h
    · rename_i htwo
      split at h
      · cases h
      · exact (if_pos htwo).trans (ofLength_eq_ok h).symm
    · rename_i hone
      exact (if_neg hone).trans (ofLength_eq_ok h).symm

/-- Of two words, an instruction that decodes from them takes those of its length. -/
theorem decode_own_words {w1 w2 : PWord} {rest : List PWord} (h : decode [w1, w2] = .ok (.core i, rest)) :
    decode (if i.len = .two then [w1, w2] else [w1]) = .ok (.core i, []) := by
  have hwords : (if i.len = .two then [w1, w2] else [w1]) = encode i := by
    have hlist := encode_of_decode h
    have hlen := encode_length i
    cases hi : i.len with
    | one =>
      obtain ⟨w, hw⟩ := List.length_eq_one_iff.1 (hlen.trans (by rw [hi]))
      rw [hw, List.singleton_append, List.cons.injEq] at hlist
      rw [hw, hlist.1]
      rfl
    | two =>
      obtain ⟨u, v, huv⟩ := List.length_eq_two.1 (hlen.trans (by rw [hi]))
      rw [huv, List.cons_append, List.singleton_append, List.cons.injEq, List.cons.injEq] at hlist
      rw [huv, hlist.1, hlist.2.1]
      rfl
  rw [hwords, ← List.append_nil (encode i), decode_encode]

end Sys2Proof

namespace Sys2Proof.Machine

open Sys2Proof.Safety

variable {s t : State} {i : Instr}

/-! ### The fetch -/

/-- The words that decode to an instruction are the ones the fetch of it decodes. -/
theorem instrOf_of_decodeBy {c : Coding} {w1 w2 : PWord} {second : Option PWord}
    (h : decodeBy c (if i.len = .two then [w1, w2] else [w1]) = .ok (.core i, [])) (hsecond : i.len = .two → second = some w2) :
    instrOf c (some w1) second = .ok (.core i) := by
  cases hlen : i.len with
  | one =>
    rw [hlen, if_neg (by simp)] at h
    simp [instrOf, lengthBy_of_decodeBy h, hlen, decoded, h]
  | two =>
    rw [hlen, if_pos rfl] at h
    simp [instrOf, lengthBy_of_decodeBy h, hlen, hsecond hlen, decoded, h]

/-- With nothing stale in the cache, memory is fetched. -/
theorem fetchWord_of_fresh {a : Addr} (x : Site) (h : staleWords a s = []) : fetchWord x a s = s.mem.readWord a := by
  rw [fetchWord, h]
  cases s.mem.readWord a <;> rfl

theorem staleWords_of_empty (a : Addr) (h : s.icache = []) : staleWords a s = [] := by simp [staleWords, h]

theorem staleWords_eq_nil {a : Addr} (h : ∀ c ∈ s.icache, c.addr ≠ a) : staleWords a s = [] := by
  simpa [staleWords] using h

theorem fetch_of_fresh (h1 : staleWords s.pc s = []) (h2 : staleWords (s.pc + 1) s = []) :
    fetch s = instrOf s.cfg.coding (s.mem.readWord s.pc) (s.mem.readWord (s.pc + 1)) := by
  rw [fetch, fetchWord_of_fresh _ h1, fetchWord_of_fresh _ h2]

/-! ### The step -/

/-- A running core that accepts no interrupt executes (R254). -/
theorem coreStep_running (hrun : s.power = .running) (hacc : accepted s = none) : coreStep s = runInstr s := by
  simp [coreStep, hrun, hacc]

theorem runInstr_of_admitted (hf : fetch s = .ok (.core i)) (ha : admission i s = none) :
    runInstr s = exec i (beginInstr (noteText (.core i) s)) := by
  simp [runInstr, hf, ha]

/-- Settles O50. -/
theorem stepRunsDecodedInstruction : Obligations.StepRunsDecodedInstruction := by
  intro s i w1 w2 t hrun hacc hcache hw1 hw2 hdecode hadm
  have hfetch : fetch t = .ok (.core i) := by
    rw [fetch_of_fresh (staleWords_of_empty _ hcache) (staleWords_of_empty _ hcache), hw1]
    exact instrOf_of_decodeBy hdecode hw2
  rw [step, coreStep_running ((takeEvents_power s).trans hrun) hacc, runInstr_of_admitted hfetch hadm]

/-- Settles O51. -/
theorem placedInstructionIsFetched : Obligations.PlacedInstructionIsFetched := by
  intro s nbits w i h
  obtain ⟨rest, hwords⟩ : ∃ rest, decode [(tableWords nbits w).1, (tableWords nbits w).2] = .ok (.core i, rest) := by
    simp only [decodeTableWord] at h
    split at h
    · cases h
      exact ⟨_, by assumption⟩
    · cases h
  have hne : s.pc ≠ s.pc + 1 := by simp
  have hfresh : ∀ a, a = s.pc ∨ a = s.pc + 1 → staleWords a (s.withFetchWord nbits w) = [] := by
    intro a ha
    refine staleWords_eq_nil fun c hc hca => ?_
    have hkept := (List.mem_filter.1 hc).2
    subst hca
    rcases ha with ha | ha <;> simp [ha] at hkept
  rw [fetch_of_fresh (hfresh _ (.inl rfl)) (hfresh _ (.inr rfl))]
  have h1 : (s.withFetchWord nbits w).mem.readWord s.pc = some (tableWords nbits w).1 :=
    (Memory.readWord_writeWord_ne _ _ hne).trans (Memory.readWord_writeWord _ _ _)
  have h2 : (s.withFetchWord nbits w).mem.readWord (s.pc + 1) = some (tableWords nbits w).2 := Memory.readWord_writeWord _ _ _
  exact (congrArg₂ _ h1 h2).trans (instrOf_of_decodeBy (decode_own_words hwords) fun _ => rfl)

/-! ### Stored words -/

/-- Settles O53: the store leaves one older word for its address, and the draws are those before it. -/
theorem storedWordIsFetchedOldOrNew : Obligations.StoredWordIsFetchedOldOrNew := by
  intro s x a v w hv hfresh t
  have hcache : t.icache = { addr := a, word := v, left := none } :: s.icache := by
    simp only [t, applyEffect, staleAfterStore, hv]
  have hmem : t.mem = s.mem.writeWord a w := rfl
  refine ⟨?_, fun b hb => ⟨?_, fun j hj => ?_⟩, fun hwf => ?_⟩
  · have hstale : staleWords a t = [v] := by simpa [staleWords, hcache] using hfresh
    rw [fetchWord, hmem, Memory.readWord_writeWord, hstale]
    exact ⟨_, rfl, (drawFrom_one x t w v).symm⟩
  · have hstale : staleWords b t = staleWords b s := by simp [staleWords, hcache, hb.symm]
    rw [fetchWord, hmem, Memory.readWord_writeWord_ne _ _ hb, hstale]
    rfl
  · exact Memory.readByte_writeWord_ne _ _ hb hj
  · exact Memory.wf_writeWord _ _ _ hwf

end Sys2Proof.Machine
end

section
/-! What a program may not hold where it stands (`30_encoding.md` R110, R111; `40_conditions_and_branch_options.md` R131 to R133;
`41_loops.md` R157, R160). -/

namespace Sys2Proof.Machine

open Sys2Proof.Safety

variable {s t : State} {i : Instr} {a start last : Addr}

/-! ### Admission -/

theorem runInstr_of_refused {r : Refusal} (hf : fetch s = .ok (.core i)) (ha : admission i s = some r) : runInstr s = .refused r := by
  simp [runInstr, hf, ha]

theorem inSlot_iff : inSlot s = true ↔ s.db ≠ none ∨ behindBranch s.pc s = true := by
  cases h : s.db <;> simp [inSlot, h]

theorem admission_of_problem {p : IllFormed} (h : i.problem = some p) : admission i s = some (.illFormed p) := by
  simp [admission, h]

theorem admission_of_barred (hp : i.problem = none) (hslot : inSlot s = true) (hb : barredInSlot i = true) :
    admission i s = some .barredInDelaySlot := by
  simp [admission, hp, hslot, hb]

/-- The rules about loops count where the slot rule does not apply. -/
theorem admission_of_near (hp : i.problem = none) (hslot : (inSlot s && barredInSlot i) = false) (hop : isStackOp i = true)
    (hnear : nearLoopEnd i s = true) : admission i s = some .stackOpNearLoopEnd := by
  simp only [admission, hp]
  rw [if_neg (by simp [hslot]), if_pos (by simp [hop, hnear])]

theorem admission_of_shared (hp : i.problem = none) (hslot : (inSlot s && barredInSlot i) = false)
    (hnear : (isStackOp i && nearLoopEnd i s) = false) (hshare : sharesLoopEnd i s = true) :
    admission i s = some .sharedLoopEnd := by
  simp only [admission, hp]
  rw [if_neg (by simp [hslot]), if_neg (by simp [hnear]), if_pos hshare]

theorem admission_of_allowed (hp : i.problem = none) (hslot : (inSlot s && barredInSlot i) = false)
    (hnear : (isStackOp i && nearLoopEnd i s) = false) (hshare : sharesLoopEnd i s = false) : admission i s = none := by
  simp only [admission, hp]
  rw [if_neg (by simp [hslot]), if_neg (by simp [hnear]), if_neg (by simp [hshare])]

/-! ### The last lines of a loop -/

/-- The `k`-th of one-word instructions is reached with the `k`-th step. -/
theorem reaches_of_words {c : Coding} {m : Memory} {k n : Nat} (hk : k < n)
    (hwords : ∀ j, j < k → ∃ w, m.readWord (a + BitVec.ofNat 24 j) = some w ∧ lengthBy c w = .one) :
    reaches c m n a (a + BitVec.ofNat 24 k) = true := by
  induction k generalizing n a with
  | zero =>
    obtain ⟨n, rfl⟩ := Nat.exists_eq_add_one.2 hk
    simp [reaches]
  | succ k ih =>
    obtain ⟨n, rfl⟩ := Nat.exists_eq_add_one.2 (Nat.lt_of_le_of_lt (Nat.zero_le _) hk)
    have hnext : ∀ j, a + 1 + BitVec.ofNat 24 j = a + BitVec.ofNat 24 (j + 1) := by
      intro j
      rw [BitVec.add_assoc, BitVec.ofNat_add, BitVec.add_comm (BitVec.ofNat 24 j)]
      rfl
    obtain ⟨w, hw, hlen⟩ := hwords 0 (Nat.succ_pos k)
    rw [BitVec.add_zero] at hw
    simp only [reaches]
    split
    · rfl
    · rw [← hnext]
      simp only [hw, hlen]
      exact ih (by omega) fun j hj => by
        rw [show a + wordsOf .one + BitVec.ofNat 24 j = a + BitVec.ofNat 24 (j + 1) from hnext j]
        exact hwords (j + 1) (by omega)

/-- A loop whose last lines bind `PUSH` and `POP` (R157): on the loop stacks, of the program text, or the one the instruction arms. -/
theorem nearLoopEnd_of_line
    (hline : (∃ r ∈ s.lpstk, r.start = start ∧ r.last = last) ∨
      (∃ l ∈ textLoops s, l.site + 1 = start ∧ l.last = last) ∨ armsLoop i s = some (start, last))
    (hnear : amongLastLines (start, last) s.pc s = true) : nearLoopEnd i s = true := by
  rw [nearLoopEnd, Bool.or_eq_true, nearTextLoopEnd, List.any_eq_true, List.any_eq_true]
  rcases hline with ⟨r, hr, rfl, rfl⟩ | ⟨l, hl, rfl, rfl⟩ | harms
  · exact .inr ⟨_, List.mem_append_left _ (List.mem_map.2 ⟨r, hr, rfl⟩), hnear⟩
  · exact .inl ⟨l, hl, hnear⟩
  · exact .inr ⟨_, List.mem_append_right _ (by simp [harms]), hnear⟩

theorem sharesLoopEnd_iff :
    sharesLoopEnd i s = true ↔
      (∃ l ∈ loopSiteOf i s.pc, ∃ q ∈ textLoops s, q.site ≠ s.pc ∧ q.last = l.last) ∨
        ∃ l, armsLoop i s = some l ∧ ∃ r ∈ s.lpstk, r.last = l.2 := by
  cases h : armsLoop i s <;> simp [sharesLoopEnd, sharesTextEnd, h]

/-- What neither arms a loop nor goes on the stacks meets the slot rule only. -/
theorem sharesLoopEnd_of_no_loop (hl : loopSiteOf i s.pc = []) (ha : armsLoop i s = none) : sharesLoopEnd i s = false := by
  simp [sharesLoopEnd, sharesTextEnd, hl, ha]

/-! ### Two words in the second slot -/

theorem db_of_invPart (h : invPart t = invPart s) : t.db = s.db := by
  simp only [invPart, Prod.mk.injEq] at h
  obtain ⟨-, -, -, -, -, -, -, -, -, hdb, -⟩ := h
  exact hdb

theorem applyEffect_db (e : OtherEffect) (s : State) : (applyEffect e s).db = s.db := by
  cases e with
  | load r v => exact db_of_invPart (writeReg_invPart r v s)
  | move dst src => exact db_of_invPart ((afterRead_invPart src _).trans (writeReg_invPart dst _ s))
  | loadMr v => exact db_of_invPart (onData_invPart _ s)
  | loadSr v => exact db_of_invPart (onData_invPart _ s)
  | storeWord a w => rfl
  | sleepBits armed => rfl

/-- An instruction of another chapter leaves the pending branch to the sequencer (D2). -/
theorem applyEffects_db (es : List OtherEffect) (s : State) : (applyEffects es s).db = s.db := by
  induction es generalizing s with
  | nil => rfl
  | cons e es ih => exact (ih _).trans (applyEffect_db e s)

theorem behindBranch_iff : behindBranch a s = true ↔ a - 1 ∈ branchPlaces s ∨ a - 2 ∈ branchPlaces s := by
  simp [behindBranch]

/-- An instruction of another chapter is noted as no branch; another place of the program text stays. -/
theorem mem_branchPlaces_noteText_other {n : WordCount} (ha : a ≠ s.pc) (h : a ∈ branchPlaces s) :
    a ∈ branchPlaces (noteText (.other n) s) := by
  rw [mem_branchPlaces] at h ⊢
  rcases h with h | h
  · exact .inl (by simpa [ha] using h)
  · exact .inr h

theorem seqNext_two_second_slot {target : Addr} (h : s.db = some ⟨.one, target⟩) :
    seqNext .two s = .refused .twoWordInSecondSlot := by
  simp [seqNext, h]

theorem branchPlaces_beginInstr (s : State) : branchPlaces (beginInstr s) = branchPlaces s := rfl

theorem runInstr_two_words_second_slot (hf : fetch s = .ok (.other .two)) (ho : s.others ≠ [])
    (hslot : s.pc - 2 ∈ branchPlaces s ∨ ∃ t, s.db = some ⟨.one, t⟩) : runInstr s = .refused .twoWordInSecondSlot := by
  obtain ⟨es, rest, hothers⟩ := List.exists_cons_of_ne_nil ho
  have hrun : runInstr s = runOther .two (beginInstr (noteText (.other .two) s)) := by simp only [runInstr, hf]
  rw [hrun, runOther, beginInstr_others, noteText_others, hothers, beginInstr_pc, noteText_pc, branchPlaces_beginInstr]
  by_cases hplace : s.pc - 2 ∈ branchPlaces (noteText (.other .two) s)
  · exact if_pos (by simpa using hplace)
  · have hne : s.pc - 2 ≠ s.pc := by
      have hpc := s.pc.isLt
      intro h
      bv_omega
    obtain ⟨t, hdb⟩ := hslot.resolve_left (mt (mem_branchPlaces_noteText_other hne) hplace)
    refine (if_neg (by simpa using hplace)).trans ?_
    exact seqNext_two_second_slot ((applyEffects_db _ _).trans ((noteText_db (s := s) (Fetched.other .two)).trans hdb))

/-! ### Calls and returns -/

/-- A call that is taken in the last line of a loop (R157). -/
theorem exec_call_at_end (hcall : isCall i = true) (htrue : (evalCond (conditionOf i) s).1 = true) (hdb : s.db = none)
    (hl : s.lpLost = false) (hend : endsLoop s.pc s = true) : exec i s = .refused .branchAtLoopEnd := by
  have hrefused : ∀ (c : Cond) (n : WordCount) (d : Bool) (a : Addr),
      branchTo .call n d a (callPush n d (evalCond c s).2) = .refused .branchAtLoopEnd := fun c n d a =>
    ((standsAt_evalCond c s).callPush n d).branchTo_refused (branchTo_call_at_end hdb hl hend)
  cases i with
  | callRel16 imm db => exact ((StandsAt.refl s).callPush .one db).branchTo_refused (branchTo_call_at_end hdb hl hend)
  | lcall c a => rw [exec_lcall, execLcall, ifCond_true (c := c) htrue, hrefused]
  | callInd c r db => rw [exec_callInd, execCallInd, ifCond_true (c := c) htrue, hrefused]
  | _ => cases hcall

/-- A return that is taken inside a loop (R157). -/
theorem exec_return_inside (hret : isReturn i = true) (htrue : (evalCond (conditionOf i) s).1 = true)
    (hemu : s.cfg.emulation = false) (hin : insideLoop s.pc s = true) : exec i s = .refused .returnInsideLoop := by
  have hrefused : ∀ (c : Cond) (pop : State → Except Fault (Addr × State)) (db : Bool),
      returnBy pop db (evalCond c s).2 = .refused .returnInsideLoop := fun c pop db =>
    returnBy_inside ((standsAt_evalCond c s).insideLoop.trans hin)
  cases i with
  | rts c db => rw [exec_rts, execRts, ifCond_true (c := c) htrue, hrefused]
  | rti c db ss => rw [exec_rti, execRti, ifCond_true (c := c) htrue, if_neg (by simp [hemu]), hrefused]
  | _ => cases hret

/-! ### The check over the program (R111) -/

/-- The noting of an instruction leaves every loop of another place. -/
theorem mem_textLoops_noteText_core {l : LoopSite} (h : l ∈ textLoops s) (hl : l.site ≠ s.pc) :
    l ∈ textLoops (noteText (.core i) s) := by
  rw [mem_textLoops] at h ⊢
  rcases h with h | h
  · exact .inl (by simp [h, hl])
  · exact .inr h

/-- What is no `POP LOOP` is noted as none. -/
theorem mem_popPlaces_of_noteText_core (hi : isPopLoop i = false) (h : a ∈ popPlaces (noteText (.core i) s)) : a ∈ popPlaces s := by
  rw [mem_popPlaces] at h ⊢
  rcases h with h | h
  · refine .inl ?_
    rw [noteText_core_popSites, hi, if_neg Bool.false_ne_true] at h
    exact (List.mem_filter.1 h).1
  · exact .inr h

theorem endsLoop_of_endsTextLoop (h : endsTextLoop s.pc s = true) : endsLoop s.pc (beginInstr (noteText (.core i) s)) = true := by
  rw [endsTextLoop, List.any_eq_true] at h
  obtain ⟨l, hl, hlast⟩ := h
  simp only [Bool.and_eq_true, decide_eq_true_eq] at hlast
  exact endsLoop_iff.2 (.inr ⟨l, mem_textLoops_noteText_core hl hlast.1, hlast.2⟩)

theorem insideLoop_of_insideTextLoop (hi : isPopLoop i = false) (h : insideTextLoop s.pc s = true) :
    insideLoop s.pc (beginInstr (noteText (.core i) s)) = true := by
  rw [insideTextLoop, List.any_eq_true] at h
  obtain ⟨l, hl, hin⟩ := h
  simp only [Bool.and_eq_true, decide_eq_true_eq, within, Bool.not_eq_true', List.any_eq_false] at hin
  obtain ⟨⟨hsite, hin⟩, hpops⟩ := hin
  exact insideLoop_iff.2 (.inr ⟨l, mem_textLoops_noteText_core hl hsite, hsite, hin,
    fun b hb => hpops b (mem_popPlaces_of_noteText_core hi hb)⟩)

/-- `DO UNTIL` is no `PUSH` and no `POP`. -/
theorem isStackOp_of_sharesTextEnd (h : sharesTextEnd i a s = true) : isStackOp i = false := by
  cases i with
  | doUntil imm term => rfl
  | _ => cases h

/-- What a call or a return may break at its place are the rules about calls and returns only. -/
theorem admission_call_or_return (hp : i.problem = none) (hslot : (inSlot s && barredInSlot i) = false)
    (hi : isCall i = true ∨ isReturn i = true) : admission i s = none := by
  have hop : isStackOp i = false ∧ loopSiteOf i s.pc = [] ∧ armsLoop i s = none := by
    cases i <;> simp_all [isCall, isReturn, isStackOp, loopSiteOf, armsLoop]
  obtain ⟨hop, hsite, harms⟩ := hop
  exact admission_of_allowed hp hslot (by simp [hop]) (sharesLoopEnd_of_no_loop hsite harms)

theorem isPopLoop_of_isReturn (h : isReturn i = true) : isPopLoop i = false := by
  cases i with
  | rti c db ss => rfl
  | rts c db => rfl
  | _ => cases h

theorem instrAt_eq_some_iff {c : Coding} {m : Memory} {f : Fetched} :
    instrAt c m a = some f ↔ instrOf c (m.readWord a) (m.readWord (a + 1)) = .ok f := by
  unfold instrAt
  cases instrOf c (m.readWord a) (m.readWord (a + 1)) <;> simp [Except.toOption]

/-- The step refuses what the check over the program reports, where it stands. -/
theorem runInstr_of_placeProblem {f : Fetched} {r : Refusal} (hf : fetch s = .ok f) (hr : placeProblem f s.pc s = some r)
    (hdb : s.db = none) (ho : s.others ≠ []) (hl : s.lpLost = false) (hemu : s.cfg.emulation = false)
    (hcond : ∀ i, f = .core i → (evalCond (conditionOf i) (beginInstr (noteText (.core i) s))).1 = true) :
    runInstr s = .refused r := by
  have hslot : inSlot s = behindBranch s.pc s := by simp [inSlot, hdb]
  unfold placeProblem at hr
  split at hr
  · cases hr
  · split at hr
    · rename_i hplace
      cases hr
      exact runInstr_two_words_second_slot hf ho (.inl (by simpa using hplace))
    · cases hr
  · rename_i i
    split at hr
    · rename_i p hp
      cases hr
      exact runInstr_of_refused hf (admission_of_problem hp)
    · rename_i hp
      split at hr
      · rename_i hb
        cases hr
        rw [Bool.and_eq_true] at hb
        exact runInstr_of_refused hf (admission_of_barred hp (hslot.trans hb.1) hb.2)
      rename_i hb
      have hb' : (inSlot s && barredInSlot i) = false := by simpa [hslot] using hb
      split at hr
      · rename_i hnear
        cases hr
        rw [Bool.and_eq_true] at hnear
        exact runInstr_of_refused hf (admission_of_near hp hb' hnear.1 (by simp [nearLoopEnd, hnear.2]))
      split at hr
      · rename_i hshare
        cases hr
        exact runInstr_of_refused hf
          (admission_of_shared hp hb' (by simp [isStackOp_of_sharesTextEnd hshare]) (by simp [sharesLoopEnd, hshare]))
      split at hr
      · rename_i hcall
        cases hr
        rw [Bool.and_eq_true] at hcall
        rw [runInstr_of_admitted hf (admission_call_or_return hp hb' (.inl hcall.1))]
        exact exec_call_at_end hcall.1 (hcond i rfl) (by simpa using hdb) (by simpa using hl)
          (by simpa using endsLoop_of_endsTextLoop hcall.2)
      split at hr
      · rename_i hret
        cases hr
        rw [Bool.and_eq_true] at hret
        rw [runInstr_of_admitted hf (admission_call_or_return hp hb' (.inr hret.1))]
        exact exec_return_inside hret.1 (hcond i rfl) (by simpa using hemu)
          (by simpa using insideLoop_of_insideTextLoop (isPopLoop_of_isReturn hret.1) hret.2)
      · cases hr

/-- Settles O52: the terms of the statement are the places the model looks at, and each clause is one branch of `admission`; the last
is `runInstr_of_placeProblem`. -/
theorem forbiddenPlacesRefused : Obligations.ForbiddenPlacesRefused := by
  intro s declared branchAt loopOf slotOfBranch lines
  have hbranch : ∀ a, branchAt a ↔ a ∈ branchPlaces s := by
    intro a
    rw [mem_branchPlaces]
    exact or_congr_right (by simp only [declared, and_assoc, exists_and_left])
  have hloop : ∀ site last, loopOf site last ↔ ⟨site, last⟩ ∈ textLoops s := by
    intro site last
    rw [mem_textLoops]
    refine or_congr ⟨?_, fun h => ⟨_, h, rfl, rfl⟩⟩ (by simp only [declared, loopLast, and_assoc, exists_and_left])
    rintro ⟨l, hl, rfl, rfl⟩
    exact hl
  have hbehind : slotOfBranch ↔ behindBranch s.pc s = true := by rw [behindBranch_iff, ← hbranch, ← hbranch]
  have hslot : s.db ≠ none ∨ slotOfBranch ↔ inSlot s = true := by rw [inSlot_iff, hbehind]
  have hfree : s.db = none → ¬slotOfBranch → inSlot s = false := fun hdb hno => by
    rw [← Bool.not_eq_true, ← hslot]
    exact not_or.2 ⟨not_not.2 hdb, hno⟩
  refine ⟨fun i hf => ⟨fun p hp => ?_, fun hp hin hb => ?_, fun start last k hp hop hdb hno hline hin hk hlast hwords => ?_,
    fun imm term hi himm hdb hno hshare => ?_, fun b hi hdb hno hnear hshare => ?_⟩, fun hf ho hsecond => ?_,
    fun a r hr hcache hdb ho hl hemu hcond => ?_⟩
  · exact runInstr_of_refused hf (admission_of_problem hp)
  · exact runInstr_of_refused hf (admission_of_barred hp (hslot.1 hin) hb)
  · refine runInstr_of_refused hf (admission_of_near hp (by simp [hfree hdb hno]) hop
      (nearLoopEnd_of_line (start := start) (last := last) ?_ ?_))
    · rcases hline with hr | ⟨site, hl, rfl⟩ | ⟨⟨b, rfl⟩, hstart, hend⟩
      · exact .inl hr
      · exact .inr (.inl ⟨_, (hloop _ _).1 hl, rfl, rfl⟩)
      · exact .inr (.inr (by rw [← hstart, ← hend]; rfl))
    · have hreach := reaches_of_words (m := s.mem) (n := 7) (by omega) hwords
      rw [← hlast] at hreach
      simp [amongLastLines, within, hin, hreach]
  · subst hi
    have hp : (Instr.doUntil imm term).problem = none := if_neg himm
    refine runInstr_of_refused hf (admission_of_shared hp (by simp [hfree hdb hno]) rfl (sharesLoopEnd_iff.2 ?_))
    rcases hshare with ⟨r, hr, hlast⟩ | ⟨site, hne, hl⟩
    · exact .inr ⟨_, rfl, r, hr, hlast⟩
    · exact .inl ⟨_, mem_loopSiteOf.2 ⟨_, _, rfl, rfl⟩, _, (hloop _ _).1 hl, hne, rfl⟩
  · subst hi
    obtain ⟨r, hr, hlast⟩ := hshare
    exact runInstr_of_refused hf (admission_of_shared rfl (by simp [hfree hdb hno]) (by simp [hnear])
      (sharesLoopEnd_iff.2 (.inr ⟨_, rfl, r, hr, hlast⟩)))
  · exact runInstr_two_words_second_slot hf ho (hsecond.imp_left (hbranch _).1)
  · obtain ⟨-, f, hf, hplace⟩ := programProblem_some hr
    have hfetch : fetch { s with pc := a } = .ok f :=
      (fetch_of_fresh (s := { s with pc := a }) (staleWords_of_empty _ hcache) (staleWords_of_empty _ hcache)).trans
        (instrAt_eq_some_iff.1 hf)
    exact runInstr_of_placeProblem hfetch hplace hdb ho hl hemu fun i hi => hcond i (hi ▸ hf)

end Sys2Proof.Machine
end
